-- ==== Sys2Proof/Word.lean ====
section
/-! DEFINITION. The word types of the ECC core: the 256-bit operand width W (R6), the 32-bit host data word and
command word (R6, R80), the 11-bit window offset (R50), and the register numbers (R21, R23). -/

namespace Sys2Proof

/-- A value of the operand width `W = 256` (R6). Every architectural value is unsigned (R8, R10). -/
abbrev Word := BitVec 256

/-- A 32-bit host bus value or command word (R6, R50, R80). -/
abbrev Word32 := BitVec 32

/-- A byte offset in the register window: 11 bits, `0x000` to `0x7FF` (R50). -/
abbrev Offset := BitVec 11

/-- The number of an X register, `X0` to `X15` (R21). -/
abbrev XNum := Fin 16

/-- The number of a P register, `P0` to `P7` (R23). -/
abbrev PNum := Fin 8

/-- The number of a 32-bit word inside a 256-bit register: word `w` holds bits `[32*w+31 : 32*w]` (R54). -/
abbrev WordNum := Fin 8

end Sys2Proof
end

