-- ==== Sys2Proof/Syntax.lean ====
section
/-! DEFINITION. The command syntax: one constructor of `Instr` for each row of spec/opcode_table.json (R86), with
operands in the order of the assembler syntax (R90). -/

namespace Sys2Proof

/-- The constants `LDK` can load, in index order 0 to 9 (R103, R90). -/
inductive Konst where
  | p | n | gx | gy | a | b | h | cp | ca | cb
  deriving DecidableEq, Repr

/-- A command of the ECC core (R86). The operands of each constructor stand in the order of its assembler syntax
(R90): destination first. A `Bool` is the `NEG` bit (R82). -/
inductive Instr where
  /-- `NOP` (R100). -/
  | nop
  /-- `MOV Xd, Xs` (R101). -/
  | mov (d s : XNum)
  /-- `LDI Xd, #imm` (R102). -/
  | ldi (d : XNum) (imm : BitVec 16)
  /-- `LDK Xd, name` (R103). -/
  | ldk (d : XNum) (k : Konst)
  /-- `FINT Xd, Xs` (R104). -/
  | fint (d s : XNum)
  /-- `FRED Xd, Xv, Xm` (R105). -/
  | fred (d v m : XNum)
  /-- `FADD Xd, Xa, Xb` (R121). -/
  | fadd (d a b : XNum)
  /-- `FSUB Xd, Xa, Xb` (R122). -/
  | fsub (d a b : XNum)
  /-- `FMUL Xd, Xa, Xb` (R123). -/
  | fmul (d a b : XNum)
  /-- `FDIV Xd, Xa, Xb` (R124). -/
  | fdiv (d a b : XNum)
  /-- `FINV Xd, Xa` (R125). -/
  | finv (d a : XNum)
  /-- `FPOW[.NEG] Xd, Xa, Xe` (R127). -/
  | fpow (neg : Bool) (d a e : XNum)
  /-- `FEQ Xa, Xb` (R128). -/
  | feq (a b : XNum)
  /-- `PINF Pd` (R148). -/
  | pinf (d : PNum)
  /-- `PGEN Pd` (R149). -/
  | pgen (d : PNum)
  /-- `PSET Pd, Xx, Xy` (R150). -/
  | pset (d : PNum) (x y : XNum)
  /-- `PMOV Pd, Ps` (R151). -/
  | pmov (d s : PNum)
  /-- `PGX Xd, Ps` (R152). -/
  | pgx (d : XNum) (s : PNum)
  /-- `PGY Xd, Ps` (R153). -/
  | pgy (d : XNum) (s : PNum)
  /-- `PCHK Ps` (R154). -/
  | pchk (s : PNum)
  /-- `PEQ Pa, Pb` (R155). -/
  | peq (a b : PNum)
  /-- `PNEG Pd, Ps` (R156). -/
  | pneg (d s : PNum)
  /-- `PADD Pd, Pa, Pb` (R157). -/
  | padd (d a b : PNum)
  /-- `PDBL Pd, Ps` (R158). -/
  | pdbl (d s : PNum)
  /-- `PMUL[.NEG] Pd, Ps, Xk` (R159). -/
  | pmul (neg : Bool) (d s : PNum) (k : XNum)
  /-- `KGEN Xd` (R172). -/
  | kgen (d : XNum)
  /-- `PUBK Pd, Xk` (R173). -/
  | pubk (d : PNum) (k : XNum)
  /-- `SIGN Xr, Xs, Xd, Xz` (R174): two destinations, then the key and the digest. -/
  | sign (r s d z : XNum)
  /-- `VRFY Pq, Xz, Xr, Xs` (R176). -/
  | vrfy (q : PNum) (z r s : XNum)
  deriving DecidableEq, Repr

end Sys2Proof
end

