-- ==== Sys2Proof/WellFormed.lean ====
section
/-! DEFINITION. Which terms of `Instr` are commands that a legal word encodes. The register numbers, the `LDK` index
and the immediate are bounded by their types (R84, R85, R103), so one check is left: the two destinations of `SIGN`
differ (R87 item 7). -/

namespace Sys2Proof

/-- The well-formedness of a command (R84, R87). -/
def Instr.wf : Instr → Bool
  | .nop => true
  | .mov _ _ => true
  | .ldi _ _ => true
  | .ldk _ _ => true
  | .fint _ _ => true
  | .fred _ _ _ => true
  | .fadd _ _ _ => true
  | .fsub _ _ _ => true
  | .fmul _ _ _ => true
  | .fdiv _ _ _ => true
  | .finv _ _ => true
  | .fpow _ _ _ _ => true
  | .feq _ _ => true
  | .pinf _ => true
  | .pgen _ => true
  | .pset _ _ _ => true
  | .pmov _ _ => true
  | .pgx _ _ => true
  | .pgy _ _ => true
  | .pchk _ => true
  | .peq _ _ => true
  | .pneg _ _ => true
  | .padd _ _ _ => true
  | .pdbl _ _ => true
  | .pmul _ _ _ _ => true
  | .kgen _ => true
  | .pubk _ _ => true
  | .sign r s _ _ => r != s
  | .vrfy _ _ _ _ => true

end Sys2Proof
end

