-- ==== Sys2Proof/Decode.lean ====
section
/-! DEFINITION. Decoding a 32-bit command word (R80 to R89), total on every word and rejecting by name, and after it
the encoder, written from the same field layout. -/

namespace Sys2Proof

/-! ## The fields of a word (R81, R83) -/

/-- `op`, bits 7:0 (R81, R83). -/
def opField (w : Word32) : BitVec 8 := w.extractLsb' 0 8

/-- `fa`, bits 11:8 (R81, R83). -/
def faField (w : Word32) : BitVec 4 := w.extractLsb' 8 4

/-- `fb`, bits 15:12 in format R; `z4` in format I (R81, R83). -/
def fbField (w : Word32) : BitVec 4 := w.extractLsb' 12 4

/-- `fc`, bits 19:16 (R81). -/
def fcField (w : Word32) : BitVec 4 := w.extractLsb' 16 4

/-- `fd`, bits 23:20 (R81). -/
def fdField (w : Word32) : BitVec 4 := w.extractLsb' 20 4

/-- `NEG`, bit 24 (R81, R82). -/
def negField (w : Word32) : BitVec 1 := w.extractLsb' 24 1

/-- `rsv`, bits 31:25 (R81). -/
def rsvField (w : Word32) : BitVec 7 := w.extractLsb' 25 7

/-- `imm16`, bits 31:16 of format I (R83). -/
def immField (w : Word32) : BitVec 16 := w.extractLsb' 16 16

/-! ## Why a word is illegal (R87) -/

/-- The seven ways a command word is illegal (R87). Each of them makes the engine raise `E_ILLEGAL`; which of them
held is not recorded anywhere in the block (R202). -/
inductive Illegal where
  /-- R87 item 1: `op` is not in the opcode map. -/
  | opcode
  /-- R87 item 2: a reserved bit is 1. -/
  | reservedBit
  /-- R87 item 3: a field of class `-` is not 0. -/
  | unusedField
  /-- R87 item 4: a field of class `p` has bit 3 = 1. -/
  | pointField
  /-- R87 item 5: a field of class `k` is 10 to 15. -/
  | constIndex
  /-- R87 item 6: `NEG = 1` where the map does not allow it. -/
  | negBit
  /-- R87 item 7: `SIGN` with `fa = fd`. -/
  | signAlias
  deriving DecidableEq, Repr

/-! ## The checks of one field (R84, R87) -/

/-- Format R: bits 31:25 must be 0 (R87 item 2). -/
def needReservedZero (w : Word32) : Except Illegal Unit :=
  if rsvField w = 0#7 then .ok () else .error .reservedBit

/-- `NEG` must be 0 (R87 item 6). -/
def needNegZero (w : Word32) : Except Illegal Unit :=
  if negField w = 0#1 then .ok () else .error .negBit

/-- A field of class `-` must be 0 (R84, R87 item 3). -/
def needZero (f : BitVec 4) : Except Illegal Unit :=
  if f = 0#4 then .ok () else .error .unusedField

/-- Class `x`: every value is an X register number (R84). -/
def xClass (f : BitVec 4) : XNum := f.toFin

/-- Class `p`: bit 3 must be 0, and bits 2:0 are the P register number (R84). -/
def pClass (f : BitVec 4) : Except Illegal PNum :=
  if f.extractLsb' 3 1 = 0#1 then .ok (f.extractLsb' 0 3).toFin else .error .pointField

/-- Class `k`: the index of an `LDK` constant, 0 to 9 (R84, R103). -/
def kClass (f : BitVec 4) : Except Illegal Konst :=
  match f.toNat with
  | 0 => .ok .p
  | 1 => .ok .n
  | 2 => .ok .gx
  | 3 => .ok .gy
  | 4 => .ok .a
  | 5 => .ok .b
  | 6 => .ok .h
  | 7 => .ok .cp
  | 8 => .ok .ca
  | 9 => .ok .cb
  | _ => .error .constIndex

/-! ## The decoder -/

/-- Format R with no `NEG`: the reserved bits and `NEG` are 0 (R81, R82, R87 items 2 and 6). -/
def needPlain (w : Word32) : Except Illegal Unit := do
  needReservedZero w
  needNegZero w

/-- The command a word encodes, or the reason it is illegal (R86, R87, R89). -/
def decode (w : Word32) : Except Illegal Instr :=
  match (opField w).toNat with
  | 0x00 => do
    needPlain w; needZero (faField w); needZero (fbField w); needZero (fcField w); needZero (fdField w)
    return .nop
  | 0x01 => do
    needPlain w; needZero (fcField w); needZero (fdField w)
    return .mov (xClass (faField w)) (xClass (fbField w))
  | 0x02 =>
    if fbField w = 0#4 then .ok (.ldi (xClass (faField w)) (immField w)) else .error .reservedBit
  | 0x03 => do
    needPlain w; needZero (fcField w); needZero (fdField w)
    let k ← kClass (fbField w)
    return .ldk (xClass (faField w)) k
  | 0x04 => do
    needPlain w; needZero (fcField w); needZero (fdField w)
    return .fint (xClass (faField w)) (xClass (fbField w))
  | 0x05 => do
    needPlain w; needZero (fdField w)
    return .fred (xClass (faField w)) (xClass (fbField w)) (xClass (fcField w))
  | 0x10 => do
    needPlain w; needZero (fdField w)
    return .fadd (xClass (faField w)) (xClass (fbField w)) (xClass (fcField w))
  | 0x11 => do
    needPlain w; needZero (fdField w)
    return .fsub (xClass (faField w)) (xClass (fbField w)) (xClass (fcField w))
  | 0x12 => do
    needPlain w; needZero (fdField w)
    return .fmul (xClass (faField w)) (xClass (fbField w)) (xClass (fcField w))
  | 0x13 => do
    needPlain w; needZero (fdField w)
    return .fdiv (xClass (faField w)) (xClass (fbField w)) (xClass (fcField w))
  | 0x14 => do
    needPlain w; needZero (fcField w); needZero (fdField w)
    return .finv (xClass (faField w)) (xClass (fbField w))
  | 0x15 => do
    needReservedZero w; needZero (fdField w)
    return .fpow (negField w == 1#1) (xClass (faField w)) (xClass (fbField w)) (xClass (fcField w))
  | 0x16 => do
    needPlain w; needZero (faField w); needZero (fdField w)
    return .feq (xClass (fbField w)) (xClass (fcField w))
  | 0x20 => do
    needPlain w; needZero (fbField w); needZero (fcField w); needZero (fdField w)
    let d ← pClass (faField w)
    return .pinf d
  | 0x21 => do
    needPlain w; needZero (fbField w); needZero (fcField w); needZero (fdField w)
    let d ← pClass (faField w)
    return .pgen d
  | 0x22 => do
    needPlain w; needZero (fdField w)
    let d ← pClass (faField w)
    return .pset d (xClass (fbField w)) (xClass (fcField w))
  | 0x23 => do
    needPlain w; needZero (fcField w); needZero (fdField w)
    let d ← pClass (faField w)
    let s ← pClass (fbField w)
    return .pmov d s
  | 0x24 => do
    needPlain w; needZero (fcField w); needZero (fdField w)
    let s ← pClass (fbField w)
    return .pgx (xClass (faField w)) s
  | 0x25 => do
    needPlain w; needZero (fcField w); needZero (fdField w)
    let s ← pClass (fbField w)
    return .pgy (xClass (faField w)) s
  | 0x26 => do
    needPlain w; needZero (faField w); needZero (fcField w); needZero (fdField w)
    let s ← pClass (fbField w)
    return .pchk s
  | 0x27 => do
    needPlain w; needZero (faField w); needZero (fdField w)
    let a ← pClass (fbField w)
    let b ← pClass (fcField w)
    return .peq a b
  | 0x28 => do
    needPlain w; needZero (fcField w); needZero (fdField w)
    let d ← pClass (faField w)
    let s ← pClass (fbField w)
    return .pneg d s
  | 0x29 => do
    needPlain w; needZero (fdField w)
    let d ← pClass (faField w)
    let a ← pClass (fbField w)
    let b ← pClass (fcField w)
    return .padd d a b
  | 0x2A => do
    needPlain w; needZero (fcField w); needZero (fdField w)
    let d ← pClass (faField w)
    let s ← pClass (fbField w)
    return .pdbl d s
  | 0x2B => do
    needReservedZero w; needZero (fdField w)
    let d ← pClass (faField w)
    let s ← pClass (fbField w)
    return .pmul (negField w == 1#1) d s (xClass (fcField w))
  | 0x30 => do
    needPlain w; needZero (fbField w); needZero (fcField w); needZero (fdField w)
    return .kgen (xClass (faField w))
  | 0x31 => do
    needPlain w; needZero (fcField w); needZero (fdField w)
    let d ← pClass (faField w)
    return .pubk d (xClass (fbField w))
  | 0x32 => do
    needPlain w
    if faField w = fdField w then throw .signAlias
    return .sign (xClass (faField w)) (xClass (fdField w)) (xClass (fbField w)) (xClass (fcField w))
  | 0x33 => do
    needPlain w
    let q ← pClass (faField w)
    return .vrfy q (xClass (fbField w)) (xClass (fcField w)) (xClass (fdField w))
  | _ => .error .opcode

/-! ## The encoder -/

/-- A format R word: `{rsv, NEG, fd, fc, fb, fa, op}` with `rsv = 0` (R81). -/
def formatR (op : BitVec 8) (neg : BitVec 1) (fd fc fb fa : BitVec 4) : Word32 :=
  0#7 ++ neg ++ fd ++ fc ++ fb ++ fa ++ op

/-- A format I word: `{imm16, 0000, fa, op}` (R83). -/
def formatI (op : BitVec 8) (imm : BitVec 16) (fa : BitVec 4) : Word32 := imm ++ 0#4 ++ fa ++ op

/-- The field that names an X register (R84). -/
def xBits (r : XNum) : BitVec 4 := BitVec.ofFin r

/-- The field that names a P register: bit 3 is 0 (R84). -/
def pBits (r : PNum) : BitVec 4 := 0#1 ++ (BitVec.ofFin r : BitVec 3)

/-- The `NEG` bit (R82). -/
def negBits (neg : Bool) : BitVec 1 := BitVec.ofBool neg

/-- The index of an `LDK` constant (R103). -/
def kBits : Konst → BitVec 4
  | .p => 0#4
  | .n => 1#4
  | .gx => 2#4
  | .gy => 3#4
  | .a => 4#4
  | .b => 5#4
  | .h => 6#4
  | .cp => 7#4
  | .ca => 8#4
  | .cb => 9#4

/-- The opcode of a command (R86). -/
def opcode : Instr → BitVec 8
  | .nop => 0x00#8
  | .mov _ _ => 0x01#8
  | .ldi _ _ => 0x02#8
  | .ldk _ _ => 0x03#8
  | .fint _ _ => 0x04#8
  | .fred _ _ _ => 0x05#8
  | .fadd _ _ _ => 0x10#8
  | .fsub _ _ _ => 0x11#8
  | .fmul _ _ _ => 0x12#8
  | .fdiv _ _ _ => 0x13#8
  | .finv _ _ => 0x14#8
  | .fpow _ _ _ _ => 0x15#8
  | .feq _ _ => 0x16#8
  | .pinf _ => 0x20#8
  | .pgen _ => 0x21#8
  | .pset _ _ _ => 0x22#8
  | .pmov _ _ => 0x23#8
  | .pgx _ _ => 0x24#8
  | .pgy _ _ => 0x25#8
  | .pchk _ => 0x26#8
  | .peq _ _ => 0x27#8
  | .pneg _ _ => 0x28#8
  | .padd _ _ _ => 0x29#8
  | .pdbl _ _ => 0x2A#8
  | .pmul _ _ _ _ => 0x2B#8
  | .kgen _ => 0x30#8
  | .pubk _ _ => 0x31#8
  | .sign _ _ _ _ => 0x32#8
  | .vrfy _ _ _ _ => 0x33#8

/-- The word of a command (R81, R83, R86, R90). -/
def encode (i : Instr) : Word32 :=
  match i with
  | .nop => formatR (opcode i) 0#1 0#4 0#4 0#4 0#4
  | .mov d s => formatR (opcode i) 0#1 0#4 0#4 (xBits s) (xBits d)
  | .ldi d imm => formatI (opcode i) imm (xBits d)
  | .ldk d k => formatR (opcode i) 0#1 0#4 0#4 (kBits k) (xBits d)
  | .fint d s => formatR (opcode i) 0#1 0#4 0#4 (xBits s) (xBits d)
  | .fred d v m => formatR (opcode i) 0#1 0#4 (xBits m) (xBits v) (xBits d)
  | .fadd d a b => formatR (opcode i) 0#1 0#4 (xBits b) (xBits a) (xBits d)
  | .fsub d a b => formatR (opcode i) 0#1 0#4 (xBits b) (xBits a) (xBits d)
  | .fmul d a b => formatR (opcode i) 0#1 0#4 (xBits b) (xBits a) (xBits d)
  | .fdiv d a b => formatR (opcode i) 0#1 0#4 (xBits b) (xBits a) (xBits d)
  | .finv d a => formatR (opcode i) 0#1 0#4 0#4 (xBits a) (xBits d)
  | .fpow neg d a e => formatR (opcode i) (negBits neg) 0#4 (xBits e) (xBits a) (xBits d)
  | .feq a b => formatR (opcode i) 0#1 0#4 (xBits b) (xBits a) 0#4
  | .pinf d => formatR (opcode i) 0#1 0#4 0#4 0#4 (pBits d)
  | .pgen d => formatR (opcode i) 0#1 0#4 0#4 0#4 (pBits d)
  | .pset d x y => formatR (opcode i) 0#1 0#4 (xBits y) (xBits x) (pBits d)
  | .pmov d s => formatR (opcode i) 0#1 0#4 0#4 (pBits s) (pBits d)
  | .pgx d s => formatR (opcode i) 0#1 0#4 0#4 (pBits s) (xBits d)
  | .pgy d s => formatR (opcode i) 0#1 0#4 0#4 (pBits s) (xBits d)
  | .pchk s => formatR (opcode i) 0#1 0#4 0#4 (pBits s) 0#4
  | .peq a b => formatR (opcode i) 0#1 0#4 (pBits b) (pBits a) 0#4
  | .pneg d s => formatR (opcode i) 0#1 0#4 0#4 (pBits s) (pBits d)
  | .padd d a b => formatR (opcode i) 0#1 0#4 (pBits b) (pBits a) (pBits d)
  | .pdbl d s => formatR (opcode i) 0#1 0#4 0#4 (pBits s) (pBits d)
  | .pmul neg d s k => formatR (opcode i) (negBits neg) 0#4 (xBits k) (pBits s) (pBits d)
  | .kgen d => formatR (opcode i) 0#1 0#4 0#4 0#4 (xBits d)
  | .pubk d k => formatR (opcode i) 0#1 0#4 0#4 (xBits k) (pBits d)
  | .sign r s d z => formatR (opcode i) 0#1 (xBits s) (xBits z) (xBits d) (xBits r)
  | .vrfy q z r s => formatR (opcode i) 0#1 (xBits s) (xBits r) (xBits z) (pBits q)

/-- The command the decoder reads from a table word of `nbits` bits; every bit above `nbits` is 0. -/
def decodeTableWord (nbits w : Nat) : Option Instr :=
  match decode (BitVec.ofNat 32 (w % 2 ^ nbits)) with
  | .ok i => some i
  | .error _ => none

end Sys2Proof
end

