-- ==== Sys2Proof/Config.lean ====
section
/-! DEFINITION. What is fixed for the block: the domain ROM (R27), the constant `ID` (R31), the open parameter
`ECC_BASE` (R50), and the free values of the model (log entry 1). -/

namespace Sys2Proof

/-- `ROM.p = 2^256 - 2^32 - 977`, the field modulus of secp256k1 (R27, R7). -/
def Config.romP : Word := 0xFFFFFFFFFFFFFFFFFFFFFFFFFFFFFFFFFFFFFFFFFFFFFFFFFFFFFFFEFFFFFC2F#256

/-- `ROM.a` (R27). -/
def Config.romA : Word := 0#256

/-- `ROM.b` (R27). -/
def Config.romB : Word := 7#256

/-- `ROM.Gx` (R27; the spec's own general knowledge K1). -/
def Config.romGx : Word := 0x79BE667EF9DCBBAC55A06295CE870B07029BFCDB2DCE28D959F2815B16F81798#256

/-- `ROM.Gy` (R27; the spec's own general knowledge K2). -/
def Config.romGy : Word := 0x483ADA7726A3C4655DA4FBFC0E1108A8FD17B448A68554199C47D08FFB10D4B8#256

/-- `ROM.n`, the order of `G` (R27; the spec's own general knowledge K3). -/
def Config.romN : Word := 0xFFFFFFFFFFFFFFFFFFFFFFFFFFFFFFFEBAAEDCE6AF48A03BBFD25E8CD0364141#256

/-- `ROM.h`, the cofactor (R27). -/
def Config.romH : Word := 1#256

/-- The constant the `ID` register reads as, "ECC1" in ASCII (R31). -/
def Config.idValue : Word32 := 0x45434331#32

/-- `ECC_BASE`, the base address of the window on the host bus: an OPEN parameter of the platform (R50, D49). No
value is given to it. The machine itself works on window offsets; `Config.busAddress` is the address of one. -/
opaque Config.eccBase : Nat

/-- The host bus address of a window offset (R50). -/
def Config.busAddress (off : Offset) : Nat := Config.eccBase + off.toNat

/-- The free value of the `x` bits that a P register stores beside `inf = 1`. The spec calls them meaningless and
states no value when a command writes `INF` (R23). The argument is the write's number (log entry 1). -/
opaque Config.infX : Nat → Word

/-- The free value of the `y` bits that a P register stores beside `inf = 1` (R23, log entry 1). -/
opaque Config.infY : Nat → Word

end Sys2Proof
end

