-- ==== Sys2Proof/Machine/State.lean ====
section
/-! DEFINITION. The state of the block (R20), the state after reset (R38), and the reasons a step can stop. Beside the
block's own state stand four fields of the model: the schedule of what the outside does next (R18), the answers of the
entropy source (R29), the data of the last host read (R50), and the counter of the free values (log entry 1). -/

namespace Sys2Proof.Machine

/-- The contents of an X register: the pair `(val, mod)` (R21). `mod = 0` is a plain integer, `mod >= 2` a field
element. -/
structure XReg where
  val : Word
  mod : Word
  deriving DecidableEq, Repr

/-- The contents of a P register: `inf`, `x` and `y` (R23). With `inf = 1` the other bits are meaningless. -/
structure PReg where
  inf : Bool
  x : Word
  y : Word
  deriving DecidableEq, Repr

/-- The stored bits of `CTRL` (R32). `SRST` reads 0 and is not stored. -/
structure Ctrl where
  /-- `IE_DONE`, bit 0. -/
  ieDone : Bool
  /-- `IE_ERR`, bit 1. -/
  ieErr : Bool
  deriving DecidableEq, Repr

/-- The fields of `STATUS` (R33). -/
structure Status where
  /-- `BUSY`, bit 0. -/
  busy : Bool
  /-- `DONE`, bit 1. -/
  done : Bool
  /-- `ERR`, bit 2. -/
  err : Bool
  /-- `RESULT`, bit 3: the one condition flag (R37). -/
  result : Bool
  /-- `OVR`, bit 4. -/
  ovr : Bool
  /-- `ERRCODE`, bits 15:8 (R201). -/
  errCode : BitVec 8
  deriving DecidableEq, Repr

/-- The errors a command can raise (R201). -/
inductive Err where
  /-- `E_ILLEGAL`: an illegal command word (R87). -/
  | illegal
  /-- `E_CROSS_FIELD`: field operands of different moduli, or a coordinate not mod `CURVE_P`. -/
  | crossField
  /-- `E_ZERO_INVERSE`: the inverse of 0 requested. -/
  | zeroInverse
  /-- `E_OUT_OF_RANGE`: a private key outside `[1, n-1]`. -/
  | outOfRange
  /-- `E_NOT_FIELD`: an integer register where a field element is required. -/
  | notField
  /-- `E_MALFORMED`: a field operand with `mod = 1` or `val >= mod`. -/
  | malformed
  /-- `E_NOT_ON_CURVE`: a point that is not on the current curve. -/
  | notOnCurve
  /-- `E_INFINITY`: a coordinate read of `INF`. -/
  | infinity
  /-- `E_BAD_MODULUS`: an `FRED` modulus of 0 or 1. -/
  | badModulus
  /-- `E_BAD_CURVE`: `CURVE_P < 2`. -/
  | badCurve
  deriving DecidableEq, Repr

/-- The widths of a host transaction other than 32 bits (R55). -/
inductive NarrowWidth where
  | byte
  | half
  deriving DecidableEq, Repr

/-- One move of the outside, or the engine's turn (R18). -/
inductive Input where
  /-- The engine takes its step (R18 item 2). -/
  | engine
  /-- The host reads 32 bits at an offset (R50). -/
  | busRead (off : Offset)
  /-- The host writes 32 bits at an offset (R50). -/
  | busWrite (off : Offset) (v : Word32)
  /-- A host transaction of 8 or 16 bits, a read or a write (R55). -/
  | busNarrow (width : NarrowWidth) (off : Offset)
  /-- The entropy source makes one more 256-bit answer ready (R18 item 3, R29). -/
  | entropy (v : Word)
  /-- The reset input `rst_n` is asserted (R18 item 4, R230). -/
  | rstN
  deriving DecidableEq, Repr

/-- The state of the machine (R20). -/
structure State where
  /-- The X register file `X[0..15]` (R21). -/
  x : Vector XReg 16
  /-- The point register file `P[0..7]` (R23). -/
  p : Vector PReg 8
  /-- `CURVE_P` (R25). -/
  curveP : Word
  /-- `CURVE_A` (R25). -/
  curveA : Word
  /-- `CURVE_B` (R25). -/
  curveB : Word
  /-- `CTRL` (R32). -/
  ctrl : Ctrl
  /-- `STATUS` (R33). -/
  status : Status
  /-- `LASTCMD`, what a read of `CMD` returns (R34). -/
  lastCmd : Word32
  /-- The command word the engine has latched; `none` while it is idle (R36). -/
  pending : Option Word32
  /-- The model's own: what happens next, first to happen first (R18, log entry 2). -/
  inputs : List Input
  /-- The model's own: the answers the entropy source gives to the next draws, in order; a reset discards them (R29,
  R231, log entry 3). -/
  entropy : List Word
  /-- The model's own: the data the last host read returned (R50, log entry 4). -/
  readData : Option Word32
  /-- The model's own: how many times a command has written `INF`, which numbers the free values (log entry 1). -/
  freeTick : Nat
  deriving DecidableEq, Repr

/-- The reasons the machine stops with a fault. There is none: the spec names no event that stops the block. A
command's error is recorded in `STATUS` and the block goes on (R200). -/
inductive Fault where
  deriving DecidableEq, Repr

/-- The reasons a step is refused. -/
inductive Refusal where
  /-- Raised by an arm of `exec` for an instruction that has no meaning yet; no arm is so. Safe: the model stops. -/
  | notModelled (mnemonic : String)
  /-- Raised by a host transaction that is narrow or misaligned. The bus answers it with an error, it has no effect,
  and the spec says the model refuses the host's step (R55). Safe: the model stops where the block goes on unchanged. -/
  | busError
  deriving DecidableEq, Repr

/-- The state after reset (R38): nothing scheduled, no answer of the entropy source ready. -/
def State.reset : State where
  x := Vector.replicate 16 ⟨0#256, 0#256⟩
  p := Vector.replicate 8 ⟨true, 0#256, 0#256⟩
  curveP := Config.romP
  curveA := 0#256
  curveB := 7#256
  ctrl := ⟨false, false⟩
  status := ⟨false, false, false, false, false, 0#8⟩
  lastCmd := 0#32
  pending := none
  inputs := []
  entropy := []
  readData := none
  freeTick := 0

end Sys2Proof.Machine
end

