-- ==== Sys2Proof/Machine/Arith.lean ====
section
/-! DEFINITION. Arithmetic on mathematical integers (R9) and the Fermat inverse (R13). A result is narrowed to a word
only where a register is written. -/

namespace Sys2Proof.Machine

/-- `a mod m` for `m >= 1`: the floor remainder, in `[0, m)` for a negative `a` too (R9). -/
def floorMod (a : Int) (m : Nat) : Nat := (a % (m : Int)).toNat

/-- The number of bits of `k` without leading zeros, `bitlen 0 = 0` (R9). -/
def bitlen (k : Nat) : Nat := if k = 0 then 0 else k.log2 + 1

/-- `(a ^ e) mod m` for `e < 2 ^ bits`, squaring once for each bit (R9, R3). -/
def powmodBits (a m : Nat) : Nat → Nat → Nat
  | 0, _ => 1 % m
  | bits + 1, e =>
    let h := powmodBits a m bits (e / 2)
    if e % 2 = 1 then h * h % m * a % m else h * h % m

/-- `powmod(a, e, m) = (a ^ e) mod m` (R9). R3 lets any method compute it; this one squares and multiplies, and
`powmod_eq` says that the value is the one R9 gives. -/
def powmod (a e m : Nat) : Nat := powmodBits a m (bitlen e) e

/-- `inv(a, m) = powmod(a, m - 2, m)`, the Fermat inverse for `m >= 2` (R13). -/
def fermatInv (a m : Nat) : Nat := powmod a (m - 2) m

/-- A magnitude with the sign of the `NEG` bit (R10, R82). -/
def signed (neg : Bool) (v : Nat) : Int := if neg then -(v : Int) else (v : Int)

end Sys2Proof.Machine
end

