-- ==== Sys2Proof/Machine/Curve.lean ====
section
/-! DEFINITION. The group law of `y^2 = x^3 + a*x + b (mod p)` as pure functions on points with natural coordinates
(R140 to R146). -/

namespace Sys2Proof.Machine

/-- A point: `INF` or `AFF(x, y)` (R16, R23). -/
inductive Point where
  | inf
  | aff (x y : Nat)
  deriving DecidableEq, Repr

/-- `onCurve(pt, a, b, p)` (R142). -/
def onCurve (pt : Point) (a b p : Nat) : Bool :=
  match pt with
  | .inf => true
  | .aff x y =>
    decide (x < p) && decide (y < p) &&
      decide (floorMod ((y : Int) * y - ((x : Int) * x * x + a * x + b)) p = 0)

/-- `ecNeg(pt, p)` (R144). -/
def ecNeg (pt : Point) (p : Nat) : Point :=
  match pt with
  | .inf => .inf
  | .aff x y => .aff x (floorMod ((p : Int) - y) p)

/-- The end of `ecAdd`: from the slope's numerator and denominator to the third point (R145). -/
def chord (x1 y1 x2 num den p : Nat) : Except Err Point :=
  if den = 0 then .error .zeroInverse
  else
    let lam := num * fermatInv den p % p
    let x3 := floorMod ((lam : Int) * lam - x1 - x2) p
    let y3 := floorMod ((lam : Int) * ((x1 : Int) - x3) - y1) p
    .ok (.aff x3 y3)

/-- `ecAdd(P1, P2, a, p)`: the four cases, in order (R145). -/
def ecAdd (p1 p2 : Point) (a p : Nat) : Except Err Point :=
  match p1, p2 with
  | .inf, q => .ok q
  | q, .inf => .ok q
  | .aff x1 y1, .aff x2 y2 =>
    if x1 = x2 ∧ (y1 + y2) % p = 0 then .ok .inf
    else if x1 = x2 ∧ y1 = y2 then chord x1 y1 x2 ((3 * x1 * x1 + a) % p) (2 * y1 % p) p
    else chord x1 y1 x2 (floorMod ((y2 : Int) - y1) p) (floorMod ((x2 : Int) - x1) p) p

/-- The loop of `ecMul` for `bits` more iterations: the accumulator, the doubling accumulator and `j` (R146). -/
def ecMulLoop (a p : Nat) : Nat → Point → Point → Nat → Except Err Point
  | 0, acc, _, _ => .ok acc
  | bits + 1, acc, dbl, j => do
    let acc' ← if j % 2 = 1 then ecAdd acc dbl a p else .ok acc
    let dbl' ← ecAdd dbl dbl a p
    ecMulLoop a p bits acc' dbl' (j / 2)

/-- `ecMul(k, pt, a, p)`: double-and-add from the least significant bit, `bitlen(k)` iterations (R146). -/
def ecMul (k : Nat) (pt : Point) (a p : Nat) : Except Err Point := ecMulLoop a p (bitlen k) .inf pt k

end Sys2Proof.Machine
end

