-- ==== Sys2Proof/Machine/Ops.lean ====
section
/-! DEFINITION. The named operations on registers and on the state: register access (R11), the words of a 256-bit
register (R54), how a command ends (R200, R205), what accepting and discarding do (R34, R57), and reset (R230). -/

namespace Sys2Proof.Machine

/-- What a step answers. -/
abbrev Out := Host.Outcome State Fault Refusal

/-! ## Registers -/

/-- `X[i]` (R11, R21). -/
def State.getX (s : State) (i : XNum) : XReg := s.x.get i

/-- `X[i] <- (v, m)` (R11). -/
def State.setX (s : State) (i : XNum) (r : XReg) : State := { s with x := s.x.set i r }

/-- The stored bits of `P[j]` (R23). -/
def State.getP (s : State) (j : PNum) : PReg := s.p.get j

/-- Write the stored bits of `P[j]` (R23). -/
def State.setP (s : State) (j : PNum) (r : PReg) : State := { s with p := s.p.set j r }

/-- The point that the stored bits stand for: with `inf = 1` the bits of `x` and `y` are not read (R23). -/
def PReg.point (r : PReg) : Point := if r.inf then .inf else .aff r.x.toNat r.y.toNat

/-- `P[j]` as a rule reads it (R11, R23). -/
def State.point (s : State) (j : PNum) : Point := (s.getP j).point

/-- `P[j] <- pt` (R11). For `INF` the `x` and `y` bits that end up in the register are free values (log entry 1). -/
def State.setPoint (s : State) (j : PNum) (pt : Point) : State :=
  match pt with
  | .inf =>
    { s.setP j ⟨true, Config.infX s.freeTick, Config.infY s.freeTick⟩ with freeTick := s.freeTick + 1 }
  | .aff x y => s.setP j ⟨false, BitVec.ofNat 256 x, BitVec.ofNat 256 y⟩

/-- `RESULT <- b` (R37). -/
def State.setResult (s : State) (b : Bool) : State := { s with status := { s.status with result := b } }

/-- An integer register value: `(v, 0)` (R17). -/
def intReg (v : Nat) : XReg := ⟨BitVec.ofNat 256 v, 0#256⟩

/-- A field register value: `(v, m)` (R17). -/
def fieldReg (v m : Nat) : XReg := ⟨BitVec.ofNat 256 v, BitVec.ofNat 256 m⟩

/-! ## The words of a 256-bit register (R54) -/

/-- Bits `[32*w+31 : 32*w]` of a register (R52, R53, R54). -/
def getWord (r : Word) (w : WordNum) : Word32 := r.extractLsb' (32 * w.val) 32

/-- Replace bits `[32*w+31 : 32*w]` of a register and leave the others (R52, R53, R54). -/
def setWord (r : Word) (w : WordNum) (v : Word32) : Word :=
  (r &&& ~~~((0xFFFFFFFF#256) <<< (32 * w.val))) ||| ((v.setWidth 256) <<< (32 * w.val))

/-! ## How a command ends -/

/-- The numbers of the errors in `ERRCODE` (R201). -/
def Err.code : Err → BitVec 8
  | .illegal => 0x01#8
  | .crossField => 0x02#8
  | .zeroInverse => 0x03#8
  | .outOfRange => 0x04#8
  | .notField => 0x05#8
  | .malformed => 0x06#8
  | .notOnCurve => 0x07#8
  | .infinity => 0x08#8
  | .badModulus => 0x09#8
  | .badCurve => 0x0A#8

/-- `commit`: `DONE <- 1`, `BUSY <- 0`, and the engine is idle (R205, R36). -/
def State.commit (s : State) : State :=
  { s with status := { s.status with done := true, busy := false }, pending := none }

/-- `raise E_X`: the error abort. It records the error, `DONE <- 1`, `BUSY <- 0`, and the engine is idle; `LASTCMD`
and every register stay (R200, R202). -/
def State.raise (s : State) (e : Err) : State :=
  { s with
    status := { s.status with errCode := e.code, err := true, done := true, busy := false }
    pending := none }

/-- The end of a command that ran on `s`: commit the result writes, or raise the error with none of them (R200,
R205). -/
def finish (s : State) (r : Except Err State) : Out :=
  match r with
  | .ok t => .next t.commit
  | .error e => .next (s.raise e)

/-- The engine waits for the entropy source: it has drawn every answer that was ready, and the command stays pending
with `BUSY = 1` (R29, R245, log entry 3). -/
def State.awaitEntropy (s : State) : State := { s with entropy := [] }

/-- The state with the answers that are still to be drawn (R29). -/
def State.withEntropy (s : State) (rest : List Word) : State := { s with entropy := rest }

/-! ## Accepting a command, acknowledging an error, reset -/

/-- An accepted `CMD` write (R34). -/
def State.accept (s : State) (c : Word32) : State :=
  { s with
    lastCmd := c
    status := { s.status with done := false, busy := true }
    pending := some c }

/-- A discarded host write: `OVR <- 1` and nothing else (R57, R218). -/
def State.discard (s : State) : State := { s with status := { s.status with ovr := true } }

/-- The write-1-to-clear bits of `STATUS`: `DONE`, `ERR` with `ERRCODE`, and `OVR` (R33). With bit 2 set this is the
return from an error (R207). -/
def State.clearStatus (s : State) (v : Word32) : State :=
  { s with
    status := { s.status with
      done := s.status.done && !v.getLsbD 1
      err := s.status.err && !v.getLsbD 2
      errCode := if v.getLsbD 2 then 0#8 else s.status.errCode
      ovr := s.status.ovr && !v.getLsbD 4 } }

/-- Reset: every piece of the block's state goes to its value after reset (R230), and the answers of the entropy source
that no command has taken are discarded with the draw they answer (R231). What the outside does next is not state of the
block and stays (log entry 5). -/
def State.resetBlock (s : State) : State :=
  { State.reset with
    inputs := s.inputs
    readData := s.readData
    freeTick := s.freeTick }

/-- The schedule without its first entry. -/
def State.withInputs (s : State) (rest : List Input) : State := { s with inputs := rest }

/-- The entropy source makes one more answer ready (R18 item 3, R29). -/
def State.addEntropy (s : State) (v : Word) : State := { s with entropy := s.entropy ++ [v] }

/-- The data of a host read (R50). -/
def State.withReadData (s : State) (v : Word32) : State := { s with readData := some v }

/-- The command word the engine executes next: the pending one (R36, R66). -/
def State.fetch (s : State) : Option Word32 := s.pending

end Sys2Proof.Machine
end

