-- ==== Sys2Proof/Machine/Operands.lean ====
section
/-! DEFINITION. The operand forms: an integer read from `val` alone (D18), a field element (R120), a pair of field
elements (R120), the current curve (R140, R141), a point on it (R143), and an `LDK` constant (R103). -/

namespace Sys2Proof.Machine

/-- The scalar, exponent, key, digest, modulus or signature operand of a command: `X[i].val`, whatever the tag (D18,
R105, R127, R159, R173, R174, R176). -/
def State.scalar (s : State) (i : XNum) : Nat := (s.getX i).val.toNat

/-- A well-formed X register: `mod = 0`, or `mod >= 2` and `val < mod` (R22). -/
def XReg.wellFormed (r : XReg) : Bool :=
  decide (r.mod.toNat = 0) || (decide (2 ≤ r.mod.toNat) && decide (r.val.toNat < r.mod.toNat))

/-- A field element: its value and its modulus (R16). -/
structure FieldElem where
  v : Nat
  m : Nat
  deriving DecidableEq, Repr

/-- `FCHK`: `E_MALFORMED`, then `E_NOT_FIELD`, then the field element (R120). -/
def fchk (r : XReg) : Except Err FieldElem :=
  if r.wellFormed = false then .error .malformed
  else if r.mod.toNat = 0 then .error .notField
  else .ok ⟨r.val.toNat, r.mod.toNat⟩

/-- The two operands of a field command: their values and the common modulus (R120). -/
structure FieldPair where
  va : Nat
  vb : Nat
  m : Nat
  deriving DecidableEq, Repr

/-- The operand check of a two-operand field command (R120). -/
def State.fieldPair (s : State) (a b : XNum) : Except Err FieldPair := do
  let ea ← fchk (s.getX a)
  let eb ← fchk (s.getX b)
  if ea.m ≠ eb.m then throw .crossField
  return ⟨ea.v, eb.v, ea.m⟩

/-- A curve `(a, b, p)` (R16). -/
structure Curve where
  p : Nat
  a : Nat
  b : Nat
  deriving DecidableEq, Repr

/-- The current curve after `CCHK`: `a` and `b` are reduced mod `p` (R140, R141). -/
def State.curve (s : State) : Except Err Curve :=
  if s.curveP.toNat < 2 then .error .badCurve
  else .ok ⟨s.curveP.toNat, s.curveA.toNat % s.curveP.toNat, s.curveB.toNat % s.curveP.toNat⟩

/-- `PCHKOP(pt)`: the point, if it is on the curve (R143). -/
def Curve.check (c : Curve) (pt : Point) : Except Err Point :=
  if onCurve pt c.a c.b c.p then .ok pt else .error .notOnCurve

/-- The constant that an `LDK` index selects (R103). -/
def State.konst (s : State) : Konst → Word
  | .p => Config.romP
  | .n => Config.romN
  | .gx => Config.romGx
  | .gy => Config.romGy
  | .a => Config.romA
  | .b => Config.romB
  | .h => Config.romH
  | .cp => s.curveP
  | .ca => s.curveA
  | .cb => s.curveB

/-- The generator `G = AFF(ROM.Gx, ROM.Gy)` (R170). -/
def genPoint : Point := .aff Config.romGx.toNat Config.romGy.toNat

/-- The order `n = ROM.n` (R170). -/
def orderN : Nat := Config.romN.toNat

/-- `ecMulR(k, pt)`: on the ROM curve (R170). -/
def ecMulR (k : Nat) (pt : Point) : Except Err Point := ecMul k pt Config.romA.toNat Config.romP.toNat

/-- `ecAddR(P1, P2)`: on the ROM curve (R170). -/
def ecAddR (p1 p2 : Point) : Except Err Point := ecAdd p1 p2 Config.romA.toNat Config.romP.toNat

/-- `invn(x) = inv(x, n)` (R170). -/
def invn (x : Nat) : Nat := fermatInv x orderN

/-- What a command that draws has got: a value and the answers still to be drawn, or every answer drawn and the
source to be waited for (R29, R171). -/
inductive Drawn (α : Type) where
  | got (v : α) (rest : List Word)
  | starved
  deriving DecidableEq, Repr

/-- The draws `drawScalar` accepts: `1 <= w <= n - 1` (R171). -/
def drawOk (w : Word) : Bool := decide (1 ≤ w.toNat) && decide (w.toNat ≤ orderN - 1)

/-- `drawScalar()`: the first accepted answer of the entropy source; the rejected ones are used up (R171). -/
def drawScalar : List Word → Drawn Nat
  | [] => .starved
  | w :: ws => if drawOk w then .got w.toNat ws else drawScalar ws

end Sys2Proof.Machine
end

