-- ==== Sys2Proof/Machine/Flags.lean ====
section
/-! DEFINITION. The values of the condition flag `STATUS.RESULT` (R37), the words of the status and control registers
(R32, R33), and the interrupt output (R209). -/

namespace Sys2Proof.Machine

/-- `FEQ`: equal bits of `val` and of `mod` (R128). -/
def xEqual (r1 r2 : XReg) : Bool := decide (r1.val = r2.val) && decide (r1.mod = r2.mod)

/-- `PEQ`: both `INF`, or both affine with equal coordinates (R155). -/
def pointEqual (p1 p2 : Point) : Bool :=
  match p1, p2 with
  | .inf, .inf => true
  | .aff x1 y1, .aff x2 y2 => decide (x1 = x2) && decide (y1 = y2)
  | .inf, .aff _ _ => false
  | .aff _ _, .inf => false

/-- `VRFY` up to the two range checks: `Q` is on the ROM curve and `r`, `s` lie in `[1, n-1]` (R176 step 1). -/
def verifyInRange (q : Point) (r s : Nat) : Bool :=
  onCurve q Config.romA.toNat Config.romB.toNat Config.romP.toNat &&
    !(decide (r < 1) || decide (r > orderN - 1) || decide (s < 1) || decide (s > orderN - 1))

/-- `VRFY`: whether the signature `(r, s)` of the digest `z` is accepted for the key `q` (R176). -/
def verifyFlag (q : Point) (z r s : Nat) : Except Err Bool :=
  if verifyInRange q r s then do
    let w := invn s
    let u1 := z * w % orderN
    let u2 := r * w % orderN
    let t1 ← ecMulR u1 genPoint
    let t2 ← ecMulR u2 q
    let pt ← ecAddR t1 t2
    match pt with
    | .inf => return false
    | .aff x _ => return decide (x % orderN = r)
  else .ok false

/-- What a read of `STATUS` returns: bits 7:5 and 31:16 read 0 (R33). -/
def Status.word (t : Status) : Word32 :=
  0#16 ++ t.errCode ++ 0#3 ++ BitVec.ofBool t.ovr ++ BitVec.ofBool t.result ++ BitVec.ofBool t.err ++
    BitVec.ofBool t.done ++ BitVec.ofBool t.busy

/-- What a read of `CTRL` returns: bits 31:2 read 0 (R32). -/
def Ctrl.word (c : Ctrl) : Word32 := 0#30 ++ BitVec.ofBool c.ieErr ++ BitVec.ofBool c.ieDone

/-- The `CTRL` bits a write stores (R32). -/
def Ctrl.ofWord (v : Word32) : Ctrl := ⟨v.getLsbD 0, v.getLsbD 1⟩

/-- The interrupt output (R209). -/
def State.irq (s : State) : Bool :=
  (s.status.done && s.ctrl.ieDone) || (s.status.err && s.ctrl.ieErr)

end Sys2Proof.Machine
end

