-- ==== Sys2Proof/Machine/Bus.lean ====
section
/-! DEFINITION. The host register window: the address map (R51), what a read returns (R52, R53, R56, R58) and what a
write does (R31 to R34, R52, R53, R56, R57, R59). -/

namespace Sys2Proof.Machine

/-- What an aligned offset of the window names (R51). -/
inductive Loc where
  | id
  | ctrl
  | status
  | cmd
  | curveP (w : WordNum)
  | curveA (w : WordNum)
  | curveB (w : WordNum)
  | xVal (i : XNum) (w : WordNum)
  | xMod (i : XNum) (w : WordNum)
  | reserved
  deriving DecidableEq, Repr

/-- The number of the word at an offset inside its 32-byte block: `off[4:2]` (R51, R54). -/
def wordOf (off : Offset) : WordNum := (off.extractLsb' 2 3).toFin

/-- The number of the X register at an offset `0x400 + 0x40*i + …`: `off[9:6]` (R51). -/
def xOf (off : Offset) : XNum := (off.extractLsb' 6 4).toFin

/-- Whether the offset is that of a full word, `off[1:0] = 0` (R55). -/
def aligned (off : Offset) : Bool := off.extractLsb' 0 2 == 0#2

/-- The address map of the window, for an aligned offset (R51). -/
def locate (off : Offset) : Loc :=
  if off.toNat < 0x010 then
    match off.toNat / 4 with
    | 0 => .id
    | 1 => .ctrl
    | 2 => .status
    | _ => .cmd
  else if off.toNat < 0x100 then .reserved
  else if off.toNat < 0x120 then .curveP (wordOf off)
  else if off.toNat < 0x140 then .curveA (wordOf off)
  else if off.toNat < 0x160 then .curveB (wordOf off)
  else if off.toNat < 0x400 then .reserved
  else if off.toNat % 0x40 < 0x20 then .xVal (xOf off) (wordOf off)
  else .xMod (xOf off) (wordOf off)

/-- What a read of a location returns (R31 to R34, R52, R53, R56). While a command runs the registers still hold
their values from before it, so no case for that is needed (R58). -/
def State.readLoc (s : State) : Loc → Word32
  | .id => Config.idValue
  | .ctrl => s.ctrl.word
  | .status => s.status.word
  | .cmd => s.lastCmd
  | .curveP w => getWord s.curveP w
  | .curveA w => getWord s.curveA w
  | .curveB w => getWord s.curveB w
  | .xVal i w => getWord (s.getX i).val w
  | .xMod i w => getWord (s.getX i).mod w
  | .reserved => 0#32

/-- A write to the X or the curve window: discarded while `BUSY = 1`, else the store `t` (R57). -/
def State.store (s t : State) : State := if s.status.busy then s.discard else t

/-- What a write to a location does (R31 to R34, R52, R53, R56, R57, R206). -/
def State.writeLoc (s : State) (l : Loc) (v : Word32) : State :=
  match l with
  | .id => s
  | .ctrl => if v.getLsbD 31 then s.resetBlock else { s with ctrl := Ctrl.ofWord v }
  | .status => s.clearStatus v
  | .cmd => if s.status.busy || s.status.err then s.discard else s.accept v
  | .curveP w => s.store { s with curveP := setWord s.curveP w v }
  | .curveA w => s.store { s with curveA := setWord s.curveA w v }
  | .curveB w => s.store { s with curveB := setWord s.curveB w v }
  | .xVal i w => s.store (s.setX i { s.getX i with val := setWord (s.getX i).val w v })
  | .xMod i w => s.store (s.setX i { s.getX i with mod := setWord (s.getX i).mod w v })
  | .reserved => s

/-- `BusRead(off)`: the data goes to the host and nothing of the block changes; a misaligned read is refused (R50, R55,
R59). -/
def hostRead (off : Offset) (s : State) : Out :=
  if aligned off then .next (s.withReadData (s.readLoc (locate off))) else .refused .busError

/-- `BusWrite(off, v)`; a misaligned write is refused (R50, R55, R59). -/
def hostWrite (off : Offset) (v : Word32) (s : State) : Out :=
  if aligned off then .next (s.writeLoc (locate off) v) else .refused .busError

end Sys2Proof.Machine
end

