-- ==== Sys2Proof/Machine/DataMove.lean ====
section
/-! DEFINITION. The meanings of the data-movement commands (R100 to R105). -/

namespace Sys2Proof.Machine

/-- `NOP` (R100). -/
def execNop (s : State) : Out := finish s (.ok s)

/-- `MOV Xd, Xs`: the whole register, unchecked (R101). -/
def execMov (d s : XNum) (st : State) : Out := finish st (.ok (st.setX d (st.getX s)))

/-- `LDI Xd, #imm` (R102, R85). -/
def execLdi (d : XNum) (imm : BitVec 16) (st : State) : Out := finish st (.ok (st.setX d ⟨imm.setWidth 256, 0#256⟩))

/-- `LDK Xd, name` (R103). -/
def execLdk (d : XNum) (k : Konst) (st : State) : Out := finish st (.ok (st.setX d ⟨st.konst k, 0#256⟩))

/-- `FINT Xd, Xs` (R104). -/
def execFint (d s : XNum) (st : State) : Out := finish st (.ok (st.setX d (intReg (st.scalar s))))

/-- `FRED Xd, Xv, Xm` (R105). -/
def execFred (d v m : XNum) (st : State) : Out :=
  finish st <|
    if st.scalar m < 2 then .error .badModulus
    else .ok (st.setX d (fieldReg (st.scalar v % st.scalar m) (st.scalar m)))

end Sys2Proof.Machine
end

