-- ==== Sys2Proof/Machine/Ecdsa.lean ====
section
/-! DEFINITION. The meanings of the ECDSA commands, all over the ROM curve (R170 to R176, R28). -/

namespace Sys2Proof.Machine

/-- `KGEN Xd`: the first accepted draw as an integer; without one the engine waits (R172, R171, R245). -/
def execKgen (d : XNum) (st : State) : Out :=
  match drawScalar st.entropy with
  | .starved => .next st.awaitEntropy
  | .got v rest => finish (st.withEntropy rest) (.ok ((st.withEntropy rest).setX d (intReg v)))

/-- `PUBK Pd, Xk` (R173). -/
def execPubk (d : PNum) (k : XNum) (st : State) : Out :=
  finish st do
    let dk := st.scalar k
    if dk < 1 ∨ dk > orderN - 1 then throw .outOfRange
    let pt ← ecMulR dk genPoint
    return st.setPoint d pt

/-- Low-S: replace `s` by `n - s` when `s > n div 2` (R175). -/
def lowS (s : Nat) : Nat := if s > orderN / 2 then orderN - s else s

/-- One pass of the loop of `SIGN` with the nonce `k`: the signature, or `none` when the pass is retried (R174). -/
def signWith (k dk z : Nat) : Except Err (Option (Nat × Nat)) := do
  let pt ← ecMulR k genPoint
  match pt with
  | .inf => return none
  | .aff x _ =>
    let r := x % orderN
    if r = 0 then return none
    let s := invn k * (z + r * dk) % orderN
    if s = 0 then return none
    return some (r, lowS s)

/-- The loop of `SIGN`: `drawScalar` and one pass, again while the pass asks for it. A rejected draw and a retried pass
both go on with the next answer (R174, R171). -/
def signLoop (dk z : Nat) : List Word → Drawn (Except Err (Nat × Nat))
  | [] => .starved
  | w :: ws =>
    if drawOk w then
      match signWith w.toNat dk z with
      | .error e => .got (.error e) ws
      | .ok none => signLoop dk z ws
      | .ok (some rs) => .got (.ok rs) ws
    else signLoop dk z ws

/-- `SIGN Xr, Xs, Xd, Xz`; without an accepted draw the engine waits (R174, R245). -/
def execSign (r s d z : XNum) (st : State) : Out :=
  match signLoop (st.scalar d) (st.scalar z) st.entropy with
  | .starved => .next st.awaitEntropy
  | .got res rest =>
    finish (st.withEntropy rest) do
      let rs ← res
      return ((st.withEntropy rest).setX r (intReg rs.1)).setX s (intReg rs.2)

/-- `VRFY Pq, Xz, Xr, Xs` (R176). -/
def execVrfy (q : PNum) (z r s : XNum) (st : State) : Out :=
  finish st do
    let ok ← verifyFlag (st.point q) (st.scalar z) (st.scalar r) (st.scalar s)
    return st.setResult ok

end Sys2Proof.Machine
end

