-- ==== Sys2Proof/Machine/Field.lean ====
section
/-! DEFINITION. The meanings of the field-arithmetic commands (R120 to R128). -/

namespace Sys2Proof.Machine

/-- `FADD Xd, Xa, Xb` (R121). -/
def execFadd (d a b : XNum) (st : State) : Out :=
  finish st do
    let o ← st.fieldPair a b
    return st.setX d (fieldReg ((o.va + o.vb) % o.m) o.m)

/-- `FSUB Xd, Xa, Xb` (R122). -/
def execFsub (d a b : XNum) (st : State) : Out :=
  finish st do
    let o ← st.fieldPair a b
    return st.setX d (fieldReg (floorMod ((o.va : Int) - o.vb) o.m) o.m)

/-- `FMUL Xd, Xa, Xb` (R123). -/
def execFmul (d a b : XNum) (st : State) : Out :=
  finish st do
    let o ← st.fieldPair a b
    return st.setX d (fieldReg (o.va * o.vb % o.m) o.m)

/-- `FDIV Xd, Xa, Xb` (R124). -/
def execFdiv (d a b : XNum) (st : State) : Out :=
  finish st do
    let o ← st.fieldPair a b
    if o.vb = 0 then throw .zeroInverse
    return st.setX d (fieldReg (o.va * fermatInv o.vb o.m % o.m) o.m)

/-- `FINV Xd, Xa` (R125). -/
def execFinv (d a : XNum) (st : State) : Out :=
  finish st do
    let o ← fchk (st.getX a)
    if o.v = 0 then throw .zeroInverse
    return st.setX d (fieldReg (powmod o.v (o.m - 2) o.m) o.m)

/-- `FPOW[.NEG] Xd, Xa, Xe`: the exponent is always reduced mod `m - 1` (R127, C3). -/
def execFpow (neg : Bool) (d a e : XNum) (st : State) : Out :=
  finish st do
    let o ← fchk (st.getX a)
    let ee := floorMod (signed neg (st.scalar e)) (o.m - 1)
    return st.setX d (fieldReg (powmod o.v ee o.m) o.m)

/-- `FEQ Xa, Xb` (R128). -/
def execFeq (a b : XNum) (st : State) : Out := finish st (.ok (st.setResult (xEqual (st.getX a) (st.getX b))))

end Sys2Proof.Machine
end

