-- ==== Sys2Proof/Machine/PointOps.lean ====
section
/-! DEFINITION. The meanings of the point commands (R148 to R159). -/

namespace Sys2Proof.Machine

/-- `PINF Pd` (R148). -/
def execPinf (d : PNum) (st : State) : Out := finish st (.ok (st.setPoint d .inf))

/-- `PGEN Pd`: the ROM generator, if it is on the current curve (R149). -/
def execPgen (d : PNum) (st : State) : Out :=
  finish st do
    let c ← st.curve
    let g ← c.check genPoint
    return st.setPoint d g

/-- `PSET Pd, Xx, Xy` (R150). -/
def execPset (d : PNum) (x y : XNum) (st : State) : Out :=
  finish st do
    let c ← st.curve
    let ex ← fchk (st.getX x)
    let ey ← fchk (st.getX y)
    if ex.m ≠ c.p ∨ ey.m ≠ c.p then throw .crossField
    let pt ← c.check (.aff ex.v ey.v)
    return st.setPoint d pt

/-- `PMOV Pd, Ps`: the whole register, unchecked (R151). -/
def execPmov (d s : PNum) (st : State) : Out := finish st (.ok (st.setP d (st.getP s)))

/-- `PGX Xd, Ps` (R152). -/
def execPgx (d : XNum) (s : PNum) (st : State) : Out :=
  finish st do
    let c ← st.curve
    let pt ← c.check (st.point s)
    match pt with
    | .inf => throw .infinity
    | .aff x _ => return st.setX d (fieldReg x c.p)

/-- `PGY Xd, Ps` (R153). -/
def execPgy (d : XNum) (s : PNum) (st : State) : Out :=
  finish st do
    let c ← st.curve
    let pt ← c.check (st.point s)
    match pt with
    | .inf => throw .infinity
    | .aff _ y => return st.setX d (fieldReg y c.p)

/-- `PCHK Ps` (R154). -/
def execPchk (s : PNum) (st : State) : Out :=
  finish st do
    let c ← st.curve
    return st.setResult (onCurve (st.point s) c.a c.b c.p)

/-- `PEQ Pa, Pb` (R155). -/
def execPeq (a b : PNum) (st : State) : Out := finish st (.ok (st.setResult (pointEqual (st.point a) (st.point b))))

/-- `PNEG Pd, Ps` (R156). -/
def execPneg (d s : PNum) (st : State) : Out :=
  finish st do
    let c ← st.curve
    let pt ← c.check (st.point s)
    return st.setPoint d (ecNeg pt c.p)

/-- `PADD Pd, Pa, Pb` (R157). -/
def execPadd (d a b : PNum) (st : State) : Out :=
  finish st do
    let c ← st.curve
    let pa ← c.check (st.point a)
    let pb ← c.check (st.point b)
    let pt ← ecAdd pa pb c.a c.p
    return st.setPoint d pt

/-- `PDBL Pd, Ps` (R158). -/
def execPdbl (d s : PNum) (st : State) : Out :=
  finish st do
    let c ← st.curve
    let ps ← c.check (st.point s)
    let pt ← ecAdd ps ps c.a c.p
    return st.setPoint d pt

/-- `PMUL[.NEG] Pd, Ps, Xk` (R159). -/
def execPmul (neg : Bool) (d s : PNum) (k : XNum) (st : State) : Out :=
  finish st do
    let c ← st.curve
    let ps ← c.check (st.point s)
    let base := if neg then ecNeg ps c.p else ps
    let pt ← ecMul (st.scalar k) base c.a c.p
    return st.setPoint d pt

end Sys2Proof.Machine
end

