-- ==== Sys2Proof/Machine/Dispatch.lean ====
section
/-! DEFINITION. The dispatch: one arm for each constructor of `Instr` (R86). -/

namespace Sys2Proof.Machine

/-- Run a decoded command as the engine does, to its end (R36, R63). -/
def exec (i : Instr) (s : State) : Host.Outcome State Fault Refusal :=
  match i with
  | .nop => Sys2Proof.Machine.execNop s
  | .mov d p => Sys2Proof.Machine.execMov d p s
  | .ldi d imm => Sys2Proof.Machine.execLdi d imm s
  | .ldk d k => Sys2Proof.Machine.execLdk d k s
  | .fint d p => Sys2Proof.Machine.execFint d p s
  | .fred d v m => Sys2Proof.Machine.execFred d v m s
  | .fadd d a b => Sys2Proof.Machine.execFadd d a b s
  | .fsub d a b => Sys2Proof.Machine.execFsub d a b s
  | .fmul d a b => Sys2Proof.Machine.execFmul d a b s
  | .fdiv d a b => Sys2Proof.Machine.execFdiv d a b s
  | .finv d a => Sys2Proof.Machine.execFinv d a s
  | .fpow neg d a e => Sys2Proof.Machine.execFpow neg d a e s
  | .feq a b => Sys2Proof.Machine.execFeq a b s
  | .pinf d => Sys2Proof.Machine.execPinf d s
  | .pgen d => Sys2Proof.Machine.execPgen d s
  | .pset d x y => Sys2Proof.Machine.execPset d x y s
  | .pmov d p => Sys2Proof.Machine.execPmov d p s
  | .pgx d p => Sys2Proof.Machine.execPgx d p s
  | .pgy d p => Sys2Proof.Machine.execPgy d p s
  | .pchk p => Sys2Proof.Machine.execPchk p s
  | .peq a b => Sys2Proof.Machine.execPeq a b s
  | .pneg d p => Sys2Proof.Machine.execPneg d p s
  | .padd d a b => Sys2Proof.Machine.execPadd d a b s
  | .pdbl d p => Sys2Proof.Machine.execPdbl d p s
  | .pmul neg d p k => Sys2Proof.Machine.execPmul neg d p k s
  | .kgen d => Sys2Proof.Machine.execKgen d s
  | .pubk d k => Sys2Proof.Machine.execPubk d k s
  | .sign r t d z => Sys2Proof.Machine.execSign r t d z s
  | .vrfy q z r t => Sys2Proof.Machine.execVrfy q z r t s

end Sys2Proof.Machine
end

