-- ==== Sys2Proof/Machine/Step.lean ====
section
/-! DEFINITION. One step of the machine: the next entry of the schedule, or the engine's turn when nothing is scheduled
(R18). -/

namespace Sys2Proof.Machine

/-- The engine executes a command word: the command it encodes, or `E_ILLEGAL` (R87, R89). -/
def runWord (w : Word32) (s : State) : Out :=
  match decode w with
  | .ok i => exec i s
  | .error _ => .next (s.raise .illegal)

/-- The engine's turn: it runs the pending command to its end, and does nothing when it is idle (R36, R217). -/
def engineTurn (s : State) : Out :=
  match s.fetch with
  | some w => runWord w s
  | none => .next s

/-- One step (R18): the schedule's first entry, or the engine's turn when the schedule is empty. -/
def step (s : State) : Host.Outcome State Fault Refusal :=
  match s.inputs with
  | [] => engineTurn s
  | .engine :: rest => engineTurn (s.withInputs rest)
  | .busRead off :: rest => hostRead off (s.withInputs rest)
  | .busWrite off v :: rest => hostWrite off v (s.withInputs rest)
  | .busNarrow _ _ :: _ => .refused .busError
  | .entropy v :: rest => .next ((s.withInputs rest).addEntropy v)
  | .rstN :: rest => .next (s.withInputs rest).resetBlock

/-- The state in which the command of a table word has just been accepted and the engine has the next turn: `LASTCMD`,
the pending command, `BUSY = 1` and `DONE = 0` as an accepted `CMD` write leaves them (R34), and the engine first in the
schedule. -/
def State.withFetchWord (s : State) (nbits w : Nat) : State :=
  { s.accept (BitVec.ofNat 32 (w % 2 ^ nbits)) with inputs := .engine :: s.inputs }

end Sys2Proof.Machine
end

