-- ==== Sys2Proof/Safety.lean ====
section
/-! DEFINITION. The terms that claims about the machine use: how a command leaves the state when it ends, when an
operand is legal, the curve equation and the third point written out, the opcode map as data, and the invariants of a
good state. The words of these terms are the spec's; they do not go through the meanings of the commands. -/

namespace Sys2Proof.Machine

/-! ## How a command leaves the state -/

/-- A state in which a command has just committed: `DONE <- 1`, `BUSY <- 0`, nothing pending, all else kept (R205). -/
def State.ended (s : State) : State :=
  { s with status := { s.status with busy := false, done := true }, pending := none }

/-- A state in which a command has just been aborted with an error code, and all else is kept (R200). -/
def State.aborted (s : State) (code : BitVec 8) : State :=
  { s with
    status := { s.status with busy := false, done := true, err := true, errCode := code }
    pending := none }

/-- A command that ran on `s` has committed in `t` and written a register value `(v, m)` to `X[d]` and nothing else. The
value is the natural number itself: nothing of it was cut off at 256 bits (R11, R130). -/
def EndsWithX (s t : State) (d : XNum) (v m : Nat) : Prop :=
  ∃ r : XReg, r.val.toNat = v ∧ r.mod.toNat = m ∧ t = ({ s with x := s.x.set d r } : State).ended

/-- A command that ran on `s` has committed with `RESULT` set to `b` and written nothing else (R37). -/
def State.endedWith (s : State) (b : Bool) : State :=
  ({ s with status := { s.status with result := b } } : State).ended

/-- A command that ran on `s` has committed in `t` and written the point `pt` to `P[d]` and nothing else. The stored
bits beside `INF` and the model's counter of free values are left open (R23, log entry 1). -/
def EndsWithPoint (s t : State) (d : PNum) (pt : Point) : Prop :=
  ∃ (r : PReg) (k : Nat), r.point = pt ∧ t = ({ s with p := s.p.set d r, freeTick := k } : State).ended

/-- What every committed command leaves as it was: `LASTCMD`, the curve, `CTRL`, the status bits but `BUSY`, `DONE` and
`RESULT`, and the model's own schedule and read data (R25, R205). -/
def CommitFrame (s t : State) : Prop :=
  t.status = { s.status with busy := false, done := true, result := t.status.result } ∧
  t.pending = none ∧ t.lastCmd = s.lastCmd ∧
  t.curveP = s.curveP ∧ t.curveA = s.curveA ∧ t.curveB = s.curveB ∧
  t.ctrl = s.ctrl ∧ t.inputs = s.inputs ∧ t.readData = s.readData

/-- The commands that draw from the entropy source (R171, R172, R174). -/
def Draws (i : Instr) : Prop := (∃ d, i = .kgen d) ∨ ∃ r u d z, i = .sign r u d z

/-- The commands that write `RESULT` when they run on `s`: the four predicates, `PCHK` only on a legal curve, since it
aborts on any other (R37, R154). -/
def WritesResult (i : Instr) (s : State) : Prop :=
  (∃ a b, i = .feq a b) ∨ (∃ r, i = .pchk r ∧ 2 ≤ s.curveP.toNat) ∨ (∃ a b, i = .peq a b) ∨
    ∃ q z r u, i = .vrfy q z r u

/-! ## Legal operands -/

/-- The code of the error that reading a register as a field element raises: `E_MALFORMED` for `mod = 1` or
`val >= mod`, `E_NOT_FIELD` for an integer (R22, R120). -/
def operandError (r : XReg) : Option (BitVec 8) :=
  if r.mod.toNat = 0 then some 5#8
  else if r.mod.toNat = 1 ∨ r.mod.toNat ≤ r.val.toNat then some 6#8
  else none

/-- The code of the error of a two-operand field command: the first operand, then the second, then the moduli (R120,
R203). -/
def pairError (r1 r2 : XReg) : Option (BitVec 8) :=
  match operandError r1, operandError r2 with
  | some c, _ => some c
  | none, some c => some c
  | none, none => if r1.mod = r2.mod then none else some 2#8

/-- `q` lies on `y^2 = x^3 + a*x + b (mod p)` with reduced coordinates, or is `INF` (R142). -/
def OnEquation (q : Point) (a b p : Nat) : Prop :=
  match q with
  | .inf => True
  | .aff x y => x < p ∧ y < p ∧ y ^ 2 % p = (x ^ 3 + a * x + b) % p

/-- `q` is on the current curve, taken with its coefficients as they stand in `CURVE_A` and `CURVE_B` (R140, R142). -/
def State.OnCurrent (s : State) (q : Point) : Prop :=
  OnEquation q s.curveA.toNat s.curveB.toNat s.curveP.toNat

/-- `q` is on the ROM curve (R28, R142). -/
def OnRom (q : Point) : Prop := OnEquation q Config.romA.toNat Config.romB.toNat Config.romP.toNat

/-- The third point of the chord or tangent with slope `num / den`, with the Fermat inverse written as a power (R145,
R13). -/
def thirdPoint (p x1 y1 x2 num den : Nat) : Point :=
  let lam := num * (den ^ (p - 2) % p) % p
  let x3 := (((lam : Int) ^ 2 - x1 - x2) % (p : Int)).toNat
  .aff x3 (((lam : Int) * ((x1 : Int) - x3) - y1) % (p : Int)).toNat

/-- `q` negated mod `p` (R144). -/
def negPoint (q : Point) (p : Nat) : Point :=
  match q with
  | .inf => .inf
  | .aff x y => .aff x ((p - y) % p)

/-- The source's double-and-add over the bits of `k` from the least significant one: the accumulator and the doubling
accumulator, the doubling done after every bit (R146). -/
def doubleAndAdd (k : Nat) (q : Point) (a p : Nat) : Except Err Point := do
  let end2 ← (Nat.bits k).foldlM
    (fun (st : Point × Point) (bit : Bool) => do
      let acc ← if bit then ecAdd st.1 st.2 a p else .ok st.1
      let dbl ← ecAdd st.2 st.2 a p
      return (acc, dbl))
    (.inf, q)
  return end2.1

/-- Double-and-add on the ROM curve (R170). -/
def romMul (k : Nat) (q : Point) : Except Err Point := doubleAndAdd k q Config.romA.toNat Config.romP.toNat

/-- The generator (R170). -/
def romG : Point := .aff Config.romGx.toNat Config.romGy.toNat

/-- The order `n` (R170). -/
def romOrder : Nat := Config.romN.toNat

/-- The `s` of a signing pass before Low-S, with the inverse of the nonce written as a power (R174 step 3, R170). -/
def rawS (k r dk z : Nat) : Nat := k ^ (romOrder - 2) % romOrder * (z + r * dk) % romOrder

/-- An accepted draw: `1 <= w <= n - 1` (R171). -/
def Accepted (w : Word) : Prop := 1 ≤ w.toNat ∧ w.toNat ≤ romOrder - 1

/-- The numbers of the error codes (R201). -/
def errorCodes : List (BitVec 8) := [1#8, 2#8, 3#8, 4#8, 5#8, 6#8, 7#8, 8#8, 9#8, 10#8]

/-- The error codes that the table of R201 lists for a command, beside `E_ILLEGAL`, which decoding raises. `PADD` and
`PMUL` may raise `E_ZERO_INVERSE` for a composite `CURVE_P` (R147). -/
def raisable : Instr → List (BitVec 8)
  | .nop => []
  | .mov _ _ => []
  | .ldi _ _ => []
  | .ldk _ _ => []
  | .fint _ _ => []
  | .fred _ _ _ => [9#8]
  | .fadd _ _ _ => [2#8, 5#8, 6#8]
  | .fsub _ _ _ => [2#8, 5#8, 6#8]
  | .fmul _ _ _ => [2#8, 5#8, 6#8]
  | .fdiv _ _ _ => [2#8, 3#8, 5#8, 6#8]
  | .finv _ _ => [3#8, 5#8, 6#8]
  | .fpow _ _ _ _ => [5#8, 6#8]
  | .feq _ _ => []
  | .pinf _ => []
  | .pgen _ => [7#8, 10#8]
  | .pset _ _ _ => [2#8, 5#8, 6#8, 7#8, 10#8]
  | .pmov _ _ => []
  | .pgx _ _ => [7#8, 8#8, 10#8]
  | .pgy _ _ => [7#8, 8#8, 10#8]
  | .pchk _ => [10#8]
  | .peq _ _ => []
  | .pneg _ _ => [7#8, 10#8]
  | .padd _ _ _ => [3#8, 7#8, 10#8]
  | .pdbl _ _ => [7#8, 10#8]
  | .pmul _ _ _ _ => [3#8, 7#8, 10#8]
  | .kgen _ => []
  | .pubk _ _ => [4#8]
  | .sign _ _ _ _ => []
  | .vrfy _ _ _ _ => []

/-! ## The opcode map as data (R84, R86) -/

/-- The class of a register field (R84). -/
inductive FieldClass where
  | x
  | p
  | k
  | unused
  deriving DecidableEq, Repr

/-- Whether a value of a field of the class is illegal (R84, R87 items 3 to 5). -/
def FieldClass.bad : FieldClass → Nat → Bool
  | .x, _ => false
  | .p, f => decide (8 ≤ f)
  | .k, f => decide (10 ≤ f)
  | .unused, f => decide (f ≠ 0)

/-- A row of the opcode map: opcode, the classes of `fa fb fc fd`, and whether `NEG` may be 1 (R86). -/
structure OpRow where
  op : Nat
  fa : FieldClass
  fb : FieldClass
  fc : FieldClass
  fd : FieldClass
  neg : Bool
  deriving DecidableEq, Repr

/-- The rows of format R (R86). The one command of format I, `LDI`, is opcode `0x02`. -/
def opRows : List OpRow :=
  [⟨0x00, .unused, .unused, .unused, .unused, false⟩,
   ⟨0x01, .x, .x, .unused, .unused, false⟩,
   ⟨0x03, .x, .k, .unused, .unused, false⟩,
   ⟨0x04, .x, .x, .unused, .unused, false⟩,
   ⟨0x05, .x, .x, .x, .unused, false⟩,
   ⟨0x10, .x, .x, .x, .unused, false⟩,
   ⟨0x11, .x, .x, .x, .unused, false⟩,
   ⟨0x12, .x, .x, .x, .unused, false⟩,
   ⟨0x13, .x, .x, .x, .unused, false⟩,
   ⟨0x14, .x, .x, .unused, .unused, false⟩,
   ⟨0x15, .x, .x, .x, .unused, true⟩,
   ⟨0x16, .unused, .x, .x, .unused, false⟩,
   ⟨0x20, .p, .unused, .unused, .unused, false⟩,
   ⟨0x21, .p, .unused, .unused, .unused, false⟩,
   ⟨0x22, .p, .x, .x, .unused, false⟩,
   ⟨0x23, .p, .p, .unused, .unused, false⟩,
   ⟨0x24, .x, .p, .unused, .unused, false⟩,
   ⟨0x25, .x, .p, .unused, .unused, false⟩,
   ⟨0x26, .unused, .p, .unused, .unused, false⟩,
   ⟨0x27, .unused, .p, .p, .unused, false⟩,
   ⟨0x28, .p, .p, .unused, .unused, false⟩,
   ⟨0x29, .p, .p, .p, .unused, false⟩,
   ⟨0x2A, .p, .p, .unused, .unused, false⟩,
   ⟨0x2B, .p, .p, .x, .unused, true⟩,
   ⟨0x30, .x, .unused, .unused, .unused, false⟩,
   ⟨0x31, .p, .x, .unused, .unused, false⟩,
   ⟨0x32, .x, .x, .x, .x, false⟩,
   ⟨0x33, .p, .x, .x, .x, false⟩]

/-- Whether a command word is illegal, from the seven conditions of R87 and the opcode map of R86. -/
def illegalWord (w : Nat) : Bool :=
  if w % 256 = 2 then decide (w / 4096 % 16 ≠ 0)
  else
    match opRows.find? (fun row => decide (row.op = w % 256)) with
    | none => true
    | some row =>
      decide (w / 2 ^ 25 ≠ 0) ||
      row.fa.bad (w / 2 ^ 8 % 16) || row.fb.bad (w / 2 ^ 12 % 16) ||
      row.fc.bad (w / 2 ^ 16 % 16) || row.fd.bad (w / 2 ^ 20 % 16) ||
      (decide (w / 2 ^ 24 % 2 = 1) && !row.neg) ||
      (decide (w % 256 = 0x32) && decide (w / 2 ^ 8 % 16 = w / 2 ^ 20 % 16))

/-! ## Good states -/

/-- The handshake of the engine and the host: `BUSY = 1` exactly while a command is pending, the pending word is
`LASTCMD`, a running command has neither `DONE` nor `ERR`, and `ERRCODE` is 0 exactly while `ERR = 0` (R33, R34, R36,
R201). -/
def State.Handshake (s : State) : Prop :=
  s.status.busy = s.pending.isSome ∧
  (∀ w, s.pending = some w → s.lastCmd = w) ∧
  (s.status.busy = true → s.status.done = false ∧ s.status.err = false) ∧
  (s.status.err = false → s.status.errCode = 0#8) ∧
  (s.status.err = true → s.status.errCode ∈ errorCodes)

/-- Every X register is well-formed: `mod = 0`, or `mod >= 2` and `val < mod` (R22). -/
def State.RegsWellFormed (s : State) : Prop :=
  ∀ i : XNum, (s.getX i).mod.toNat = 0 ∨ (2 ≤ (s.getX i).mod.toNat ∧ (s.getX i).val.toNat < (s.getX i).mod.toNat)

/-- Whether the next step is a host write, which may store any bits in the X window (R22, R52). -/
def State.hostWritesNext (s : State) : Bool :=
  match s.inputs with
  | .busWrite _ _ :: _ => true
  | _ => false

/-- Every P register holds a point of the current curve (R24). -/
def State.PointsOnCurve (s : State) : Prop := 2 ≤ s.curveP.toNat ∧ ∀ j : PNum, s.OnCurrent (s.point j)

end Sys2Proof.Machine
end

