-- ==== Sys2Proof/Certificates/Slice0/Obligations.lean ====
section
/-! DEFINITION. The statements about the machine. Each cites the rules it formalises; one that rests on the model's own
choice names the log entry. -/

open Sys2Proof Sys2Proof.Machine

/-- For every well-formed command i, with every operand at every value its field admits, decode (encode i) = i.
(R81, R83, R84, R86, R90) -/
def Obligations.DecodeOfEncodeIsIdentity : Prop :=
    ∀ i : Instr, i.wf = true → decode (encode i) = .ok i

/-- For every 32-bit word w, if decode w = i then encode i = w and i is well-formed: no two words decode to one
command and no bit of a legal word is ignored. (R87, R89) -/
def Obligations.EncodeOfDecodeIsIdentity : Prop :=
    ∀ (w : Word32) (i : Instr), decode w = .ok i → encode i = w ∧ i.wf = true

/-- For every 32-bit word, the decoder answers an error if and only if the word is illegal by the seven conditions
of R87 over the opcode map of R86 (illegalWord). (R84, R86, R87) -/
def Obligations.IllegalWordsAreTheSevenCases : Prop :=
    ∀ w : Word32, (∃ e, decode w = .error e) ↔ illegalWord w.toNat = true

/-- Thirteen words of the spec's encoding table, from every family, decode to the commands the table gives them.
(R81, R83, R86, 95_test_vectors.md section 2) -/
def Obligations.DecodeOfWordsOfTheVectorTable : Prop :=
    decode 0x00000000#32 = .ok .nop ∧
  decode 0xBEEF0402#32 = .ok (.ldi 4 0xBEEF#16) ∧
  decode 0x00001003#32 = .ok (.ldk 0 .n) ∧
  decode 0x00021305#32 = .ok (.fred 3 1 2) ∧
  decode 0x00021310#32 = .ok (.fadd 3 1 2) ∧
  decode 0x01021315#32 = .ok (.fpow true 3 1 2) ∧
  decode 0x00021016#32 = .ok (.feq 1 2) ∧
  decode 0x00021022#32 = .ok (.pset 0 1 2) ∧
  decode 0x00003525#32 = .ok (.pgy 5 3) ∧
  decode 0x0105122B#32 = .ok (.pmul true 2 1 5) ∧
  decode 0x0000F031#32 = .ok (.pubk 0 15) ∧
  decode 0x00521432#32 = .ok (.sign 4 5 1 2) ∧
  decode 0x00542133#32 = .ok (.vrfy 1 2 4 5)

/-- If a command word is pending and decodes to i, and the schedule is empty or gives the engine the turn, then the
step is exec i at the state with that schedule entry taken off. The schedule is the model's own (log entry 2). (R18,
R36, R63, R89, notes/assumptions/2.md) -/
def Obligations.EngineTurnRunsTheDecodedCommand : Prop :=
    ∀ (s : State) (rest : List Input) (w : Word32) (i : Instr),
    (s.inputs = [] ∧ rest = []) ∨ s.inputs = .engine :: rest →
    s.pending = some w → decode w = .ok i →
    step s = exec i { s with inputs := rest }

/-- A word is refused by the decoder exactly when one of the seven conditions of R87 holds. For every such word: a
CMD write of it with BUSY = 0 and ERR = 0 is accepted, and when the engine has the turn with it pending, the step
aborts with code 0x01 and changes nothing else of the block. The engine's turn is an entry of the schedule, or the
empty schedule, which is the model's own (log entry 2). (R87, R18, notes/assumptions/2.md) -/
def Obligations.IllegalWordIsAcceptedThenAborts : Prop :=
    ∀ w : Word32,
    ((∃ e, decode w = .error e) ↔ illegalWord w.toNat = true) ∧
    (illegalWord w.toNat = true →
      (∀ (s : State) (rest : List Input), s.inputs = .busWrite 0x00C#11 w :: rest →
        s.status.busy = false → s.status.err = false →
        step s = .next { s with
          inputs := rest
          lastCmd := w
          status := { s.status with done := false, busy := true }
          pending := some w }) ∧
      (∀ (s : State) (rest : List Input),
        ((s.inputs = [] ∧ rest = []) ∨ s.inputs = .engine :: rest) → s.pending = some w →
        step s = .next (({ s with inputs := rest } : State).aborted 0x01#8)))

/-- exec NOP answers the state with BUSY = 0, DONE = 1 and the engine idle, and everything else unchanged; a word
with opcode 0x00 and any other bit 1 is illegal. (R100) -/
def Obligations.NopEndsWithNoEffect : Prop :=
    (∀ s : State, exec .nop s = .next s.ended) ∧
    ∀ w : Word32, w.toNat % 256 = 0 → w ≠ 0#32 → ∃ e, decode w = .error e

/-- For every state, MOV Xd, Xs commits with X[d] = X[s], both fields, whatever they hold; every other register and
every other part of the state is unchanged. (R101) -/
def Obligations.MovCopiesTheRegisterWithItsTag : Prop :=
    ∀ (s : State) (d r : XNum),
    exec (.mov d r) s = .next ({ s with x := s.x.set d (s.x.get r) } : State).ended

/-- For every state, LDI Xd, #imm commits with X[d] = (imm, 0) as natural numbers and changes nothing else; a word
with opcode 0x02 and bits 15:12 not 0 is illegal. (R102) -/
def Obligations.LdiLoadsTheImmediateAsAnInteger : Prop :=
    (∀ (s : State) (d : XNum) (imm : BitVec 16),
      ∃ t, exec (.ldi d imm) s = .next t ∧ EndsWithX s t d imm.toNat 0) ∧
    ∀ w : Word32, w.toNat % 256 = 0x02 → w.toNat / 2 ^ 12 % 16 ≠ 0 → ∃ e, decode w = .error e

/-- For every state and each of the ten indices, LDK commits with X[d] = (K[index], 0): the ROM values written out,
or the current value of CURVE_P, CURVE_A, CURVE_B unreduced. An index of 10 to 15 is an illegal word. (R103) -/
def Obligations.LdkLoadsTheConstantOfTheIndex : Prop :=
    (∀ (s : State) (d : XNum) (k : Konst), ∃ t, exec (.ldk d k) s = .next t ∧ EndsWithX s t d
      (match k with
        | .p => 2 ^ 256 - 2 ^ 32 - 977
        | .n => 0xFFFFFFFFFFFFFFFFFFFFFFFFFFFFFFFEBAAEDCE6AF48A03BBFD25E8CD0364141
        | .gx => 0x79BE667EF9DCBBAC55A06295CE870B07029BFCDB2DCE28D959F2815B16F81798
        | .gy => 0x483ADA7726A3C4655DA4FBFC0E1108A8FD17B448A68554199C47D08FFB10D4B8
        | .a => 0
        | .b => 7
        | .h => 1
        | .cp => s.curveP.toNat
        | .ca => s.curveA.toNat
        | .cb => s.curveB.toNat) 0) ∧
    ∀ w : Word32, w.toNat % 256 = 0x03 → 10 ≤ w.toNat / 2 ^ 12 % 16 → ∃ e, decode w = .error e

/-- For every state, FINT Xd, Xs commits with X[d] = (X[s].val, 0) whatever X[s].mod is, and changes nothing else.
(R104) -/
def Obligations.FintDropsTheTag : Prop :=
    ∀ (s : State) (d r : XNum),
    ∃ t, exec (.fint d r) s = .next t ∧ EndsWithX s t d (s.x.get r).val.toNat 0

/-- With v = X[v].val and m = X[m].val, tags ignored: for m >= 2 FRED commits with X[d] = (v mod m, m) and changes
nothing else; for m = 0 or 1 it aborts with code 0x09 and changes nothing. (R105) -/
def Obligations.FredReducesOrAbortsOnABadModulus : Prop :=
    ∀ (s : State) (d a b : XNum),
    (2 ≤ (s.x.get b).val.toNat →
      ∃ t, exec (.fred d a b) s = .next t ∧
        EndsWithX s t d ((s.x.get a).val.toNat % (s.x.get b).val.toNat) (s.x.get b).val.toNat) ∧
    ((s.x.get b).val.toNat < 2 → exec (.fred d a b) s = .next (s.aborted 0x09#8))

/-- When both operands are field elements of one modulus m, FADD commits with X[d] = ((va + vb) mod m, m) and
changes nothing else; otherwise it aborts with the first error of the operand check (E_MALFORMED or E_NOT_FIELD of
a, then of b, then E_CROSS_FIELD) and changes nothing. (R121) -/
def Obligations.FaddAddsModuloTheCommonModulus : Prop :=
    ∀ (s : State) (d a b : XNum),
    (pairError (s.x.get a) (s.x.get b) = none →
      ∃ t, exec (.fadd d a b) s = .next t ∧
        EndsWithX s t d
          (((s.x.get a).val.toNat + (s.x.get b).val.toNat) % (s.x.get a).mod.toNat)
          (s.x.get a).mod.toNat) ∧
    (∀ c, pairError (s.x.get a) (s.x.get b) = some c → exec (.fadd d a b) s = .next (s.aborted c))

/-- When both operands are field elements of one modulus m, FSUB commits with X[d] = ((va - vb) mod m, m), the floor
remainder, and changes nothing else; otherwise it aborts with the first error of the operand check. (R122) -/
def Obligations.FsubSubtractsWithTheFloorRemainder : Prop :=
    ∀ (s : State) (d a b : XNum),
    (pairError (s.x.get a) (s.x.get b) = none →
      ∃ t, exec (.fsub d a b) s = .next t ∧
        EndsWithX s t d
          (((((s.x.get a).val.toNat : Int) - (s.x.get b).val.toNat) % ((s.x.get a).mod.toNat : Int)).toNat)
          (s.x.get a).mod.toNat) ∧
    (∀ c, pairError (s.x.get a) (s.x.get b) = some c → exec (.fsub d a b) s = .next (s.aborted c))

/-- When both operands are field elements of one modulus m, FMUL commits with X[d] = (va * vb mod m, m), from the
exact product, and changes nothing else; otherwise it aborts with the first error of the operand check. (R123) -/
def Obligations.FmulMultipliesModuloTheCommonModulus : Prop :=
    ∀ (s : State) (d a b : XNum),
    (pairError (s.x.get a) (s.x.get b) = none →
      ∃ t, exec (.fmul d a b) s = .next t ∧
        EndsWithX s t d
          ((s.x.get a).val.toNat * (s.x.get b).val.toNat % (s.x.get a).mod.toNat)
          (s.x.get a).mod.toNat) ∧
    (∀ c, pairError (s.x.get a) (s.x.get b) = some c → exec (.fmul d a b) s = .next (s.aborted c))

/-- When both operands are field elements of one modulus m and vb is not 0, FDIV commits with X[d] = (va * (vb^(m-2)
mod m) mod m, m) and changes nothing else; with vb = 0 it aborts with code 0x03; an operand error comes before that.
(R124) -/
def Obligations.FdivMultipliesByTheFermatInverse : Prop :=
    ∀ (s : State) (d a b : XNum),
    (pairError (s.x.get a) (s.x.get b) = none → (s.x.get b).val.toNat ≠ 0 →
      ∃ t, exec (.fdiv d a b) s = .next t ∧
        EndsWithX s t d
          ((s.x.get a).val.toNat * ((s.x.get b).val.toNat ^ ((s.x.get a).mod.toNat - 2) % (s.x.get a).mod.toNat)
            % (s.x.get a).mod.toNat)
          (s.x.get a).mod.toNat) ∧
    (pairError (s.x.get a) (s.x.get b) = none → (s.x.get b).val.toNat = 0 →
      exec (.fdiv d a b) s = .next (s.aborted 0x03#8)) ∧
    (∀ c, pairError (s.x.get a) (s.x.get b) = some c → exec (.fdiv d a b) s = .next (s.aborted c))

/-- When X[a] is a field element (va, m) with va not 0, FINV commits with X[d] = (va^(m-2) mod m, m) and changes
nothing else; with va = 0 it aborts with code 0x03; an operand error comes before that. (R125) -/
def Obligations.FinvRaisesToTheModulusMinusTwo : Prop :=
    ∀ (s : State) (d a : XNum),
    (operandError (s.x.get a) = none → (s.x.get a).val.toNat ≠ 0 →
      ∃ t, exec (.finv d a) s = .next t ∧
        EndsWithX s t d ((s.x.get a).val.toNat ^ ((s.x.get a).mod.toNat - 2) % (s.x.get a).mod.toNat)
          (s.x.get a).mod.toNat) ∧
    (operandError (s.x.get a) = none → (s.x.get a).val.toNat = 0 →
      exec (.finv d a) s = .next (s.aborted 0x03#8)) ∧
    (∀ c, operandError (s.x.get a) = some c → exec (.finv d a) s = .next (s.aborted c))

/-- When X[a] is a field element (va, m), FPOW commits with X[d] = (va^ee mod m, m), where ee is the floor remainder
of X[e].val, negated when NEG = 1, by m - 1, and changes nothing else; the only errors are those of the base
operand. In particular a reduced exponent of 0 gives 1 mod m for every base, 0 too. (R127) -/
def Obligations.FpowReducesTheExponentThenRaises : Prop :=
    ∀ (s : State) (neg : Bool) (d a e : XNum),
    (operandError (s.x.get a) = none →
      (∃ t, exec (.fpow neg d a e) s = .next t ∧
        EndsWithX s t d
          ((s.x.get a).val.toNat ^
              ((if neg then -((s.x.get e).val.toNat : Int) else ((s.x.get e).val.toNat : Int)) %
                (((s.x.get a).mod.toNat : Int) - 1)).toNat
            % (s.x.get a).mod.toNat)
          (s.x.get a).mod.toNat) ∧
      ((s.x.get e).val.toNat % ((s.x.get a).mod.toNat - 1) = 0 →
        ∃ t, exec (.fpow neg d a e) s = .next t ∧ EndsWithX s t d 1 (s.x.get a).mod.toNat)) ∧
    (∀ c, operandError (s.x.get a) = some c → exec (.fpow neg d a e) s = .next (s.aborted c))

/-- For every state, FEQ commits with RESULT = 1 exactly when X[a] and X[b] have equal val and equal mod; no
register changes and no error is raised. (R128) -/
def Obligations.FeqComparesBothFields : Prop :=
    ∀ (s : State) (a b : XNum),
    exec (.feq a b) s =
      .next (s.endedWith (decide ((s.x.get a).val = (s.x.get b).val ∧ (s.x.get a).mod = (s.x.get b).mod)))

/-- For a prime m and a field element va not 0, FINV commits with X[d] = (w, m) where w < m and va * w mod m = 1,
and every other v below m with that property is w. (R126, R125) -/
def Obligations.FinvOfAPrimeModulusIsTheUniqueInverse : Prop :=
    ∀ (s : State) (d a : XNum),
    operandError (s.x.get a) = none → Nat.Prime (s.x.get a).mod.toNat → (s.x.get a).val.toNat ≠ 0 →
    ∃ (t : State) (w : Nat), exec (.finv d a) s = .next t ∧
      EndsWithX s t d w (s.x.get a).mod.toNat ∧ w < (s.x.get a).mod.toNat ∧
      (s.x.get a).val.toNat * w % (s.x.get a).mod.toNat = 1 ∧
      ∀ v, v < (s.x.get a).mod.toNat → (s.x.get a).val.toNat * v % (s.x.get a).mod.toNat = 1 → v = w

/-- For every state, PINF Pd commits with P[d] = INF and changes nothing else (the stored x and y bits beside INF
are free values, log entry 1); INF is on every curve. (R148) -/
def Obligations.PinfWritesTheIdentity : Prop :=
    (∀ (s : State) (d : PNum), ∃ t, exec (.pinf d) s = .next t ∧ EndsWithPoint s t d .inf) ∧
    ∀ a b p : Nat, OnEquation .inf a b p ∧ onCurve .inf a b p = true

/-- With CURVE_P < 2 PGEN aborts with 0x0A; with the ROM generator off the current curve it aborts with 0x07;
otherwise it commits with P[d] = (ROM.Gx, ROM.Gy) and changes nothing else. With the reset curve it always commits.
(R149) -/
def Obligations.PgenLoadsTheGeneratorIfOnTheCurve : Prop :=
    ∀ (s : State) (d : PNum),
    (s.curveP.toNat < 2 → exec (.pgen d) s = .next (s.aborted 0x0A#8)) ∧
    (2 ≤ s.curveP.toNat → ¬ s.OnCurrent romG → exec (.pgen d) s = .next (s.aborted 0x07#8)) ∧
    (2 ≤ s.curveP.toNat → s.OnCurrent romG → ∃ t, exec (.pgen d) s = .next t ∧ EndsWithPoint s t d romG) ∧
    (s.curveP = State.reset.curveP → s.curveA = State.reset.curveA → s.curveB = State.reset.curveB →
      ∃ t, exec (.pgen d) s = .next t ∧ EndsWithPoint s t d romG)

/-- PSET aborts, in order, with 0x0A for CURVE_P < 2, with the operand error of x, then of y, with 0x02 when a
modulus is not CURVE_P, with 0x07 when (x, y) is off the current curve; otherwise it commits with P[d] = (x, y) and
changes nothing else. (R150) -/
def Obligations.PsetBuildsACheckedPoint : Prop :=
    ∀ (s : State) (d : PNum) (x y : XNum),
    (s.curveP.toNat < 2 → exec (.pset d x y) s = .next (s.aborted 0x0A#8)) ∧
    (2 ≤ s.curveP.toNat →
      (∀ c, operandError (s.x.get x) = some c → exec (.pset d x y) s = .next (s.aborted c)) ∧
      (operandError (s.x.get x) = none →
        (∀ c, operandError (s.x.get y) = some c → exec (.pset d x y) s = .next (s.aborted c)) ∧
        (operandError (s.x.get y) = none →
          (((s.x.get x).mod ≠ s.curveP ∨ (s.x.get y).mod ≠ s.curveP) →
            exec (.pset d x y) s = .next (s.aborted 0x02#8)) ∧
          ((s.x.get x).mod = s.curveP → (s.x.get y).mod = s.curveP →
            (¬ s.OnCurrent (.aff (s.x.get x).val.toNat (s.x.get y).val.toNat) →
              exec (.pset d x y) s = .next (s.aborted 0x07#8)) ∧
            (s.OnCurrent (.aff (s.x.get x).val.toNat (s.x.get y).val.toNat) →
              ∃ t, exec (.pset d x y) s = .next t ∧
                EndsWithPoint s t d (.aff (s.x.get x).val.toNat (s.x.get y).val.toNat))))))

/-- For every state, PMOV Pd, Ps commits with P[d] = P[s], all stored bits, on or off the curve, and changes nothing
else. For INF the stored bits include the x and y that R23 calls meaningless; that PMOV copies those too is the
model's reading (log entry 17). (R151, R23, notes/assumptions/17.md) -/
def Obligations.PmovCopiesThePointRegister : Prop :=
    ∀ (s : State) (d r : PNum),
    exec (.pmov d r) s = .next ({ s with p := s.p.set d (s.p.get r) } : State).ended

/-- PGX and PGY abort, in order, with 0x0A for CURVE_P < 2, with 0x07 for a point off the current curve, with 0x08
for INF; for AFF(x, y) on the curve PGX commits with X[d] = (x, CURVE_P), PGY with X[d] = (y, CURVE_P), and nothing
else changes. (R152, R153) -/
def Obligations.PgxAndPgyReadTheCoordinates : Prop :=
    ∀ (s : State) (d : XNum) (r : PNum),
    (s.curveP.toNat < 2 →
      exec (.pgx d r) s = .next (s.aborted 0x0A#8) ∧ exec (.pgy d r) s = .next (s.aborted 0x0A#8)) ∧
    (2 ≤ s.curveP.toNat →
      (¬ s.OnCurrent (s.point r) →
        exec (.pgx d r) s = .next (s.aborted 0x07#8) ∧ exec (.pgy d r) s = .next (s.aborted 0x07#8)) ∧
      (s.point r = .inf →
        exec (.pgx d r) s = .next (s.aborted 0x08#8) ∧ exec (.pgy d r) s = .next (s.aborted 0x08#8)) ∧
      (∀ x y, s.point r = .aff x y → s.OnCurrent (.aff x y) →
        (∃ t, exec (.pgx d r) s = .next t ∧ EndsWithX s t d x s.curveP.toNat) ∧
        (∃ t, exec (.pgy d r) s = .next t ∧ EndsWithX s t d y s.curveP.toNat)))

/-- With CURVE_P < 2 PCHK aborts with 0x0A; otherwise it commits with RESULT = 1 when P[s] is INF or a reduced
solution of the current curve's equation and RESULT = 0 when it is not, and nothing else changes. (R154) -/
def Obligations.PchkReportsWhetherThePointIsOnTheCurve : Prop :=
    ∀ (s : State) (r : PNum),
    (s.curveP.toNat < 2 → exec (.pchk r) s = .next (s.aborted 0x0A#8)) ∧
    (2 ≤ s.curveP.toNat →
      (s.OnCurrent (s.point r) → exec (.pchk r) s = .next (s.endedWith true)) ∧
      (¬ s.OnCurrent (s.point r) → exec (.pchk r) s = .next (s.endedWith false)))

/-- For every state and every curve setting, PEQ commits with RESULT = 1 exactly when both registers have inf = 1,
or both have inf = 0 and equal stored x and y; nothing else changes and no error is raised. (R155) -/
def Obligations.PeqComparesTagAndCoordinates : Prop :=
    ∀ (s : State) (a b : PNum),
    exec (.peq a b) s =
      .next (s.endedWith (decide (((s.p.get a).inf = true ∧ (s.p.get b).inf = true) ∨
        ((s.p.get a).inf = false ∧ (s.p.get b).inf = false ∧
          (s.p.get a).x = (s.p.get b).x ∧ (s.p.get a).y = (s.p.get b).y))))

/-- PNEG aborts with 0x0A for CURVE_P < 2 and with 0x07 for a point off the current curve; otherwise it commits with
P[d] = the negated point, INF for INF and (x, (p - y) mod p) for (x, y), which is on the current curve, and nothing
else changes. (R156, R144) -/
def Obligations.PnegNegatesTheYCoordinate : Prop :=
    ∀ (s : State) (d r : PNum),
    (s.curveP.toNat < 2 → exec (.pneg d r) s = .next (s.aborted 0x0A#8)) ∧
    (2 ≤ s.curveP.toNat →
      (¬ s.OnCurrent (s.point r) → exec (.pneg d r) s = .next (s.aborted 0x07#8)) ∧
      (s.OnCurrent (s.point r) →
        s.OnCurrent (negPoint (s.point r) s.curveP.toNat) ∧
        ∃ t, exec (.pneg d r) s = .next t ∧ EndsWithPoint s t d (negPoint (s.point r) s.curveP.toNat)))

/-- INF is neutral on either side (case 1); points with equal x and (y1 + y2) mod p = 0 give INF (case 2); equal
points give the tangent's third point (case 3); all others give the chord's third point (case 4); a denominator of 0
raises E_ZERO_INVERSE in cases 3 and 4. For p >= 2 an affine result of the cases 3 and 4 has reduced coordinates.
(R145) -/
def Obligations.EcAddFollowsItsFourCasesInOrder : Prop :=
    ∀ a p : Nat,
    (∀ q, ecAdd .inf q a p = .ok q) ∧ (∀ q, ecAdd q .inf a p = .ok q) ∧
    (∀ x1 y1 x2 y2 : Nat,
      (x1 = x2 → (y1 + y2) % p = 0 → ecAdd (.aff x1 y1) (.aff x2 y2) a p = .ok .inf) ∧
      (x1 = x2 → y1 = y2 → (y1 + y2) % p ≠ 0 →
        ecAdd (.aff x1 y1) (.aff x2 y2) a p =
          if 2 * y1 % p = 0 then .error .zeroInverse
          else .ok (thirdPoint p x1 y1 x2 ((3 * x1 ^ 2 + a) % p) (2 * y1 % p))) ∧
      (¬ (x1 = x2 ∧ (y1 + y2) % p = 0) → ¬ (x1 = x2 ∧ y1 = y2) →
        ecAdd (.aff x1 y1) (.aff x2 y2) a p =
          if (((x2 : Int) - x1) % (p : Int)).toNat = 0 then .error .zeroInverse
          else .ok (thirdPoint p x1 y1 x2 (((y2 : Int) - y1) % (p : Int)).toNat (((x2 : Int) - x1) % (p : Int)).toNat)) ∧
      (2 ≤ p → ∀ x3 y3, ecAdd (.aff x1 y1) (.aff x2 y2) a p = .ok (.aff x3 y3) → x3 < p ∧ y3 < p))

/-- PADD aborts with 0x0A for CURVE_P < 2 and with 0x07 when an operand is off the current curve. Otherwise it
commits with P[d] = ecAdd(P[a], P[b]) on the current curve, changing nothing else, or aborts with 0x03 when ecAdd
raises E_ZERO_INVERSE, which no prime CURVE_P allows. (R157) -/
def Obligations.PaddWritesTheSum : Prop :=
    ∀ (s : State) (d a b : PNum),
    (s.curveP.toNat < 2 → exec (.padd d a b) s = .next (s.aborted 0x0A#8)) ∧
    (2 ≤ s.curveP.toNat →
      (¬ (s.OnCurrent (s.point a) ∧ s.OnCurrent (s.point b)) →
        exec (.padd d a b) s = .next (s.aborted 0x07#8)) ∧
      (s.OnCurrent (s.point a) → s.OnCurrent (s.point b) →
        (∀ q, ecAdd (s.point a) (s.point b) (s.curveA.toNat % s.curveP.toNat) s.curveP.toNat = .ok q →
          ∃ t, exec (.padd d a b) s = .next t ∧ EndsWithPoint s t d q) ∧
        (∀ e, ecAdd (s.point a) (s.point b) (s.curveA.toNat % s.curveP.toNat) s.curveP.toNat = .error e →
          exec (.padd d a b) s = .next (s.aborted 0x03#8)) ∧
        (Nat.Prime s.curveP.toNat →
          ∃ q, ecAdd (s.point a) (s.point b) (s.curveA.toNat % s.curveP.toNat) s.curveP.toNat = .ok q)))

/-- PDBL is PADD Pd, Ps, Ps in every state. It aborts with 0x0A for CURVE_P < 2 and with 0x07 off the current curve;
for every point on the current curve, of a composite CURVE_P too, it commits with P[d] = ecAdd(P[s], P[s]) and
changes nothing else: INF for INF and for y = 0. (R158) -/
def Obligations.PdblAlwaysCompletesAndEqualsPaddOfAPoint : Prop :=
    ∀ (s : State) (d r : PNum),
    exec (.pdbl d r) s = exec (.padd d r r) s ∧
    (s.curveP.toNat < 2 → exec (.pdbl d r) s = .next (s.aborted 0x0A#8)) ∧
    (2 ≤ s.curveP.toNat →
      (¬ s.OnCurrent (s.point r) → exec (.pdbl d r) s = .next (s.aborted 0x07#8)) ∧
      (s.OnCurrent (s.point r) →
        (∃ q t, ecAdd (s.point r) (s.point r) (s.curveA.toNat % s.curveP.toNat) s.curveP.toNat = .ok q ∧
          exec (.pdbl d r) s = .next t ∧ EndsWithPoint s t d q) ∧
        (s.point r = .inf → ∃ t, exec (.pdbl d r) s = .next t ∧ EndsWithPoint s t d .inf) ∧
        (∀ x, s.point r = .aff x 0 → ∃ t, exec (.pdbl d r) s = .next t ∧ EndsWithPoint s t d .inf)))

/-- PMUL aborts with 0x0A for CURVE_P < 2 and with 0x07 off the current curve. Otherwise, with the base P[s],
negated when NEG = 1, and the scalar X[k].val, unreduced and with its tag ignored, it commits with P[d] = the result
of double-and-add over the scalar's bits from the least significant one and changes nothing else, or aborts with
0x03 when that raises E_ZERO_INVERSE, which no prime CURVE_P allows. A scalar of 0 and a point INF give INF. (R159,
R146) -/
def Obligations.PmulRunsDoubleAndAdd : Prop :=
    ∀ (s : State) (neg : Bool) (d r : PNum) (k : XNum),
    (s.curveP.toNat < 2 → exec (.pmul neg d r k) s = .next (s.aborted 0x0A#8)) ∧
    (2 ≤ s.curveP.toNat →
      (¬ s.OnCurrent (s.point r) → exec (.pmul neg d r k) s = .next (s.aborted 0x07#8)) ∧
      (s.OnCurrent (s.point r) →
        (∀ q, doubleAndAdd (s.x.get k).val.toNat
            (if neg then negPoint (s.point r) s.curveP.toNat else s.point r)
            (s.curveA.toNat % s.curveP.toNat) s.curveP.toNat = .ok q →
          ∃ t, exec (.pmul neg d r k) s = .next t ∧ EndsWithPoint s t d q) ∧
        (∀ e, doubleAndAdd (s.x.get k).val.toNat
            (if neg then negPoint (s.point r) s.curveP.toNat else s.point r)
            (s.curveA.toNat % s.curveP.toNat) s.curveP.toNat = .error e →
          exec (.pmul neg d r k) s = .next (s.aborted 0x03#8) ∧ ¬ Nat.Prime s.curveP.toNat) ∧
        ((s.x.get k).val.toNat = 0 ∨ s.point r = .inf →
          ∃ t, exec (.pmul neg d r k) s = .next t ∧ EndsWithPoint s t d .inf)))

/-- For reduced coordinates and p >= 2, ecAdd of two affine points raises E_ZERO_INVERSE exactly when x1 = x2, y1
and y2 differ and (y1 + y2) mod p is not 0; so a doubling never raises it; and for a prime p and two points on the
curve it is never raised and the sum is on the curve. (R147, 90_conflicts.md C2) -/
def Obligations.ZeroInverseArisesOnlyInOneChordCase : Prop :=
    ∀ a p : Nat, 2 ≤ p →
    (∀ x1 y1 x2 y2 : Nat, x1 < p → y1 < p → x2 < p → y2 < p →
      (ecAdd (.aff x1 y1) (.aff x2 y2) a p = .error .zeroInverse ↔
        x1 = x2 ∧ y1 ≠ y2 ∧ (y1 + y2) % p ≠ 0)) ∧
    (∀ q e, ecAdd q q a p ≠ .error e) ∧
    (∀ (b : Nat) (q1 q2 : Point), Nat.Prime p → OnEquation q1 a b p → OnEquation q2 a b p →
      ∃ q, ecAdd q1 q2 a p = .ok q ∧ OnEquation q a b p)

/-- For a prime CURVE_P, a point P[s] on the current curve and every scalar, of either sign, double-and-add gives a
point q of the current curve, and PMUL commits with P[d] = q and changes nothing else. (R24, R147, R159) -/
def Obligations.PmulCompletesOnAPrimeCurve : Prop :=
    ∀ (s : State) (neg : Bool) (d r : PNum) (k : XNum),
    Nat.Prime s.curveP.toNat → s.OnCurrent (s.point r) →
    ∃ q t, doubleAndAdd (s.x.get k).val.toNat
        (if neg then negPoint (s.point r) s.curveP.toNat else s.point r)
        (s.curveA.toNat % s.curveP.toNat) s.curveP.toNat = .ok q ∧
      s.OnCurrent q ∧ exec (.pmul neg d r k) s = .next t ∧ EndsWithPoint s t d q

/-- For a prime p and points on the curve: adding INF and adding the negated point give the point and INF, and
addition is commutative. If 4*a^3 + 27*b^2 is not 0 mod p, double-and-add of k1 + k2 is the sum of the two
multiples. (R160) -/
def Obligations.GroupLawsHoldOnAPrimeCurve : Prop :=
    ∀ (a b p : Nat) (q r : Point), Nat.Prime p → OnEquation q a b p → OnEquation r a b p →
    ecAdd q .inf a p = .ok q ∧
    ecAdd q (negPoint q p) a p = .ok .inf ∧
    ecAdd q r a p = ecAdd r q a p ∧
    ((4 * a ^ 3 + 27 * b ^ 2) % p ≠ 0 → ∀ k1 k2 : Nat,
      ∃ q1 q2 q3, doubleAndAdd k1 q a p = .ok q1 ∧ doubleAndAdd k2 q a p = .ok q2 ∧
        doubleAndAdd (k1 + k2) q a p = .ok q3 ∧ ecAdd q1 q2 a p = .ok q3)

/-- When the answers of the entropy source begin with any number of rejected values and then an accepted w, KGEN
uses up exactly those, commits with X[d] = (w, 0) and changes nothing else. When none of the answers that are ready
is accepted, it uses them all up and stays pending with BUSY = 1, and nothing else changes. The list of answers and
the wait that uses them up are the model's form of the oracle (log entry 3). (R172, R29, R171, R245,
notes/assumptions/3.md) -/
def Obligations.KgenStoresTheFirstAcceptedDraw : Prop :=
    ∀ (s : State) (d : XNum),
    (∀ rej w rest, s.entropy = rej ++ w :: rest → (∀ v ∈ rej, ¬ Accepted v) → Accepted w →
      ∃ t, exec (.kgen d) s = .next t ∧ EndsWithX { s with entropy := rest } t d w.toNat 0) ∧
    ((∀ v ∈ s.entropy, ¬ Accepted v) → exec (.kgen d) s = .next { s with entropy := [] })

/-- With the key dk = X[k].val outside [1, n-1] PUBK aborts with 0x04. For every dk in [1, n-1], in every state and
whatever the current curve, double-and-add of the generator on the ROM curve gives a point q of that curve, q is not
INF, and PUBK commits with P[d] = q and changes nothing else. dk = 1 gives G and dk = n - 1 gives (Gx, p - Gy).
(R173) -/
def Obligations.PubkMultipliesTheGenerator : Prop :=
    ∀ (s : State) (d : PNum) (k : XNum),
    ((s.x.get k).val.toNat < 1 ∨ romOrder - 1 < (s.x.get k).val.toNat →
      exec (.pubk d k) s = .next (s.aborted 0x04#8)) ∧
    (1 ≤ (s.x.get k).val.toNat → (s.x.get k).val.toNat ≤ romOrder - 1 →
      ∃ q t, romMul (s.x.get k).val.toNat romG = .ok q ∧ q ≠ .inf ∧ OnRom q ∧
        exec (.pubk d k) s = .next t ∧ EndsWithPoint s t d q ∧
        ((s.x.get k).val.toNat = 1 → q = romG) ∧
        ((s.x.get k).val.toNat = romOrder - 1 →
          q = .aff Config.romGx.toNat (Config.romP.toNat - Config.romGy.toNat)))

/-- Let the answers of the entropy source begin with rejected values and then an accepted nonce w. Double-and-add
gives R = w*G = (x, y), never INF. If r = x mod n is 0, or s = w^(n-2)*(z + r*dk) mod n is 0, SIGN does what it does
with the later answers alone. Otherwise it commits with X[r] = (r, 0) and X[s] = (s, 0), s replaced by n - s when s
> n div 2, the later answers are left, and nothing else changes. When no ready answer is accepted it uses them all
up and stays pending. Nothing about the key, the digest or the tags is checked. The list of answers and the wait
that uses them up are the model's form of the oracle (log entry 3). (R174, R29, R171, R245, notes/assumptions/3.md)
-/
def Obligations.SignFollowsItsLoop : Prop :=
    ∀ (s : State) (r t d z : XNum),
    (∀ rej w rest, s.entropy = rej ++ w :: rest → (∀ v ∈ rej, ¬ Accepted v) → Accepted w →
      ∃ x y, romMul w.toNat romG = .ok (.aff x y) ∧
        (x % romOrder = 0 ∨ rawS w.toNat (x % romOrder) (s.x.get d).val.toNat (s.x.get z).val.toNat = 0 →
          exec (.sign r t d z) s = exec (.sign r t d z) { s with entropy := rest }) ∧
        (∀ raw, raw = rawS w.toNat (x % romOrder) (s.x.get d).val.toNat (s.x.get z).val.toNat →
          x % romOrder ≠ 0 → raw ≠ 0 →
          exec (.sign r t d z) s = .next ({ s with
            entropy := rest
            x := (s.x.set r ⟨BitVec.ofNat 256 (x % romOrder), 0#256⟩).set t
              ⟨BitVec.ofNat 256 (if raw > romOrder / 2 then romOrder - raw else raw), 0#256⟩ } : State).ended)) ∧
    ((∀ v ∈ s.entropy, ¬ Accepted v) → exec (.sign r t d z) s = .next { s with entropy := [] })

/-- Whenever SIGN with two different destinations ends its command without an error, X[r] holds an integer in [1,
n-1] and X[s] an integer in [1, n div 2]. (R174, R175) -/
def Obligations.SignResultsLieInRange : Prop :=
    ∀ (s t : State) (r u d z : XNum), r ≠ u → exec (.sign r u d z) s = .next t →
    t.pending = none → s.pending ≠ none → t.status.err = false →
    (t.x.get r).mod.toNat = 0 ∧ 1 ≤ (t.x.get r).val.toNat ∧ (t.x.get r).val.toNat ≤ romOrder - 1 ∧
    (t.x.get u).mod.toNat = 0 ∧ 1 ≤ (t.x.get u).val.toNat ∧ (t.x.get u).val.toNat ≤ romOrder / 2

/-- For every state VRFY commits, changing RESULT alone. For Q off the ROM curve, or r or s outside [1, n-1], RESULT
= 0. Otherwise, with w = s^(n-2) mod n, u1 = z*w mod n and u2 = r*w mod n, double-and-add gives u1*G and u2*Q, ecAdd
gives their sum Pt, and RESULT is 0 for INF and else whether Pt.x mod n = r. (R176) -/
def Obligations.VrfyIsTotalAndFollowsItsSteps : Prop :=
    ∀ (s : State) (q : PNum) (z r t : XNum),
    (¬ OnRom (s.point q) ∨ (s.x.get r).val.toNat < 1 ∨ romOrder - 1 < (s.x.get r).val.toNat ∨
        (s.x.get t).val.toNat < 1 ∨ romOrder - 1 < (s.x.get t).val.toNat →
      exec (.vrfy q z r t) s = .next (s.endedWith false)) ∧
    (OnRom (s.point q) → 1 ≤ (s.x.get r).val.toNat → (s.x.get r).val.toNat ≤ romOrder - 1 →
        1 ≤ (s.x.get t).val.toNat → (s.x.get t).val.toNat ≤ romOrder - 1 →
      ∀ w, w = (s.x.get t).val.toNat ^ (romOrder - 2) % romOrder →
      ∃ q1 q2 pt,
        romMul ((s.x.get z).val.toNat * w % romOrder) romG = .ok q1 ∧
        romMul ((s.x.get r).val.toNat * w % romOrder) (s.point q) = .ok q2 ∧
        ecAdd q1 q2 Config.romA.toNat Config.romP.toNat = .ok pt ∧
        exec (.vrfy q z r t) s = .next (s.endedWith (match pt with
          | .inf => false
          | .aff x _ => decide (x % romOrder = (s.x.get r).val.toNat))))

/-- For PUBK, SIGN and VRFY, running the command with other values in the curve registers gives the same next state
but for those values, which stay as they are. (R28) -/
def Obligations.EcdsaIgnoresTheCurveRegisters : Prop :=
    ∀ (s t : State) (i : Instr) (cp ca cb : Word),
    ((∃ d k, i = .pubk d k) ∨ (∃ r u d z, i = .sign r u d z) ∨ (∃ q z r u, i = .vrfy q z r u)) →
    exec i s = .next t →
    exec i { s with curveP := cp, curveA := ca, curveB := cb } =
      .next { t with curveP := cp, curveA := ca, curveB := cb }

/-- For every key dk in [1, n-1] and digest z: if SIGN ends without an error and writes (r, s), then VRFY of z, r, s
and of z, r, n - s with the point dk*G commits with RESULT = 1, in every state that holds these values. (R177, R173,
R174, R176) -/
def Obligations.SignedSignaturesVerify : Prop :=
    ∀ (s t v : State) (r u d z zr rr sr : XNum) (qr : PNum) (q : Point),
    r ≠ u → 1 ≤ (s.x.get d).val.toNat → (s.x.get d).val.toNat ≤ romOrder - 1 →
    exec (.sign r u d z) s = .next t → s.pending ≠ none → t.pending = none → t.status.err = false →
    romMul (s.x.get d).val.toNat romG = .ok q →
    v.point qr = q → (v.x.get zr).val = (s.x.get z).val → (v.x.get rr).val = (t.x.get r).val →
    ((v.x.get sr).val = (t.x.get u).val ∨ (v.x.get sr).val.toNat = romOrder - (t.x.get u).val.toNat) →
    exec (.vrfy qr zr rr sr) v = .next (v.endedWith true)

/-- For every point, digest and r, and every s in [1, n-1]: VRFY with s and VRFY with n - s commit with the same
RESULT. (R178, R176) -/
def Obligations.VerificationIsMalleableInS : Prop :=
    ∀ (s : State) (q : PNum) (z r t t' : XNum),
    1 ≤ (s.x.get t).val.toNat → (s.x.get t).val.toNat ≤ romOrder - 1 →
    (s.x.get t').val.toNat = romOrder - (s.x.get t).val.toNat →
    ∃ b, exec (.vrfy q z r t) s = .next (s.endedWith b) ∧ exec (.vrfy q z r t') s = .next (s.endedWith b)

/-- For every command and state exec answers a next state, which is one of three: a commit, with BUSY = 0, DONE = 1,
the engine idle and ERR, ERRCODE, OVR, LASTCMD, CTRL and the curve as they were, and, but for KGEN and SIGN, the
answers of the entropy source too; an abort with a code of R201, where BUSY, DONE, ERR, ERRCODE changed, the engine
is idle, and nothing else changed; or, for KGEN and SIGN alone, a wait in which the ready answers of the entropy
source are used up and nothing else changes. The list of answers and the wait are the model's form of the oracle
(log entry 3). (R200, R205, R29, R245, notes/assumptions/3.md) -/
def Obligations.EveryCommandCommitsAbortsOrWaits : Prop :=
    ∀ (i : Instr) (s : State), ∃ t, exec i s = .next t ∧
    ((CommitFrame s t ∧ (Draws i ∨ t.entropy = s.entropy)) ∨
      (∃ c ∈ errorCodes, t = s.aborted c) ∨
      (Draws i ∧ t = { s with entropy := [] }))

/-- If exec of a command answers an abort of its state with a code c, then c is one the table of R201 lists for that
command; for PADD and PMUL a code of 0x03 implies that CURVE_P is not prime. An illegal word aborts with 0x01. No
other code is ever produced. The engine's turn at the illegal word is an entry of the schedule, or the empty
schedule, which is the model's own (log entry 2). (R201, R147, R87, notes/assumptions/2.md) -/
def Obligations.CommandsRaiseOnlyTheirListedErrors : Prop :=
    (∀ (i : Instr) (s t : State), exec i s = .next t → s.status.err = false → t.status.err = true →
      t.status.errCode ∈ raisable i ∧
      (((∃ d a b, i = .padd d a b) ∨ (∃ n d r k, i = .pmul n d r k)) → t.status.errCode = 0x03#8 →
        ¬ Nat.Prime s.curveP.toNat)) ∧
    (∀ (s : State) (rest : List Input) (w : Word32),
      ((s.inputs = [] ∧ rest = []) ∨ s.inputs = .engine :: rest) → s.pending = some w → illegalWord w.toNat = true →
      step s = .next (({ s with inputs := rest } : State).aborted 0x01#8))

/-- If exec of a command answers a next state whose RESULT differs from before, the command is FEQ, PEQ, VRFY or,
with CURVE_P >= 2, PCHK, and raised no error. Run with another RESULT, these commands answer the very same next
state, RESULT included, and every other command, and PCHK with CURVE_P < 2, answers the same next state but for
RESULT, which keeps that other value. RESULT is 0 at reset. (R37) -/
def Obligations.OnlyPredicatesWriteResult : Prop :=
    (∀ (i : Instr) (s t : State), exec i s = .next t → t.status.result ≠ s.status.result →
      t.status.err = s.status.err ∧ WritesResult i s) ∧
    (∀ (i : Instr) (s t : State) (b : Bool), exec i s = .next t →
      ∃ t', exec i { s with status := { s.status with result := b } } = .next t' ∧
        { t' with status := { t'.status with result := t.status.result } } = t ∧
        (WritesResult i s → t'.status.result = t.status.result) ∧
        (¬ WritesResult i s → t'.status.result = b)) ∧
    State.reset.status.result = false

/-- For every state in which BUSY = 1 exactly while a command is pending, the pending word is LASTCMD, BUSY excludes
DONE and ERR, and ERRCODE is 0 when ERR = 0 and a code of R201 when ERR = 1: if a step, of the host, of the engine,
of the entropy source or a reset, answers a next state, that state has the property too. (R33, R34, R36, R200, R205,
R230) -/
def Obligations.EveryStepKeepsTheHandshake : Prop :=
    ∀ s t : State, s.Handshake → step s = .next t → t.Handshake

/-- State.reset meets the three invariants of this list: the handshake, well-formed X registers, P registers on the
current curve. (R38, R22, R33) -/
def Obligations.ResetHasTheHandshakeAndWellFormedRegisters : Prop :=
    State.reset.Handshake ∧ State.reset.RegsWellFormed ∧ State.reset.PointsOnCurve

/-- If every X register is well-formed and the next step is not a host write, then every X register is well-formed
after the step: every value a command writes is an integer or is reduced below its modulus of at least 2. (R22,
R130) -/
def Obligations.EveryStepButAHostWriteKeepsRegistersWellFormed : Prop :=
    ∀ s t : State, s.RegsWellFormed → s.hostWritesNext = false → step s = .next t → t.RegsWellFormed

/-- If CURVE_P is prime and every P register holds a point of the current curve, then after every command but PUBK,
committed, aborted or waiting, every P register still does. PUBK writes a point of the ROM curve. (R24) -/
def Obligations.PointCommandsKeepPointsOnThePrimeCurve : Prop :=
    ∀ (i : Instr) (s t : State), Nat.Prime s.curveP.toNat → s.PointsOnCurve → (∀ d k, i ≠ .pubk d k) →
    exec i s = .next t → t.PointsOnCurve

/-- In every state, running command or not, a read of word w of X[i].val, X[i].mod, CURVE_P, CURVE_A or CURVE_B
returns bits [32*w+31 : 32*w] of it, a read of CMD returns LASTCMD, a read of STATUS returns the live status fields
in their bit places, and nothing but the schedule and the data returned to the host changes. A word write in the
same places (BUSY = 0) replaces exactly those 32 bits. (R52, R53) -/
def Obligations.WindowAccessReadsAndReplacesOneWord : Prop :=
    (∀ (s : State) (rest : List Input) (off : Offset), s.inputs = .busRead off :: rest →
      (∀ (i : XNum) (w : WordNum), off = BitVec.ofNat 11 (0x400 + 0x40 * i.val + 4 * w.val) →
        step s = .next { s with
          inputs := rest, readData := some ((s.x.get i).val.extractLsb' (32 * w.val) 32) }) ∧
      (∀ (i : XNum) (w : WordNum), off = BitVec.ofNat 11 (0x400 + 0x40 * i.val + 0x20 + 4 * w.val) →
        step s = .next { s with
          inputs := rest, readData := some ((s.x.get i).mod.extractLsb' (32 * w.val) 32) }) ∧
      (∀ w : WordNum, off = BitVec.ofNat 11 (0x100 + 4 * w.val) →
        step s = .next { s with inputs := rest, readData := some (s.curveP.extractLsb' (32 * w.val) 32) }) ∧
      (∀ w : WordNum, off = BitVec.ofNat 11 (0x120 + 4 * w.val) →
        step s = .next { s with inputs := rest, readData := some (s.curveA.extractLsb' (32 * w.val) 32) }) ∧
      (∀ w : WordNum, off = BitVec.ofNat 11 (0x140 + 4 * w.val) →
        step s = .next { s with inputs := rest, readData := some (s.curveB.extractLsb' (32 * w.val) 32) }) ∧
      (off = 0x00C#11 → step s = .next { s with inputs := rest, readData := some s.lastCmd }) ∧
      (off = 0x008#11 → ∃ v : Word32, step s = .next { s with inputs := rest, readData := some v } ∧
        v.getLsbD 0 = s.status.busy ∧ v.getLsbD 1 = s.status.done ∧ v.getLsbD 2 = s.status.err ∧
        v.getLsbD 3 = s.status.result ∧ v.getLsbD 4 = s.status.ovr ∧
        v.toNat / 2 ^ 8 % 2 ^ 8 = s.status.errCode.toNat ∧ v.toNat / 2 ^ 5 % 2 ^ 3 = 0 ∧ v.toNat / 2 ^ 16 = 0)) ∧
    (∀ (s : State) (rest : List Input) (off : Offset) (v : Word32), s.inputs = .busWrite off v :: rest →
      s.status.busy = false →
      (∀ (i : XNum) (w : WordNum), off = BitVec.ofNat 11 (0x400 + 0x40 * i.val + 4 * w.val) →
        ∃ u : Word, (∀ b < 256, u.getLsbD b =
            if 32 * w.val ≤ b ∧ b < 32 * w.val + 32 then v.getLsbD (b - 32 * w.val) else (s.x.get i).val.getLsbD b) ∧
          step s = .next { s with inputs := rest, x := s.x.set i ⟨u, (s.x.get i).mod⟩ }) ∧
      (∀ (i : XNum) (w : WordNum), off = BitVec.ofNat 11 (0x400 + 0x40 * i.val + 0x20 + 4 * w.val) →
        ∃ u : Word, (∀ b < 256, u.getLsbD b =
            if 32 * w.val ≤ b ∧ b < 32 * w.val + 32 then v.getLsbD (b - 32 * w.val) else (s.x.get i).mod.getLsbD b) ∧
          step s = .next { s with inputs := rest, x := s.x.set i ⟨(s.x.get i).val, u⟩ }) ∧
      (∀ w : WordNum, off = BitVec.ofNat 11 (0x100 + 4 * w.val) →
        ∃ u : Word, (∀ b < 256, u.getLsbD b =
            if 32 * w.val ≤ b ∧ b < 32 * w.val + 32 then v.getLsbD (b - 32 * w.val) else s.curveP.getLsbD b) ∧
          step s = .next { s with inputs := rest, curveP := u }) ∧
      (∀ w : WordNum, off = BitVec.ofNat 11 (0x120 + 4 * w.val) →
        ∃ u : Word, (∀ b < 256, u.getLsbD b =
            if 32 * w.val ≤ b ∧ b < 32 * w.val + 32 then v.getLsbD (b - 32 * w.val) else s.curveA.getLsbD b) ∧
          step s = .next { s with inputs := rest, curveA := u }) ∧
      (∀ w : WordNum, off = BitVec.ofNat 11 (0x140 + 4 * w.val) →
        ∃ u : Word, (∀ b < 256, u.getLsbD b =
            if 32 * w.val ≤ b ∧ b < 32 * w.val + 32 then v.getLsbD (b - 32 * w.val) else s.curveB.getLsbD b) ∧
          step s = .next { s with inputs := rest, curveB := u }))

/-- A CMD write with BUSY = 0 and ERR = 0 sets LASTCMD, DONE = 0, BUSY = 1 and the pending command and nothing else;
with BUSY = 1 or ERR = 1 it sets OVR and nothing else. An aligned write to the curve window or the X window with
BUSY = 1 sets OVR and nothing else; with BUSY = 0 it does not touch the status, ERR = 1 or not. A write to CTRL or
STATUS never sets OVR. (R57, R206) -/
def Obligations.BusyOrErrorDiscardsTheNamedWrites : Prop :=
    ∀ (s : State) (rest : List Input) (off : Offset) (v : Word32), s.inputs = .busWrite off v :: rest →
    off.toNat % 4 = 0 →
    (off = 0x00C#11 →
      (s.status.busy = false → s.status.err = false → step s = .next { s with
        inputs := rest, lastCmd := v, status := { s.status with done := false, busy := true }, pending := some v }) ∧
      (s.status.busy = true ∨ s.status.err = true → step s = .next { s with
        inputs := rest, status := { s.status with ovr := true } })) ∧
    ((0x100 ≤ off.toNat ∧ off.toNat ≤ 0x15F) ∨ 0x400 ≤ off.toNat →
      (s.status.busy = true → step s = .next { s with inputs := rest, status := { s.status with ovr := true } }) ∧
      (s.status.busy = false → ∃ t, step s = .next t ∧ t.status = s.status)) ∧
    (off = 0x004#11 ∨ off = 0x008#11 → ∃ t, step s = .next t ∧ (t.status.ovr = true → s.status.ovr = true))

/-- In every state, busy or not, a write v to STATUS leaves BUSY and RESULT, clears DONE when v[1] = 1, ERR and
ERRCODE when v[2] = 1, OVR when v[4] = 1, leaves each of them when its bit is 0, and changes nothing else. A CMD
write that follows an ERR clear with BUSY = 0 is accepted. (R207) -/
def Obligations.StatusWritesClearByWritingOne : Prop :=
    ∀ (s : State) (rest : List Input) (v : Word32), s.inputs = .busWrite 0x008#11 v :: rest →
    ∃ t, step s = .next t ∧
      t = { s with inputs := rest, status := t.status } ∧
      t.status.busy = s.status.busy ∧ t.status.result = s.status.result ∧
      (v.getLsbD 1 = true → t.status.done = false) ∧ (v.getLsbD 1 = false → t.status.done = s.status.done) ∧
      (v.getLsbD 2 = true → t.status.err = false ∧ t.status.errCode = 0#8) ∧
      (v.getLsbD 2 = false → t.status.err = s.status.err ∧ t.status.errCode = s.status.errCode) ∧
      (v.getLsbD 4 = true → t.status.ovr = false) ∧ (v.getLsbD 4 = false → t.status.ovr = s.status.ovr) ∧
      (v.getLsbD 2 = true → s.status.busy = false → ∀ (c : Word32) (more : List Input),
        rest = .busWrite 0x00C#11 c :: more →
        step t = .next { t with
          inputs := more, lastCmd := c, status := { t.status with done := false, busy := true }, pending := some c })

/-- In every state, busy or not, a write v to CTRL with v[31] = 0 stores v[0] in IE_DONE and v[1] in IE_ERR and
changes nothing else. With v[31] = 1, and likewise for rst_n, every piece of the block's state takes its reset
value, a pending command is dropped with no error, DONE stays 0, and the ready answers of the entropy source are
discarded; that the rest of the schedule, the returned data and the counter are kept is the model's reading (log
entry 5), and so is that the enable bits of a write with v[31] = 1 have no effect (log entry 7). A read of CTRL
returns IE_DONE in bit 0, IE_ERR in bit 1 and 0 elsewhere. (R32, R230, R231, notes/assumptions/5.md,
notes/assumptions/7.md) -/
def Obligations.ControlWritesSetTheEnablesOrReset : Prop :=
    (∀ (s : State) (rest : List Input) (v : Word32), s.inputs = .busWrite 0x004#11 v :: rest →
      (v.getLsbD 31 = false → step s = .next { s with inputs := rest, ctrl := ⟨v.getLsbD 0, v.getLsbD 1⟩ }) ∧
      (v.getLsbD 31 = true → step s = .next { State.reset with
        inputs := rest, readData := s.readData, freeTick := s.freeTick })) ∧
    (∀ (s : State) (rest : List Input), s.inputs = .rstN :: rest →
      step s = .next { State.reset with
        inputs := rest, readData := s.readData, freeTick := s.freeTick }) ∧
    (∀ (s : State) (rest : List Input), s.inputs = .busRead 0x004#11 :: rest →
      step s = .next { s with
        inputs := rest
        readData := some (BitVec.ofNat 32 ((if s.ctrl.ieDone then 1 else 0) + (if s.ctrl.ieErr then 2 else 0))) })

/-- At reset every X register is (0, 0), every P register is INF with x = y = 0, the curve registers hold secp256k1,
CTRL, STATUS and LASTCMD are 0, the engine is idle and irq is 0; ID reads 0x45434331. (R38) -/
def Obligations.ResetLeavesTheListedValues : Prop :=
    (∀ i : XNum, State.reset.x.get i = ⟨0#256, 0#256⟩) ∧
    (∀ j : PNum, State.reset.p.get j = ⟨true, 0#256, 0#256⟩) ∧
    State.reset.curveP.toNat = 2 ^ 256 - 2 ^ 32 - 977 ∧ State.reset.curveA = 0#256 ∧ State.reset.curveB = 7#256 ∧
    State.reset.ctrl = ⟨false, false⟩ ∧ State.reset.status = ⟨false, false, false, false, false, 0#8⟩ ∧
    State.reset.lastCmd = 0#32 ∧ State.reset.pending = none ∧ State.reset.irq = false ∧
    (∀ (s : State) (rest : List Input), s.inputs = .busRead 0x000#11 :: rest →
      step s = .next { s with inputs := rest, readData := some 0x45434331#32 })

/-- In every state, a read of an aligned reserved offset (0x010 to 0x0FF, 0x160 to 0x3FF) returns 0; a write to one,
or to ID, changes nothing but the schedule, OVR included; the reserved bits of a CTRL write have no effect and those
of STATUS and CTRL read 0. (R56) -/
def Obligations.ReservedOffsetsAndIdIgnoreWrites : Prop :=
    ∀ (s : State) (rest : List Input) (off : Offset), off.toNat % 4 = 0 →
    ((0x010 ≤ off.toNat ∧ off.toNat ≤ 0x0FF) ∨ (0x160 ≤ off.toNat ∧ off.toNat ≤ 0x3FF) →
      (s.inputs = .busRead off :: rest → step s = .next { s with inputs := rest, readData := some 0#32 }) ∧
      (∀ v, s.inputs = .busWrite off v :: rest → step s = .next { s with inputs := rest })) ∧
    (∀ v, off = 0x000#11 → s.inputs = .busWrite off v :: rest → step s = .next { s with inputs := rest }) ∧
    s.status.word.toNat / 2 ^ 5 % 2 ^ 3 = 0 ∧ s.status.word.toNat / 2 ^ 16 = 0 ∧ s.ctrl.word.toNat / 2 ^ 2 = 0 ∧
    (∀ v v' : Word32, off = 0x004#11 → v.getLsbD 0 = v'.getLsbD 0 → v.getLsbD 1 = v'.getLsbD 1 →
      v.getLsbD 31 = v'.getLsbD 31 →
      step { s with inputs := .busWrite off v :: rest } = step { s with inputs := .busWrite off v' :: rest }) ∧
    (∀ v v' : Word32, off = 0x008#11 → v.getLsbD 1 = v'.getLsbD 1 → v.getLsbD 2 = v'.getLsbD 2 →
      v.getLsbD 4 = v'.getLsbD 4 →
      step { s with inputs := .busWrite off v :: rest } = step { s with inputs := .busWrite off v' :: rest })

/-- A host transaction of 8 or 16 bits, or at an offset whose low two bits are not 0, is refused as a bus error;
every 32-bit transaction at an aligned offset answers a next state. (R55) -/
def Obligations.NarrowOrMisalignedAccessIsRefused : Prop :=
    ∀ (s : State) (rest : List Input) (off : Offset) (v : Word32) (n : NarrowWidth),
    (s.inputs = .busNarrow n off :: rest → step s = .refused .busError) ∧
    (off.toNat % 4 ≠ 0 → (s.inputs = .busRead off :: rest ∨ s.inputs = .busWrite off v :: rest) →
      step s = .refused .busError) ∧
    (off.toNat % 4 = 0 → (s.inputs = .busRead off :: rest ∨ s.inputs = .busWrite off v :: rest) →
      ∃ t, step s = .next t)

/-- In every state irq is 1 exactly when DONE and IE_DONE are both 1 or ERR and IE_ERR are both 1; it is 0 after
reset; and when a command ends, committed or aborted, irq is 1 if IE_DONE is 1. (R209) -/
def Obligations.InterruptFollowsDoneAndErr : Prop :=
    (∀ s : State, s.irq = true ↔
      (s.status.done = true ∧ s.ctrl.ieDone = true) ∨ (s.status.err = true ∧ s.ctrl.ieErr = true)) ∧
    State.reset.irq = false ∧
    (∀ (i : Instr) (s t : State), s.ctrl.ieDone = true → s.pending ≠ none → exec i s = .next t → t.pending = none →
      t.irq = true)

/-- In every state, whatever command is pending, a reset by rst_n or by a CTRL write with v[31] = 1 leaves the
engine idle, every register, CTRL, the curve, LASTCMD and STATUS at their reset values, so no result is written, no
error is recorded and DONE is 0; and no answer of the entropy source given before the reset is left: KGEN and SIGN
at that state wait and change nothing. The list of answers is the model's form of the oracle (log entry 3); that
every answer ready at the reset is discarded is the model's reading (log entry 5), and so is that the enable bits of
a write with v[31] = 1 have no effect (log entry 7). (R231, R230, R38, notes/assumptions/3.md,
notes/assumptions/5.md, notes/assumptions/7.md) -/
def Obligations.ResetAbandonsThePendingCommandAndItsDraw : Prop :=
    ∀ (s : State) (rest : List Input),
    (s.inputs = .rstN :: rest ∨ ∃ v : Word32, v.getLsbD 31 = true ∧ s.inputs = .busWrite 0x004#11 v :: rest) →
    ∃ t, step s = .next t ∧ t.pending = none ∧ t.x = State.reset.x ∧ t.p = State.reset.p ∧
      t.curveP = State.reset.curveP ∧ t.curveA = State.reset.curveA ∧ t.curveB = State.reset.curveB ∧
      t.ctrl = ⟨false, false⟩ ∧ t.status = ⟨false, false, false, false, false, 0#8⟩ ∧ t.lastCmd = 0#32 ∧
      t.entropy = [] ∧
      (∀ d, exec (.kgen d) t = .next t) ∧ (∀ r u d z, exec (.sign r u d z) t = .next t)
end

