-- ==== Sys2Proof/Laws/Arith.lean ====
section
/-! SUPPORT. The arithmetic functions give the values of R9: the power, the bit length, the floor remainder. -/

namespace Sys2Proof.Machine

theorem powmodBits_eq (a m : Nat) : ∀ (bits e : Nat), e < 2 ^ bits → powmodBits a m bits e = a ^ e % m
  | 0, e, h => by
    have : e = 0 := by simpa using h
    simp [powmodBits, this]
  | bits + 1, e, h => by
    have hlt : e / 2 < 2 ^ bits := by rw [pow_succ] at h; omega
    have ih := powmodBits_eq a m bits (e / 2) hlt
    have hsq : a ^ (e / 2) % m * (a ^ (e / 2) % m) % m = a ^ (2 * (e / 2)) % m := by
      rw [← Nat.mul_mod, two_mul, pow_add]
    simp only [powmodBits, ih, hsq]
    split
    · rename_i ho
      conv_rhs => rw [show e = 2 * (e / 2) + 1 by omega, pow_succ]
      rw [Nat.mod_mul_mod]
    · rename_i ho
      rw [show 2 * (e / 2) = e by omega]

theorem lt_two_pow_bitlen (k : Nat) : k < 2 ^ bitlen k := by
  unfold bitlen
  split
  · simp_all
  · exact Nat.lt_log2_self

/-- `powmod(a, e, m) = (a ^ e) mod m` (R9). -/
theorem powmod_eq (a e m : Nat) : powmod a e m = a ^ e % m := powmodBits_eq a m _ e (lt_two_pow_bitlen e)

/-- The Fermat inverse as a power (R13). -/
theorem fermatInv_eq (a m : Nat) : fermatInv a m = a ^ (m - 2) % m := powmod_eq a (m - 2) m

theorem bitlen_le_of_lt {k b : Nat} (h : k < 2 ^ b) : bitlen k ≤ b := by
  unfold bitlen
  split
  · omega
  · rename_i h0
    exact (Nat.log2_lt h0).2 h

theorem floorMod_lt (a : Int) {m : Nat} (h : 0 < m) : floorMod a m < m := by
  have h1 := Int.emod_lt_of_pos a (b := (m : Int)) (by omega)
  have h2 := Int.emod_nonneg a (b := (m : Int)) (by omega)
  unfold floorMod
  omega

/-- On a natural number the floor remainder is the plain one. -/
@[simp] theorem floorMod_natCast (a m : Nat) : floorMod (a : Int) m = a % m := by
  unfold floorMod
  rw [← Int.natCast_emod, Int.toNat_natCast]

/-- The floor remainder as a congruence. -/
theorem floorMod_cast (a : Int) {m : Nat} (h : 0 < m) : (floorMod a m : Int) = a % (m : Int) := by
  unfold floorMod
  exact Int.toNat_of_nonneg (Int.emod_nonneg a (by omega))

theorem floorMod_eq_zero_iff (a : Int) {m : Nat} (h : 0 < m) : floorMod a m = 0 ↔ (m : Int) ∣ a := by
  rw [Int.dvd_iff_emod_eq_zero, ← floorMod_cast a h]
  omega

end Sys2Proof.Machine
end

