-- ==== Sys2Proof/Laws/Group.lean ====
section
/-! SUPPORT. The group law functions over a prime modulus compute in the field of integers mod `p`: the sum of two points
of the curve exists and is on the curve (R147), and on a curve with nonsingular points the functions compute in Mathlib's
group of points of `y^2 = x^3 + a*x + b` (R160). -/

namespace Sys2Proof.Machine

open WeierstrassCurve

/-! ## Casts into the field -/

theorem floorMod_cast_zmod (a : ℤ) {p : ℕ} (hp : 0 < p) : ((floorMod a p : ℕ) : ZMod p) = (a : ZMod p) := by
  have h : ((floorMod a p : ℕ) : ℤ) = a % (p : ℤ) := floorMod_cast a hp
  rw [← Int.cast_natCast, h, ZMod.intCast_mod]

theorem inv_mod_two : ∀ u : ZMod 2, u ≠ 0 → u ^ (2 - 2) = u⁻¹ := by
  intro u hu
  have h : ∀ v : ZMod 2, v = 0 ∨ v = 1 := by decide
  rw [(h u).resolve_left hu]
  simp

theorem fermatInv_cast {p d : ℕ} [Fact p.Prime] (hd : (d : ZMod p) ≠ 0) :
    ((fermatInv d p : ℕ) : ZMod p) = (d : ZMod p)⁻¹ := by
  have hp := (Fact.out : p.Prime)
  rw [fermatInv_eq, ZMod.natCast_mod, Nat.cast_pow]
  rcases Nat.lt_or_ge 2 p with h | h
  · apply eq_inv_of_mul_eq_one_left
    rw [← pow_succ, show p - 2 + 1 = p - 1 by omega]
    exact ZMod.pow_card_sub_one_eq_one hd
  · obtain rfl : p = 2 := le_antisymm h hp.two_le
    exact inv_mod_two _ hd

theorem cast_inj_of_lt {p x y : ℕ} (hx : x < p) (hy : y < p) : (x : ZMod p) = y ↔ x = y := by
  rw [ZMod.natCast_eq_natCast_iff]
  exact ⟨fun h => Nat.ModEq.eq_of_lt_of_lt h hx hy, fun h => by rw [h]⟩

/-! ## The curve -/

/-- The curve `y^2 = x^3 + a*x + b` over the integers mod `p`. -/
def shortCurve (a b p : ℕ) : Affine (ZMod p) := ⟨0, 0, 0, a, b⟩

theorem onEquation_iff {a b p x y : ℕ} :
    OnEquation (.aff x y) a b p ↔ x < p ∧ y < p ∧ (shortCurve a b p).Equation (x : ZMod p) (y : ZMod p) := by
  have h : y ^ 2 % p = (x ^ 3 + a * x + b) % p ↔ (y : ZMod p) ^ 2 = x ^ 3 + a * x + b := by
    have := ZMod.natCast_eq_natCast_iff (y ^ 2) (x ^ 3 + a * x + b) p
    push_cast at this
    exact this.symm
  rw [Affine.equation_iff]
  simp [OnEquation, shortCurve, h]

theorem onCurve_iff {p : ℕ} (hp : 0 < p) (q : Point) (a b : ℕ) : onCurve q a b p = true ↔ OnEquation q a b p := by
  cases q with
  | inf => simp [onCurve, OnEquation]
  | aff x y =>
    rw [onEquation_iff, Affine.equation_iff]
    simp only [onCurve, Bool.and_eq_true, decide_eq_true_eq, and_assoc]
    refine and_congr_right fun _ => and_congr_right fun _ => ?_
    rw [floorMod_eq_zero_iff _ hp, ← ZMod.intCast_zmod_eq_zero_iff_dvd _ p |>.trans Iff.rfl]
    push_cast
    rw [sub_eq_zero]
    simp only [shortCurve, zero_mul, add_zero]
    constructor <;> intro h <;> linear_combination h

/-- Reducing the coefficients does not change the curve (R140). -/
theorem onEquation_mod (q : Point) (a b p : ℕ) : OnEquation q (a % p) (b % p) p ↔ OnEquation q a b p := by
  cases q with
  | inf => simp [OnEquation]
  | aff x y =>
    have : (x ^ 3 + a % p * x + b % p) % p = (x ^ 3 + a * x + b) % p := by
      simp [Nat.add_mod, Nat.mul_mod]
    simp [OnEquation, this]

variable {a b p : ℕ} [hF : Fact p.Prime]

/-- The third point of a chord or tangent whose slope is `num / den` in the field (R145). -/
theorem chord_cast {x1 y1 x2 num den : ℕ} (hd : den < p) (h0 : den ≠ 0) :
    ∃ x3 y3 : ℕ, chord x1 y1 x2 num den p = .ok (.aff x3 y3) ∧ x3 < p ∧ y3 < p ∧
      (x3 : ZMod p) = ((num : ZMod p) / den) ^ 2 - x1 - x2 ∧
      (y3 : ZMod p) = ((num : ZMod p) / den) * (x1 - x3) - y1 := by
  have hp : 0 < p := hF.out.pos
  have hden : (den : ZMod p) ≠ 0 := by
    intro h
    rw [ZMod.natCast_eq_zero_iff] at h
    exact h0 (Nat.eq_zero_of_dvd_of_lt h hd)
  refine ⟨_, _, by simp only [chord, h0, ↓reduceIte]; rfl, floorMod_lt _ hp, floorMod_lt _ hp, ?_, ?_⟩
  · rw [floorMod_cast_zmod _ hp]
    push_cast
    rw [fermatInv_cast hden, ← div_eq_mul_inv]
    ring
  · rw [floorMod_cast_zmod _ hp]
    push_cast
    rw [fermatInv_cast hden, ← div_eq_mul_inv]

theorem negY_short (x y : ZMod p) : (shortCurve a b p).negY x y = -y := by
  simp [Affine.negY, shortCurve]

theorem case2_iff {y1 y2 : ℕ} (x : ZMod p) :
    (y1 + y2) % p = 0 ↔ (y1 : ZMod p) = (shortCurve a b p).negY x y2 := by
  rw [negY_short, eq_neg_iff_add_eq_zero, ← Nat.cast_add, ZMod.natCast_eq_zero_iff, Nat.dvd_iff_mod_eq_zero]

/-- Over a prime modulus, two points of the curve that are not opposite have a sum, by the slope of the curve (R145,
R147). -/
theorem ecAdd_cast {x1 y1 x2 y2 : ℕ} (h1 : OnEquation (.aff x1 y1) a b p) (h2 : OnEquation (.aff x2 y2) a b p)
    (hc : ¬(x1 = x2 ∧ (y1 + y2) % p = 0)) :
    ∃ x3 y3 : ℕ, ecAdd (.aff x1 y1) (.aff x2 y2) a p = .ok (.aff x3 y3) ∧ x3 < p ∧ y3 < p ∧
      (x3 : ZMod p) = (shortCurve a b p).addX x1 x2 ((shortCurve a b p).slope x1 x2 y1 y2) ∧
      (y3 : ZMod p) = (shortCurve a b p).addY x1 x2 y1 ((shortCurve a b p).slope x1 x2 y1 y2) := by
  have hp : 0 < p := hF.out.pos
  obtain ⟨hx1, hy1, e1⟩ := onEquation_iff.1 h1
  obtain ⟨hx2, hy2, e2⟩ := onEquation_iff.1 h2
  have key : ∀ num den : ℕ, den < p → den ≠ 0 →
      (num : ZMod p) / den = (shortCurve a b p).slope x1 x2 y1 y2 →
      ∃ x3 y3 : ℕ, chord x1 y1 x2 num den p = .ok (.aff x3 y3) ∧ x3 < p ∧ y3 < p ∧
        (x3 : ZMod p) = (shortCurve a b p).addX x1 x2 ((shortCurve a b p).slope x1 x2 y1 y2) ∧
        (y3 : ZMod p) = (shortCurve a b p).addY x1 x2 y1 ((shortCurve a b p).slope x1 x2 y1 y2) := by
    intro num den hd h0 hs
    obtain ⟨x3, y3, hc, l1, l2, c1, c2⟩ := chord_cast (x1 := x1) (y1 := y1) (x2 := x2) (num := num) hd h0
    have c1' : (x3 : ZMod p) = (shortCurve a b p).addX x1 x2 ((shortCurve a b p).slope x1 x2 y1 y2) := by
      rw [c1, hs]
      simp [Affine.addX, shortCurve]
    refine ⟨x3, y3, hc, l1, l2, c1', ?_⟩
    rw [c2, hs, Affine.addY, Affine.negAddY, negY_short, ← c1']
    ring
  by_cases hx : x1 = x2
  · have hs : (y1 + y2) % p ≠ 0 := fun h => hc ⟨hx, h⟩
    have hyn : (y1 : ZMod p) ≠ (shortCurve a b p).negY x2 y2 := fun h => hs ((case2_iff _).2 h)
    have hxc : (x1 : ZMod p) = x2 := by rw [hx]
    have hy : y1 = y2 := (cast_inj_of_lt hy1 hy2).1 (Affine.Y_eq_of_Y_ne e1 e2 hxc hyn)
    have hd0 : 2 * y1 % p ≠ 0 := by rw [two_mul]; rwa [hy] at hs ⊢
    rw [ecAdd, if_neg hc, if_pos ⟨hx, hy⟩]
    refine key _ _ (Nat.mod_lt _ hp) hd0 ?_
    rw [Affine.slope_of_Y_ne hxc hyn, negY_short]
    simp only [ZMod.natCast_mod]
    push_cast
    congr 1
    · simp [shortCurve]; ring
    · ring
  · have hxc : (x1 : ZMod p) ≠ x2 := fun h => hx ((cast_inj_of_lt hx1 hx2).1 h)
    rw [ecAdd, if_neg hc, if_neg (fun h => hx h.1)]
    have hd0 : floorMod ((x2 : ℤ) - x1) p ≠ 0 := by
      intro h
      have : ((floorMod ((x2 : ℤ) - x1) p : ℕ) : ZMod p) = 0 := by rw [h]; simp
      rw [floorMod_cast_zmod _ hp] at this
      push_cast at this
      exact hxc (sub_eq_zero.1 this).symm
    refine key _ _ (floorMod_lt _ hp) hd0 ?_
    rw [floorMod_cast_zmod _ hp, floorMod_cast_zmod _ hp, Affine.slope_of_X_ne hxc]
    push_cast
    rw [← neg_sub (x1 : ZMod p), ← neg_sub (y1 : ZMod p), neg_div_neg_eq]

/-- Over a prime modulus the sum of two points of the curve exists and is on the curve, singular or not (R147). -/
theorem ecAdd_onEquation {q r : Point} (h1 : OnEquation q a b p) (h2 : OnEquation r a b p) :
    ∃ t, ecAdd q r a p = .ok t ∧ OnEquation t a b p := by
  cases q with
  | inf => exact ⟨r, rfl, h2⟩
  | aff x1 y1 =>
    cases r with
    | inf => exact ⟨_, rfl, h1⟩
    | aff x2 y2 =>
      by_cases hc : x1 = x2 ∧ (y1 + y2) % p = 0
      · exact ⟨.inf, by rw [ecAdd, if_pos hc], trivial⟩
      · obtain ⟨x3, y3, he, l1, l2, c1, c2⟩ := ecAdd_cast h1 h2 hc
        refine ⟨_, he, onEquation_iff.2 ⟨l1, l2, ?_⟩⟩
        obtain ⟨hx1, _, e1⟩ := onEquation_iff.1 h1
        obtain ⟨hx2, _, e2⟩ := onEquation_iff.1 h2
        rw [c1, c2]
        refine Affine.equation_add e1 e2 fun h => hc ⟨(cast_inj_of_lt hx1 hx2).1 h.1, (case2_iff _).2 h.2⟩

theorem ecNeg_onEquation {q : Point} (h : OnEquation q a b p) : OnEquation (ecNeg q p) a b p := by
  cases q with
  | inf => trivial
  | aff x y =>
    have hp : 0 < p := hF.out.pos
    obtain ⟨hx, _, e⟩ := onEquation_iff.1 h
    refine onEquation_iff.2 ⟨hx, floorMod_lt _ hp, ?_⟩
    rw [floorMod_cast_zmod _ hp]
    push_cast
    rw [ZMod.natCast_self, zero_sub, ← negY_short (a := a) (b := b) (x : ZMod p)]
    exact (Affine.equation_neg ..).2 e

theorem ecMulLoop_onEquation : ∀ (bits : ℕ) {acc dbl : Point} (j : ℕ), OnEquation acc a b p → OnEquation dbl a b p →
    ∃ t, ecMulLoop a p bits acc dbl j = .ok t ∧ OnEquation t a b p
  | 0, acc, _, _, h, _ => ⟨acc, rfl, h⟩
  | bits + 1, acc, dbl, j, h1, h2 => by
    obtain ⟨d, hd, hd'⟩ := ecAdd_onEquation h2 h2
    obtain ⟨s, hs, hs'⟩ := ecAdd_onEquation h1 h2
    by_cases hj : j % 2 = 1
    · obtain ⟨t, ht, ht'⟩ := ecMulLoop_onEquation bits (j / 2) hs' hd'
      exact ⟨t, by simp [ecMulLoop, hj, hs, hd, bind, Except.bind, ht], ht'⟩
    · obtain ⟨t, ht, ht'⟩ := ecMulLoop_onEquation bits (j / 2) h1 hd'
      exact ⟨t, by simp [ecMulLoop, hj, hd, bind, Except.bind, ht], ht'⟩

/-- Over a prime modulus a multiple of a point of the curve exists and is on the curve (R146, R147). -/
theorem ecMul_onEquation {q : Point} (k : ℕ) (h : OnEquation q a b p) :
    ∃ t, ecMul k q a p = .ok t ∧ OnEquation t a b p :=
  ecMulLoop_onEquation (bitlen k) k trivial h

/-! ## The group of nonsingular points -/

/-- The model's point `q` stands for the point `P` of Mathlib's group. -/
def Rep (a b p : ℕ) (q : Point) (P : (shortCurve a b p).Point) : Prop :=
  match q with
  | .inf => P = 0
  | .aff x y => x < p ∧ y < p ∧ ∃ h, P = .some (x : ZMod p) (y : ZMod p) h

omit hF in
theorem Rep.injective {q r : Point} {P : (shortCurve a b p).Point} (h1 : Rep a b p q P) (h2 : Rep a b p r P) :
    q = r := by
  cases q with
  | inf =>
    cases r with
    | inf => rfl
    | aff x y =>
      obtain ⟨_, _, h, e⟩ := h2
      exact absurd (e.symm.trans h1) (Affine.Point.some_ne_zero h)
  | aff x y =>
    obtain ⟨l1, l2, h, e⟩ := h1
    cases r with
    | inf => exact absurd (e.symm.trans h2) (Affine.Point.some_ne_zero h)
    | aff x' y' =>
      obtain ⟨l1', l2', h', e'⟩ := h2
      have := e.symm.trans e'
      injection this with hx hy
      rw [(cast_inj_of_lt l1 l1').1 hx, (cast_inj_of_lt l2 l2').1 hy]

omit hF in
theorem Rep.onEquation {q : Point} {P : (shortCurve a b p).Point} (h : Rep a b p q P) : OnEquation q a b p := by
  cases q with
  | inf => trivial
  | aff x y =>
    obtain ⟨l1, l2, h, _⟩ := h
    exact onEquation_iff.2 ⟨l1, l2, h.1⟩

/-- `ecAdd` is the group's addition (R160). -/
theorem Rep.add {q r : Point} {P R : (shortCurve a b p).Point} (h1 : Rep a b p q P) (h2 : Rep a b p r R) :
    ∃ t, ecAdd q r a p = .ok t ∧ Rep a b p t (P + R) := by
  cases q with
  | inf => exact ⟨r, rfl, by rw [show P = 0 from h1, zero_add]; exact h2⟩
  | aff x1 y1 =>
    cases r with
    | inf => exact ⟨_, rfl, by rw [show R = 0 from h2, add_zero]; exact h1⟩
    | aff x2 y2 =>
      have e1 := h1.onEquation
      have e2 := h2.onEquation
      obtain ⟨lx1, _, n1, rfl⟩ := h1
      obtain ⟨lx2, _, n2, rfl⟩ := h2
      by_cases hc : x1 = x2 ∧ (y1 + y2) % p = 0
      · refine ⟨.inf, by rw [ecAdd, if_pos hc], ?_⟩
        exact Affine.Point.add_of_Y_eq (by rw [hc.1]) ((case2_iff _).1 hc.2)
      · obtain ⟨x3, y3, he, l1, l2, c1, c2⟩ := ecAdd_cast e1 e2 hc
        have hn : ¬((x1 : ZMod p) = x2 ∧ (y1 : ZMod p) = (shortCurve a b p).negY x2 y2) :=
          fun h => hc ⟨(cast_inj_of_lt lx1 lx2).1 h.1, (case2_iff _).2 h.2⟩
        refine ⟨_, he, l1, l2, ?_⟩
        rw [Affine.Point.add_some hn]
        simp only [c1, c2]
        exact ⟨Affine.nonsingular_add n1 n2 hn, trivial⟩

/-- `ecNeg` is the group's negation (R144). -/
theorem Rep.neg {q : Point} {P : (shortCurve a b p).Point} (h : Rep a b p q P) : Rep a b p (ecNeg q p) (-P) := by
  cases q with
  | inf => rw [show P = 0 from h, neg_zero]; exact rfl
  | aff x y =>
    have hp : 0 < p := hF.out.pos
    obtain ⟨l1, _, n, rfl⟩ := h
    refine ⟨l1, floorMod_lt _ hp, ?_⟩
    rw [Affine.Point.neg_some]
    have : ((floorMod ((p : ℤ) - y) p : ℕ) : ZMod p) = (shortCurve a b p).negY x y := by
      rw [floorMod_cast_zmod _ hp, negY_short]
      push_cast
      rw [ZMod.natCast_self, zero_sub]
    simp only [this]
    exact ⟨(Affine.nonsingular_neg ..).2 n, trivial⟩

theorem Rep.mulLoop : ∀ (bits : ℕ) {acc dbl : Point} {A D : (shortCurve a b p).Point} (j : ℕ), j < 2 ^ bits →
    Rep a b p acc A → Rep a b p dbl D → ∃ t, ecMulLoop a p bits acc dbl j = .ok t ∧ Rep a b p t (A + j • D)
  | 0, acc, _, A, D, j, hj, h, _ => ⟨acc, rfl, by
      obtain rfl : j = 0 := by simpa using hj
      simpa using h⟩
  | bits + 1, acc, dbl, A, D, j, hj, h1, h2 => by
    obtain ⟨d, hd, hd'⟩ := h2.add h2
    obtain ⟨s, hs, hs'⟩ := h1.add h2
    have hlt : j / 2 < 2 ^ bits := by rw [pow_succ] at hj; omega
    by_cases hj1 : j % 2 = 1
    · obtain ⟨t, ht, ht'⟩ := Rep.mulLoop bits (j / 2) hlt hs' hd'
      refine ⟨t, by simp [ecMulLoop, hj1, hs, hd, bind, Except.bind, ht], ?_⟩
      have : A + D + (j / 2) • (D + D) = A + j • D := by
        rw [← two_nsmul, ← mul_nsmul', add_assoc, ← succ_nsmul', mul_comm, show 2 * (j / 2) + 1 = j by omega]
      rwa [this] at ht'
    · obtain ⟨t, ht, ht'⟩ := Rep.mulLoop bits (j / 2) hlt h1 hd'
      refine ⟨t, by simp [ecMulLoop, hj1, hd, bind, Except.bind, ht], ?_⟩
      have : A + (j / 2) • (D + D) = A + j • D := by
        rw [← two_nsmul, ← mul_nsmul', mul_comm, show 2 * (j / 2) = j by omega]
      rwa [this] at ht'

/-- `ecMul` is the group's multiple (R146, R160). -/
theorem Rep.mul {q : Point} {P : (shortCurve a b p).Point} (k : ℕ) (h : Rep a b p q P) :
    ∃ t, ecMul k q a p = .ok t ∧ Rep a b p t (k • P) := by
  obtain ⟨t, ht, ht'⟩ := Rep.mulLoop (bitlen k) k (lt_two_pow_bitlen k) (acc := .inf) (A := 0) rfl h
  exact ⟨t, ht, by simpa using ht'⟩

/-- On a nonsingular curve every point of the curve stands for a point of the group. -/
theorem exists_rep (hΔ : (shortCurve a b p).Δ ≠ 0) {q : Point} (h : OnEquation q a b p) : ∃ P, Rep a b p q P := by
  cases q with
  | inf => exact ⟨0, rfl⟩
  | aff x y =>
    obtain ⟨l1, l2, e⟩ := onEquation_iff.1 h
    exact ⟨_, l1, l2, (Affine.equation_iff_nonsingular_of_Δ_ne_zero hΔ).1 e, rfl⟩

/-- Every point of the group is stood for by a point of the model. -/
theorem exists_point (P : (shortCurve a b p).Point) : ∃ q, Rep a b p q P := by
  cases P with
  | zero => exact ⟨.inf, rfl⟩
  | some x y h =>
    have hx : ((x.val : ℕ) : ZMod p) = x := ZMod.natCast_zmod_val x
    have hy : ((y.val : ℕ) : ZMod p) = y := ZMod.natCast_zmod_val y
    exact ⟨.aff x.val y.val, ZMod.val_lt x, ZMod.val_lt y, by rw [hx, hy]; exact h, by simp only [hx, hy]⟩

/-- The discriminant of the short curve. -/
theorem shortCurve_Δ : (shortCurve a b p).Δ = -16 * (4 * (a : ZMod p) ^ 3 + 27 * (b : ZMod p) ^ 2) := by
  simp only [shortCurve, WeierstrassCurve.Δ, WeierstrassCurve.b₂, WeierstrassCurve.b₄, WeierstrassCurve.b₆,
    WeierstrassCurve.b₈]
  ring

theorem shortCurve_Δ_ne_zero (h2 : p ≠ 2) (h : (4 * a ^ 3 + 27 * b ^ 2) % p ≠ 0) : (shortCurve a b p).Δ ≠ 0 := by
  rw [shortCurve_Δ]
  have h16 : (-16 : ZMod p) ≠ 0 := by
    have h2' : (2 : ZMod p) ≠ 0 := by
      intro h
      have : ((2 : ℕ) : ZMod p) = 0 := by exact_mod_cast h
      rw [ZMod.natCast_eq_zero_iff] at this
      exact h2 ((Nat.prime_dvd_prime_iff_eq hF.out Nat.prime_two).1 this)
    have : (-16 : ZMod p) = -(2 ^ 4) := by norm_num
    rw [this]
    exact neg_ne_zero.2 (pow_ne_zero 4 h2')
  refine mul_ne_zero h16 fun h0 => h ?_
  have : ((4 * a ^ 3 + 27 * b ^ 2 : ℕ) : ZMod p) = 0 := by push_cast; exact h0
  rwa [ZMod.natCast_eq_zero_iff, Nat.dvd_iff_mod_eq_zero] at this

end Sys2Proof.Machine
end

