-- ==== Sys2Proof/Laws/State.lean ====
section
/-! SUPPORT. One lemma for each field and each update of the state, so that no proof unfolds a record update. -/

namespace Sys2Proof.Machine

/-! ## `State.setX` -/

@[simp] theorem State.setX_x (s : State) (i : XNum) (r : XReg) : (s.setX i r).x = s.x.set i r := rfl
@[simp] theorem State.setX_p (s : State) (i : XNum) (r : XReg) : (s.setX i r).p = s.p := rfl
@[simp] theorem State.setX_curveP (s : State) (i : XNum) (r : XReg) : (s.setX i r).curveP = s.curveP := rfl
@[simp] theorem State.setX_curveA (s : State) (i : XNum) (r : XReg) : (s.setX i r).curveA = s.curveA := rfl
@[simp] theorem State.setX_curveB (s : State) (i : XNum) (r : XReg) : (s.setX i r).curveB = s.curveB := rfl
@[simp] theorem State.setX_ctrl (s : State) (i : XNum) (r : XReg) : (s.setX i r).ctrl = s.ctrl := rfl
@[simp] theorem State.setX_status (s : State) (i : XNum) (r : XReg) : (s.setX i r).status = s.status := rfl
@[simp] theorem State.setX_lastCmd (s : State) (i : XNum) (r : XReg) : (s.setX i r).lastCmd = s.lastCmd := rfl
@[simp] theorem State.setX_pending (s : State) (i : XNum) (r : XReg) : (s.setX i r).pending = s.pending := rfl
@[simp] theorem State.setX_inputs (s : State) (i : XNum) (r : XReg) : (s.setX i r).inputs = s.inputs := rfl
@[simp] theorem State.setX_entropy (s : State) (i : XNum) (r : XReg) : (s.setX i r).entropy = s.entropy := rfl
@[simp] theorem State.setX_readData (s : State) (i : XNum) (r : XReg) : (s.setX i r).readData = s.readData := rfl
@[simp] theorem State.setX_freeTick (s : State) (i : XNum) (r : XReg) : (s.setX i r).freeTick = s.freeTick := rfl

/-! ## `State.setP` -/

@[simp] theorem State.setP_x (s : State) (j : PNum) (r : PReg) : (s.setP j r).x = s.x := rfl
@[simp] theorem State.setP_p (s : State) (j : PNum) (r : PReg) : (s.setP j r).p = s.p.set j r := rfl
@[simp] theorem State.setP_curveP (s : State) (j : PNum) (r : PReg) : (s.setP j r).curveP = s.curveP := rfl
@[simp] theorem State.setP_curveA (s : State) (j : PNum) (r : PReg) : (s.setP j r).curveA = s.curveA := rfl
@[simp] theorem State.setP_curveB (s : State) (j : PNum) (r : PReg) : (s.setP j r).curveB = s.curveB := rfl
@[simp] theorem State.setP_ctrl (s : State) (j : PNum) (r : PReg) : (s.setP j r).ctrl = s.ctrl := rfl
@[simp] theorem State.setP_status (s : State) (j : PNum) (r : PReg) : (s.setP j r).status = s.status := rfl
@[simp] theorem State.setP_lastCmd (s : State) (j : PNum) (r : PReg) : (s.setP j r).lastCmd = s.lastCmd := rfl
@[simp] theorem State.setP_pending (s : State) (j : PNum) (r : PReg) : (s.setP j r).pending = s.pending := rfl
@[simp] theorem State.setP_inputs (s : State) (j : PNum) (r : PReg) : (s.setP j r).inputs = s.inputs := rfl
@[simp] theorem State.setP_entropy (s : State) (j : PNum) (r : PReg) : (s.setP j r).entropy = s.entropy := rfl
@[simp] theorem State.setP_readData (s : State) (j : PNum) (r : PReg) : (s.setP j r).readData = s.readData := rfl
@[simp] theorem State.setP_freeTick (s : State) (j : PNum) (r : PReg) : (s.setP j r).freeTick = s.freeTick := rfl

/-! ## `State.setPoint` -/

@[simp] theorem State.setPoint_x (s : State) (j : PNum) (q : Point) : (s.setPoint j q).x = s.x := by cases q <;> rfl
@[simp] theorem State.setPoint_curveP (s : State) (j : PNum) (q : Point) :
    (s.setPoint j q).curveP = s.curveP := by cases q <;> rfl
@[simp] theorem State.setPoint_curveA (s : State) (j : PNum) (q : Point) :
    (s.setPoint j q).curveA = s.curveA := by cases q <;> rfl
@[simp] theorem State.setPoint_curveB (s : State) (j : PNum) (q : Point) :
    (s.setPoint j q).curveB = s.curveB := by cases q <;> rfl
@[simp] theorem State.setPoint_ctrl (s : State) (j : PNum) (q : Point) :
    (s.setPoint j q).ctrl = s.ctrl := by cases q <;> rfl
@[simp] theorem State.setPoint_status (s : State) (j : PNum) (q : Point) :
    (s.setPoint j q).status = s.status := by cases q <;> rfl
@[simp] theorem State.setPoint_lastCmd (s : State) (j : PNum) (q : Point) :
    (s.setPoint j q).lastCmd = s.lastCmd := by cases q <;> rfl
@[simp] theorem State.setPoint_pending (s : State) (j : PNum) (q : Point) :
    (s.setPoint j q).pending = s.pending := by cases q <;> rfl
@[simp] theorem State.setPoint_inputs (s : State) (j : PNum) (q : Point) :
    (s.setPoint j q).inputs = s.inputs := by cases q <;> rfl
@[simp] theorem State.setPoint_entropy (s : State) (j : PNum) (q : Point) :
    (s.setPoint j q).entropy = s.entropy := by cases q <;> rfl
@[simp] theorem State.setPoint_readData (s : State) (j : PNum) (q : Point) :
    (s.setPoint j q).readData = s.readData := by cases q <;> rfl

/-! ## `State.setResult` -/

@[simp] theorem State.setResult_x (s : State) (b : Bool) : (s.setResult b).x = s.x := rfl
@[simp] theorem State.setResult_p (s : State) (b : Bool) : (s.setResult b).p = s.p := rfl
@[simp] theorem State.setResult_curveP (s : State) (b : Bool) : (s.setResult b).curveP = s.curveP := rfl
@[simp] theorem State.setResult_curveA (s : State) (b : Bool) : (s.setResult b).curveA = s.curveA := rfl
@[simp] theorem State.setResult_curveB (s : State) (b : Bool) : (s.setResult b).curveB = s.curveB := rfl
@[simp] theorem State.setResult_ctrl (s : State) (b : Bool) : (s.setResult b).ctrl = s.ctrl := rfl
@[simp] theorem State.setResult_status (s : State) (b : Bool) :
    (s.setResult b).status = { s.status with result := b } := rfl
@[simp] theorem State.setResult_lastCmd (s : State) (b : Bool) : (s.setResult b).lastCmd = s.lastCmd := rfl
@[simp] theorem State.setResult_pending (s : State) (b : Bool) : (s.setResult b).pending = s.pending := rfl
@[simp] theorem State.setResult_inputs (s : State) (b : Bool) : (s.setResult b).inputs = s.inputs := rfl
@[simp] theorem State.setResult_entropy (s : State) (b : Bool) : (s.setResult b).entropy = s.entropy := rfl
@[simp] theorem State.setResult_readData (s : State) (b : Bool) : (s.setResult b).readData = s.readData := rfl
@[simp] theorem State.setResult_freeTick (s : State) (b : Bool) : (s.setResult b).freeTick = s.freeTick := rfl

/-! ## `State.commit` -/

@[simp] theorem State.commit_x (s : State) : s.commit.x = s.x := rfl
@[simp] theorem State.commit_p (s : State) : s.commit.p = s.p := rfl
@[simp] theorem State.commit_curveP (s : State) : s.commit.curveP = s.curveP := rfl
@[simp] theorem State.commit_curveA (s : State) : s.commit.curveA = s.curveA := rfl
@[simp] theorem State.commit_curveB (s : State) : s.commit.curveB = s.curveB := rfl
@[simp] theorem State.commit_ctrl (s : State) : s.commit.ctrl = s.ctrl := rfl
@[simp] theorem State.commit_status (s : State) :
    s.commit.status = { s.status with done := true, busy := false } := rfl
@[simp] theorem State.commit_lastCmd (s : State) : s.commit.lastCmd = s.lastCmd := rfl
@[simp] theorem State.commit_pending (s : State) : s.commit.pending = none := rfl
@[simp] theorem State.commit_inputs (s : State) : s.commit.inputs = s.inputs := rfl
@[simp] theorem State.commit_entropy (s : State) : s.commit.entropy = s.entropy := rfl
@[simp] theorem State.commit_readData (s : State) : s.commit.readData = s.readData := rfl
@[simp] theorem State.commit_freeTick (s : State) : s.commit.freeTick = s.freeTick := rfl

/-! ## `State.raise` -/

@[simp] theorem State.raise_x (s : State) (e : Err) : (s.raise e).x = s.x := rfl
@[simp] theorem State.raise_p (s : State) (e : Err) : (s.raise e).p = s.p := rfl
@[simp] theorem State.raise_curveP (s : State) (e : Err) : (s.raise e).curveP = s.curveP := rfl
@[simp] theorem State.raise_curveA (s : State) (e : Err) : (s.raise e).curveA = s.curveA := rfl
@[simp] theorem State.raise_curveB (s : State) (e : Err) : (s.raise e).curveB = s.curveB := rfl
@[simp] theorem State.raise_ctrl (s : State) (e : Err) : (s.raise e).ctrl = s.ctrl := rfl
@[simp] theorem State.raise_status (s : State) (e : Err) :
    (s.raise e).status = { s.status with errCode := e.code, err := true, done := true, busy := false } := rfl
@[simp] theorem State.raise_lastCmd (s : State) (e : Err) : (s.raise e).lastCmd = s.lastCmd := rfl
@[simp] theorem State.raise_pending (s : State) (e : Err) : (s.raise e).pending = none := rfl
@[simp] theorem State.raise_inputs (s : State) (e : Err) : (s.raise e).inputs = s.inputs := rfl
@[simp] theorem State.raise_entropy (s : State) (e : Err) : (s.raise e).entropy = s.entropy := rfl
@[simp] theorem State.raise_readData (s : State) (e : Err) : (s.raise e).readData = s.readData := rfl
@[simp] theorem State.raise_freeTick (s : State) (e : Err) : (s.raise e).freeTick = s.freeTick := rfl

/-! ## `State.awaitEntropy` -/

@[simp] theorem State.awaitEntropy_x (s : State) : s.awaitEntropy.x = s.x := rfl
@[simp] theorem State.awaitEntropy_p (s : State) : s.awaitEntropy.p = s.p := rfl
@[simp] theorem State.awaitEntropy_curveP (s : State) : s.awaitEntropy.curveP = s.curveP := rfl
@[simp] theorem State.awaitEntropy_curveA (s : State) : s.awaitEntropy.curveA = s.curveA := rfl
@[simp] theorem State.awaitEntropy_curveB (s : State) : s.awaitEntropy.curveB = s.curveB := rfl
@[simp] theorem State.awaitEntropy_ctrl (s : State) : s.awaitEntropy.ctrl = s.ctrl := rfl
@[simp] theorem State.awaitEntropy_status (s : State) : s.awaitEntropy.status = s.status := rfl
@[simp] theorem State.awaitEntropy_lastCmd (s : State) : s.awaitEntropy.lastCmd = s.lastCmd := rfl
@[simp] theorem State.awaitEntropy_pending (s : State) : s.awaitEntropy.pending = s.pending := rfl
@[simp] theorem State.awaitEntropy_inputs (s : State) : s.awaitEntropy.inputs = s.inputs := rfl
@[simp] theorem State.awaitEntropy_entropy (s : State) : s.awaitEntropy.entropy = [] := rfl
@[simp] theorem State.awaitEntropy_readData (s : State) : s.awaitEntropy.readData = s.readData := rfl
@[simp] theorem State.awaitEntropy_freeTick (s : State) : s.awaitEntropy.freeTick = s.freeTick := rfl

/-! ## `State.withEntropy` -/

@[simp] theorem State.withEntropy_x (s : State) (l : List Word) : (s.withEntropy l).x = s.x := rfl
@[simp] theorem State.withEntropy_p (s : State) (l : List Word) : (s.withEntropy l).p = s.p := rfl
@[simp] theorem State.withEntropy_curveP (s : State) (l : List Word) : (s.withEntropy l).curveP = s.curveP := rfl
@[simp] theorem State.withEntropy_curveA (s : State) (l : List Word) : (s.withEntropy l).curveA = s.curveA := rfl
@[simp] theorem State.withEntropy_curveB (s : State) (l : List Word) : (s.withEntropy l).curveB = s.curveB := rfl
@[simp] theorem State.withEntropy_ctrl (s : State) (l : List Word) : (s.withEntropy l).ctrl = s.ctrl := rfl
@[simp] theorem State.withEntropy_status (s : State) (l : List Word) : (s.withEntropy l).status = s.status := rfl
@[simp] theorem State.withEntropy_lastCmd (s : State) (l : List Word) : (s.withEntropy l).lastCmd = s.lastCmd := rfl
@[simp] theorem State.withEntropy_pending (s : State) (l : List Word) : (s.withEntropy l).pending = s.pending := rfl
@[simp] theorem State.withEntropy_inputs (s : State) (l : List Word) : (s.withEntropy l).inputs = s.inputs := rfl
@[simp] theorem State.withEntropy_entropy (s : State) (l : List Word) : (s.withEntropy l).entropy = l := rfl
@[simp] theorem State.withEntropy_readData (s : State) (l : List Word) :
    (s.withEntropy l).readData = s.readData := rfl
@[simp] theorem State.withEntropy_freeTick (s : State) (l : List Word) :
    (s.withEntropy l).freeTick = s.freeTick := rfl

/-! ## `State.accept` -/

@[simp] theorem State.accept_x (s : State) (c : Word32) : (s.accept c).x = s.x := rfl
@[simp] theorem State.accept_p (s : State) (c : Word32) : (s.accept c).p = s.p := rfl
@[simp] theorem State.accept_curveP (s : State) (c : Word32) : (s.accept c).curveP = s.curveP := rfl
@[simp] theorem State.accept_curveA (s : State) (c : Word32) : (s.accept c).curveA = s.curveA := rfl
@[simp] theorem State.accept_curveB (s : State) (c : Word32) : (s.accept c).curveB = s.curveB := rfl
@[simp] theorem State.accept_ctrl (s : State) (c : Word32) : (s.accept c).ctrl = s.ctrl := rfl
@[simp] theorem State.accept_status (s : State) (c : Word32) :
    (s.accept c).status = { s.status with done := false, busy := true } := rfl
@[simp] theorem State.accept_lastCmd (s : State) (c : Word32) : (s.accept c).lastCmd = c := rfl
@[simp] theorem State.accept_pending (s : State) (c : Word32) : (s.accept c).pending = some c := rfl
@[simp] theorem State.accept_inputs (s : State) (c : Word32) : (s.accept c).inputs = s.inputs := rfl
@[simp] theorem State.accept_entropy (s : State) (c : Word32) : (s.accept c).entropy = s.entropy := rfl
@[simp] theorem State.accept_readData (s : State) (c : Word32) : (s.accept c).readData = s.readData := rfl
@[simp] theorem State.accept_freeTick (s : State) (c : Word32) : (s.accept c).freeTick = s.freeTick := rfl

/-! ## `State.discard` -/

@[simp] theorem State.discard_x (s : State) : s.discard.x = s.x := rfl
@[simp] theorem State.discard_p (s : State) : s.discard.p = s.p := rfl
@[simp] theorem State.discard_curveP (s : State) : s.discard.curveP = s.curveP := rfl
@[simp] theorem State.discard_curveA (s : State) : s.discard.curveA = s.curveA := rfl
@[simp] theorem State.discard_curveB (s : State) : s.discard.curveB = s.curveB := rfl
@[simp] theorem State.discard_ctrl (s : State) : s.discard.ctrl = s.ctrl := rfl
@[simp] theorem State.discard_status (s : State) : s.discard.status = { s.status with ovr := true } := rfl
@[simp] theorem State.discard_lastCmd (s : State) : s.discard.lastCmd = s.lastCmd := rfl
@[simp] theorem State.discard_pending (s : State) : s.discard.pending = s.pending := rfl
@[simp] theorem State.discard_inputs (s : State) : s.discard.inputs = s.inputs := rfl
@[simp] theorem State.discard_entropy (s : State) : s.discard.entropy = s.entropy := rfl
@[simp] theorem State.discard_readData (s : State) : s.discard.readData = s.readData := rfl
@[simp] theorem State.discard_freeTick (s : State) : s.discard.freeTick = s.freeTick := rfl

/-! ## `State.clearStatus` -/

@[simp] theorem State.clearStatus_x (s : State) (v : Word32) : (s.clearStatus v).x = s.x := rfl
@[simp] theorem State.clearStatus_p (s : State) (v : Word32) : (s.clearStatus v).p = s.p := rfl
@[simp] theorem State.clearStatus_curveP (s : State) (v : Word32) : (s.clearStatus v).curveP = s.curveP := rfl
@[simp] theorem State.clearStatus_curveA (s : State) (v : Word32) : (s.clearStatus v).curveA = s.curveA := rfl
@[simp] theorem State.clearStatus_curveB (s : State) (v : Word32) : (s.clearStatus v).curveB = s.curveB := rfl
@[simp] theorem State.clearStatus_ctrl (s : State) (v : Word32) : (s.clearStatus v).ctrl = s.ctrl := rfl
@[simp] theorem State.clearStatus_status (s : State) (v : Word32) : (s.clearStatus v).status = 
      { s.status with
        done := s.status.done && !v.getLsbD 1
        err := s.status.err && !v.getLsbD 2
        errCode := if v.getLsbD 2 then 0#8 else s.status.errCode
        ovr := s.status.ovr && !v.getLsbD 4 } := rfl
@[simp] theorem State.clearStatus_lastCmd (s : State) (v : Word32) : (s.clearStatus v).lastCmd = s.lastCmd := rfl
@[simp] theorem State.clearStatus_pending (s : State) (v : Word32) : (s.clearStatus v).pending = s.pending := rfl
@[simp] theorem State.clearStatus_inputs (s : State) (v : Word32) : (s.clearStatus v).inputs = s.inputs := rfl
@[simp] theorem State.clearStatus_entropy (s : State) (v : Word32) : (s.clearStatus v).entropy = s.entropy := rfl
@[simp] theorem State.clearStatus_readData (s : State) (v : Word32) : (s.clearStatus v).readData = s.readData := rfl
@[simp] theorem State.clearStatus_freeTick (s : State) (v : Word32) : (s.clearStatus v).freeTick = s.freeTick := rfl

/-! ## `State.resetBlock` -/

@[simp] theorem State.resetBlock_x (s : State) : s.resetBlock.x = State.reset.x := rfl
@[simp] theorem State.resetBlock_p (s : State) : s.resetBlock.p = State.reset.p := rfl
@[simp] theorem State.resetBlock_curveP (s : State) : s.resetBlock.curveP = State.reset.curveP := rfl
@[simp] theorem State.resetBlock_curveA (s : State) : s.resetBlock.curveA = State.reset.curveA := rfl
@[simp] theorem State.resetBlock_curveB (s : State) : s.resetBlock.curveB = State.reset.curveB := rfl
@[simp] theorem State.resetBlock_ctrl (s : State) : s.resetBlock.ctrl = State.reset.ctrl := rfl
@[simp] theorem State.resetBlock_status (s : State) : s.resetBlock.status = State.reset.status := rfl
@[simp] theorem State.resetBlock_lastCmd (s : State) : s.resetBlock.lastCmd = State.reset.lastCmd := rfl
@[simp] theorem State.resetBlock_pending (s : State) : s.resetBlock.pending = State.reset.pending := rfl
@[simp] theorem State.resetBlock_inputs (s : State) : s.resetBlock.inputs = s.inputs := rfl
@[simp] theorem State.resetBlock_entropy (s : State) : s.resetBlock.entropy = [] := rfl
@[simp] theorem State.resetBlock_readData (s : State) : s.resetBlock.readData = s.readData := rfl
@[simp] theorem State.resetBlock_freeTick (s : State) : s.resetBlock.freeTick = s.freeTick := rfl

/-! ## `State.withInputs` -/

@[simp] theorem State.withInputs_x (s : State) (l : List Input) : (s.withInputs l).x = s.x := rfl
@[simp] theorem State.withInputs_p (s : State) (l : List Input) : (s.withInputs l).p = s.p := rfl
@[simp] theorem State.withInputs_curveP (s : State) (l : List Input) : (s.withInputs l).curveP = s.curveP := rfl
@[simp] theorem State.withInputs_curveA (s : State) (l : List Input) : (s.withInputs l).curveA = s.curveA := rfl
@[simp] theorem State.withInputs_curveB (s : State) (l : List Input) : (s.withInputs l).curveB = s.curveB := rfl
@[simp] theorem State.withInputs_ctrl (s : State) (l : List Input) : (s.withInputs l).ctrl = s.ctrl := rfl
@[simp] theorem State.withInputs_status (s : State) (l : List Input) : (s.withInputs l).status = s.status := rfl
@[simp] theorem State.withInputs_lastCmd (s : State) (l : List Input) : (s.withInputs l).lastCmd = s.lastCmd := rfl
@[simp] theorem State.withInputs_pending (s : State) (l : List Input) : (s.withInputs l).pending = s.pending := rfl
@[simp] theorem State.withInputs_inputs (s : State) (l : List Input) : (s.withInputs l).inputs = l := rfl
@[simp] theorem State.withInputs_entropy (s : State) (l : List Input) : (s.withInputs l).entropy = s.entropy := rfl
@[simp] theorem State.withInputs_readData (s : State) (l : List Input) : (s.withInputs l).readData = s.readData := rfl
@[simp] theorem State.withInputs_freeTick (s : State) (l : List Input) : (s.withInputs l).freeTick = s.freeTick := rfl

/-! ## `State.addEntropy` -/

@[simp] theorem State.addEntropy_x (s : State) (v : Word) : (s.addEntropy v).x = s.x := rfl
@[simp] theorem State.addEntropy_p (s : State) (v : Word) : (s.addEntropy v).p = s.p := rfl
@[simp] theorem State.addEntropy_curveP (s : State) (v : Word) : (s.addEntropy v).curveP = s.curveP := rfl
@[simp] theorem State.addEntropy_curveA (s : State) (v : Word) : (s.addEntropy v).curveA = s.curveA := rfl
@[simp] theorem State.addEntropy_curveB (s : State) (v : Word) : (s.addEntropy v).curveB = s.curveB := rfl
@[simp] theorem State.addEntropy_ctrl (s : State) (v : Word) : (s.addEntropy v).ctrl = s.ctrl := rfl
@[simp] theorem State.addEntropy_status (s : State) (v : Word) : (s.addEntropy v).status = s.status := rfl
@[simp] theorem State.addEntropy_lastCmd (s : State) (v : Word) : (s.addEntropy v).lastCmd = s.lastCmd := rfl
@[simp] theorem State.addEntropy_pending (s : State) (v : Word) : (s.addEntropy v).pending = s.pending := rfl
@[simp] theorem State.addEntropy_inputs (s : State) (v : Word) : (s.addEntropy v).inputs = s.inputs := rfl
@[simp] theorem State.addEntropy_entropy (s : State) (v : Word) : (s.addEntropy v).entropy = s.entropy ++ [v] := rfl
@[simp] theorem State.addEntropy_readData (s : State) (v : Word) : (s.addEntropy v).readData = s.readData := rfl
@[simp] theorem State.addEntropy_freeTick (s : State) (v : Word) : (s.addEntropy v).freeTick = s.freeTick := rfl

/-! ## `State.withReadData` -/

@[simp] theorem State.withReadData_x (s : State) (v : Word32) : (s.withReadData v).x = s.x := rfl
@[simp] theorem State.withReadData_p (s : State) (v : Word32) : (s.withReadData v).p = s.p := rfl
@[simp] theorem State.withReadData_curveP (s : State) (v : Word32) : (s.withReadData v).curveP = s.curveP := rfl
@[simp] theorem State.withReadData_curveA (s : State) (v : Word32) : (s.withReadData v).curveA = s.curveA := rfl
@[simp] theorem State.withReadData_curveB (s : State) (v : Word32) : (s.withReadData v).curveB = s.curveB := rfl
@[simp] theorem State.withReadData_ctrl (s : State) (v : Word32) : (s.withReadData v).ctrl = s.ctrl := rfl
@[simp] theorem State.withReadData_status (s : State) (v : Word32) : (s.withReadData v).status = s.status := rfl
@[simp] theorem State.withReadData_lastCmd (s : State) (v : Word32) : (s.withReadData v).lastCmd = s.lastCmd := rfl
@[simp] theorem State.withReadData_pending (s : State) (v : Word32) : (s.withReadData v).pending = s.pending := rfl
@[simp] theorem State.withReadData_inputs (s : State) (v : Word32) : (s.withReadData v).inputs = s.inputs := rfl
@[simp] theorem State.withReadData_entropy (s : State) (v : Word32) : (s.withReadData v).entropy = s.entropy := rfl
@[simp] theorem State.withReadData_readData (s : State) (v : Word32) : (s.withReadData v).readData = some v := rfl
@[simp] theorem State.withReadData_freeTick (s : State) (v : Word32) : (s.withReadData v).freeTick = s.freeTick := rfl

end Sys2Proof.Machine
end

