-- ==== Sys2Proof/Laws/Ops.lean ====
section
/-! SUPPORT. What the shared operations do, once: register access, the words of a register, points, the operand checks,
and the end of a command. -/

namespace Sys2Proof.Machine

/-! ## Registers -/

@[simp] theorem State.getX_setX_self (s : State) (i : XNum) (r : XReg) : (s.setX i r).getX i = r := by
  simp [State.getX, Vector.get_eq_getElem]

@[simp] theorem State.getX_setX_ne (s : State) {i j : XNum} (r : XReg) (h : j ≠ i) :
    (s.setX i r).getX j = s.getX j := by
  have : (i : Nat) ≠ j := fun e => h (Fin.ext e.symm)
  simp [State.getX, Vector.get_eq_getElem, this]

@[simp] theorem State.getP_setP_self (s : State) (j : PNum) (r : PReg) : (s.setP j r).getP j = r := by
  simp [State.getP, Vector.get_eq_getElem]

@[simp] theorem State.getP_setP_ne (s : State) {i j : PNum} (r : PReg) (h : j ≠ i) :
    (s.setP i r).getP j = s.getP j := by
  have : (i : Nat) ≠ j := fun e => h (Fin.ext e.symm)
  simp [State.getP, Vector.get_eq_getElem, this]

@[simp] theorem State.getP_setX (s : State) (i : XNum) (r : XReg) (j : PNum) : (s.setX i r).getP j = s.getP j := rfl

@[simp] theorem State.getX_setP (s : State) (j : PNum) (r : PReg) (i : XNum) : (s.setP j r).getX i = s.getX i := rfl

/-- Every point write is a write of some stored bits that stand for the point. -/
theorem State.setPoint_spec (s : State) (j : PNum) (q : Point)
    (h : ∀ x y, q = .aff x y → x < 2 ^ 256 ∧ y < 2 ^ 256) :
    ∃ (r : PReg) (k : Nat), r.point = q ∧ s.setPoint j q = { s with p := s.p.set j r, freeTick := k } := by
  cases q with
  | inf => exact ⟨_, _, rfl, rfl⟩
  | aff x y =>
    obtain ⟨hx, hy⟩ := h x y rfl
    refine ⟨⟨false, BitVec.ofNat 256 x, BitVec.ofNat 256 y⟩, s.freeTick, ?_, rfl⟩
    rw [PReg.point, if_neg Bool.false_ne_true, BitVec.toNat_ofNat, BitVec.toNat_ofNat, Nat.mod_eq_of_lt hx,
      Nat.mod_eq_of_lt hy]

theorem PReg.point_lt (r : PReg) : ∀ x y, r.point = .aff x y → x < 2 ^ 256 ∧ y < 2 ^ 256 := by
  intro x y h
  unfold PReg.point at h
  split at h
  · cases h
  · cases h
    exact ⟨r.x.isLt, r.y.isLt⟩

theorem intReg_val_toNat {v : Nat} (h : v < 2 ^ 256) : (intReg v).val.toNat = v := by
  rw [intReg, BitVec.toNat_ofNat, Nat.mod_eq_of_lt h]

theorem fieldReg_val_toNat {v m : Nat} (h : v < 2 ^ 256) : (fieldReg v m).val.toNat = v := by
  rw [fieldReg, BitVec.toNat_ofNat, Nat.mod_eq_of_lt h]

theorem fieldReg_mod_toNat {v m : Nat} (h : m < 2 ^ 256) : (fieldReg v m).mod.toNat = m := by
  rw [fieldReg, BitVec.toNat_ofNat, Nat.mod_eq_of_lt h]

/-! ## The words of a register -/

theorem getWord_getLsbD (r : Word) (w : WordNum) (b : Nat) :
    (getWord r w).getLsbD b = (decide (b < 32) && r.getLsbD (32 * w.val + b)) := by
  simp [getWord]

/-- Bit `b` of a register after a word write: the new word inside the word's bits, the old register outside. -/
theorem setWord_getLsbD (r : Word) (w : WordNum) (v : Word32) (b : Nat) (hb : b < 256) :
    (setWord r w v).getLsbD b =
      if 32 * w.val ≤ b ∧ b < 32 * w.val + 32 then v.getLsbD (b - 32 * w.val) else r.getLsbD b := by
  have hmask : ∀ k, (0xFFFFFFFF#256).getLsbD k = decide (k < 32) := by
    intro k
    have : (0xFFFFFFFF#256) = (BitVec.allOnes 32).setWidth 256 := by decide
    rw [this]
    simp only [BitVec.getLsbD_setWidth, BitVec.getLsbD_allOnes]
    by_cases h : k < 32 <;> simp [h]; omega
  unfold setWord
  simp only [BitVec.getLsbD_or, BitVec.getLsbD_and, BitVec.getLsbD_not, BitVec.getLsbD_shiftLeft, hmask,
    BitVec.getLsbD_setWidth, hb, decide_true, Bool.true_and]
  by_cases h1 : b < 32 * w.val
  · simp [h1, show ¬ 32 * w.val ≤ b from by omega]
  · by_cases h2 : b < 32 * w.val + 32
    · have h3 : b - 32 * w.val < 32 := by omega
      simp [h1, h2, h3, show 32 * w.val ≤ b from by omega]; omega
    · have h3 : ¬ b - 32 * w.val < 32 := by omega
      simp [h1, h2, h3, BitVec.getLsbD_of_ge v _ (by omega : 32 ≤ b - 32 * w.val)]

/-! ## The end of a command -/

/-- The only two ways a command ends: a commit of its result writes, or an abort with none of them. -/
theorem finish_cases (s : State) (r : Except Err State) :
    (∃ t, r = .ok t ∧ finish s r = .next t.commit) ∨ (∃ e, r = .error e ∧ finish s r = .next (s.raise e)) := by
  cases r with
  | ok t => exact .inl ⟨t, rfl, rfl⟩
  | error e => exact .inr ⟨e, rfl, rfl⟩

@[simp] theorem finish_ok (s t : State) : finish s (.ok t) = .next t.commit := rfl

@[simp] theorem finish_error (s : State) (e : Err) : finish s (.error e) = .next (s.raise e) := rfl

/-- A sequence of checks succeeds when its first does and the rest does. -/
theorem except_bind_ok {ε α β : Type} {x : Except ε α} {f : α → Except ε β} {b : β} :
    (x >>= f) = .ok b ↔ ∃ a, x = .ok a ∧ f a = .ok b := by
  cases x <;> simp [bind, Except.bind]

/-- A sequence of checks reports the first error it meets. -/
theorem except_bind_error {ε α β : Type} {x : Except ε α} {f : α → Except ε β} {e : ε} :
    (x >>= f) = .error e ↔ x = .error e ∨ ∃ a, x = .ok a ∧ f a = .error e := by
  cases x <;> simp [bind, Except.bind]

@[simp] theorem except_ok_bind {ε α β : Type} (a : α) (f : α → Except ε β) : (Except.ok a >>= f) = f a := rfl

@[simp] theorem except_error_bind {ε α β : Type} (e : ε) (f : α → Except ε β) :
    ((Except.error e : Except ε α) >>= f) = .error e := rfl

/-! ## The operand checks -/

/-- What `FCHK` answers (R120). -/
theorem fchk_cases (r : XReg) :
    (fchk r = .error .malformed ∧ r.wellFormed = false) ∨
    (fchk r = .error .notField ∧ r.mod.toNat = 0) ∨
    (fchk r = .ok ⟨r.val.toNat, r.mod.toNat⟩ ∧ 2 ≤ r.mod.toNat ∧ r.val.toNat < r.mod.toNat) := by
  unfold fchk
  by_cases hw : r.wellFormed = false
  · simp [hw]
  · by_cases h0 : r.mod.toNat = 0
    · simp [hw, h0]
    · have : r.wellFormed = true := by simpa using hw
      simp only [XReg.wellFormed, h0, decide_false, Bool.false_or, Bool.and_eq_true, decide_eq_true_eq] at this
      simp [hw, h0, this]

theorem fchk_ok_iff {r : XReg} {e : FieldElem} :
    fchk r = .ok e ↔ e = ⟨r.val.toNat, r.mod.toNat⟩ ∧ 2 ≤ r.mod.toNat ∧ r.val.toNat < r.mod.toNat := by
  constructor
  · intro h
    rcases fchk_cases r with ⟨h1, _⟩ | ⟨h1, _⟩ | ⟨h1, h2⟩
    · rw [h1] at h; cases h
    · rw [h1] at h; cases h
    · rw [h1] at h; cases h; exact ⟨rfl, h2⟩
  · rintro ⟨rfl, h2, h3⟩
    have hw : r.wellFormed = true := by simp [XReg.wellFormed, h2, h3]
    have h0 : r.mod.toNat ≠ 0 := by omega
    simp [fchk, hw, h0]

/-- When the two-operand check succeeds, and with what (R120). -/
theorem State.fieldPair_ok_iff {s : State} {a b : XNum} {o : FieldPair} :
    s.fieldPair a b = .ok o ↔
      o = ⟨(s.getX a).val.toNat, (s.getX b).val.toNat, (s.getX a).mod.toNat⟩ ∧
      (s.getX a).mod.toNat = (s.getX b).mod.toNat ∧ 2 ≤ (s.getX a).mod.toNat ∧
      (s.getX a).val.toNat < (s.getX a).mod.toNat ∧ (s.getX b).val.toNat < (s.getX a).mod.toNat := by
  unfold State.fieldPair
  simp only [except_bind_ok, fchk_ok_iff]
  constructor
  · rintro ⟨ea, ⟨rfl, h1, h2⟩, eb, ⟨rfl, h3, h4⟩, h⟩
    by_cases hm : (s.getX a).mod.toNat = (s.getX b).mod.toNat
    · simp only [ne_eq, hm, not_true_eq_false, if_false] at h
      cases h
      simp only [hm, true_and]
      omega
    · simp [hm, throw, throwThe, MonadExceptOf.throw] at h
  · rintro ⟨rfl, hm, h1, h2, h3⟩
    refine ⟨_, ⟨rfl, h1, h2⟩, _, ⟨rfl, by omega, by omega⟩, ?_⟩
    simp [hm, pure, Except.pure]

/-- When the current curve is legal, and what it is (R140, R141). -/
theorem State.curve_ok_iff {s : State} {c : Curve} :
    s.curve = .ok c ↔
      2 ≤ s.curveP.toNat ∧
      c = ⟨s.curveP.toNat, s.curveA.toNat % s.curveP.toNat, s.curveB.toNat % s.curveP.toNat⟩ := by
  unfold State.curve
  split
  · simp; omega
  · constructor
    · intro h; cases h; exact ⟨by omega, rfl⟩
    · rintro ⟨-, rfl⟩; rfl

theorem Curve.check_ok_iff {c : Curve} {q q' : Point} :
    c.check q = .ok q' ↔ onCurve q c.a c.b c.p = true ∧ q' = q := by
  unfold Curve.check
  split
  · rename_i h
    constructor
    · intro e; cases e; exact ⟨h, rfl⟩
    · rintro ⟨-, rfl⟩; rfl
  · rename_i h
    simp [h]

end Sys2Proof.Machine
end

