-- ==== Sys2Proof/Laws/Checks.lean ====
section
/-! SUPPORT. The bridge from the operations of the machine to the terms of `Safety`: how a command ends, what the operand
checks answer, and the checks against the current curve. -/

namespace Sys2Proof.Machine

/-! ## How a command ends -/

theorem commit_eq_ended (s : State) : s.commit = s.ended := rfl

theorem raise_eq_aborted (s : State) (e : Err) : s.raise e = s.aborted e.code := rfl

theorem code_mem_errorCodes (e : Err) : e.code ∈ errorCodes := by
  cases e <;> decide

theorem code_eq_three_iff (e : Err) : e.code = 0x03#8 ↔ e = .zeroInverse := by
  cases e <;> decide

/-- A commit of a field value that fits in the register. -/
theorem endsWithX_fieldReg {s : State} {d : XNum} {v m : Nat} (hv : v < 2 ^ 256) (hm : m < 2 ^ 256) :
    EndsWithX s (s.setX d (fieldReg v m)).commit d v m :=
  ⟨fieldReg v m, fieldReg_val_toNat hv, fieldReg_mod_toNat hm, rfl⟩

/-- A commit of a point whose coordinates fit in the register. -/
theorem endsWithPoint_setPoint {s : State} {d : PNum} {q : Point}
    (h : ∀ x y, q = .aff x y → x < 2 ^ 256 ∧ y < 2 ^ 256) : EndsWithPoint s (s.setPoint d q).commit d q := by
  obtain ⟨r, k, h1, h2⟩ := State.setPoint_spec s d q h
  exact ⟨r, k, h1, by rw [h2]; rfl⟩

/-! ## The operand checks -/

theorem fchk_of_operandError_none {r : XReg} (h : operandError r = none) :
    fchk r = .ok ⟨r.val.toNat, r.mod.toNat⟩ ∧ 2 ≤ r.mod.toNat ∧ r.val.toNat < r.mod.toNat := by
  unfold operandError at h
  rcases fchk_cases r with ⟨h1, h2⟩ | ⟨h1, h2⟩ | h1
  · simp only [XReg.wellFormed, Bool.or_eq_false_iff, Bool.and_eq_false_iff, decide_eq_false_iff_not] at h2
    split at h <;> simp_all
    omega
  · simp [h2] at h
  · exact h1

theorem fchk_of_operandError_some {r : XReg} {c : BitVec 8} (h : operandError r = some c) :
    ∃ e, fchk r = .error e ∧ e.code = c := by
  unfold operandError at h
  rcases fchk_cases r with ⟨h1, h2⟩ | ⟨h1, h2⟩ | ⟨h1, h2, h3⟩
  · refine ⟨_, h1, ?_⟩
    simp only [XReg.wellFormed, Bool.or_eq_false_iff, Bool.and_eq_false_iff, decide_eq_false_iff_not] at h2
    split at h
    · simp_all
    · split at h <;> simp_all [Err.code]
  · refine ⟨_, h1, ?_⟩
    simp only [h2, if_true, Option.some.injEq] at h
    simp [Err.code, h]
  · split at h
    · omega
    · split at h
      · omega
      · cases h

theorem fieldPair_of_pairError_none {s : State} {a b : XNum} (h : pairError (s.x.get a) (s.x.get b) = none) :
    s.fieldPair a b = .ok ⟨(s.x.get a).val.toNat, (s.x.get b).val.toNat, (s.x.get a).mod.toNat⟩ ∧
      2 ≤ (s.x.get a).mod.toNat ∧ (s.x.get a).val.toNat < (s.x.get a).mod.toNat ∧
      (s.x.get b).val.toNat < (s.x.get a).mod.toNat := by
  unfold pairError at h
  split at h
  · cases h
  · cases h
  · rename_i h1 h2
    split at h
    · rename_i h3
      obtain ⟨a1, a2, a3⟩ := fchk_of_operandError_none h1
      obtain ⟨b1, b2, b3⟩ := fchk_of_operandError_none h2
      rw [← h3] at b3
      refine ⟨?_, a2, a3, b3⟩
      simp [State.fieldPair, State.getX, a1, b1, h3, pure, Except.pure]
    · cases h

theorem fieldPair_of_pairError_some {s : State} {a b : XNum} {c : BitVec 8}
    (h : pairError (s.x.get a) (s.x.get b) = some c) : ∃ e, s.fieldPair a b = .error e ∧ e.code = c := by
  unfold pairError at h
  split at h
  · rename_i h1
    obtain ⟨e, h2, h3⟩ := fchk_of_operandError_some h1
    exact ⟨e, by simp [State.fieldPair, State.getX, h2], by simp_all⟩
  · rename_i h0 h1
    obtain ⟨e, h2, h3⟩ := fchk_of_operandError_some h1
    exact ⟨e, by simp [State.fieldPair, State.getX, h2, (fchk_of_operandError_none h0).1], by simp_all⟩
  · rename_i h1 h2
    split at h
    · cases h
    · rename_i h3
      refine ⟨.crossField, ?_, by cases h; rfl⟩
      have : (s.x.get a).mod.toNat ≠ (s.x.get b).mod.toNat := fun h => h3 (BitVec.eq_of_toNat_eq h)
      simp [State.fieldPair, State.getX, (fchk_of_operandError_none h1).1, (fchk_of_operandError_none h2).1, this,
        throw, throwThe, MonadExceptOf.throw]

theorem operandError_code {r : XReg} {c : BitVec 8} (h : operandError r = some c) : c = 5#8 ∨ c = 6#8 := by
  unfold operandError at h
  split at h
  · cases h; exact .inl rfl
  · split at h
    · cases h; exact .inr rfl
    · cases h

theorem pairError_code {r1 r2 : XReg} {c : BitVec 8} (h : pairError r1 r2 = some c) : c = 5#8 ∨ c = 6#8 ∨ c = 2#8 := by
  unfold pairError at h
  split at h
  · cases h
    have := operandError_code ‹_›
    tauto
  · cases h
    have := operandError_code ‹_›
    tauto
  · split at h
    · cases h
    · cases h; exact .inr (.inr rfl)

theorem fchk_error {r : XReg} {e : Err} (h : fchk r = .error e) : e = .malformed ∨ e = .notField := by
  rcases fchk_cases r with ⟨h1, _⟩ | ⟨h1, _⟩ | ⟨h1, _⟩ <;> rw [h1] at h <;> cases h <;> simp

theorem State.fieldPair_error {s : State} {a b : XNum} {e : Err} (h : s.fieldPair a b = .error e) :
    e = .malformed ∨ e = .notField ∨ e = .crossField := by
  unfold State.fieldPair at h
  rw [except_bind_error] at h
  rcases h with h | ⟨ea, -, h⟩
  · have := fchk_error h
    tauto
  · rw [except_bind_error] at h
    rcases h with h | ⟨eb, -, h⟩
    · have := fchk_error h
      tauto
    · by_cases hm : ea.m = eb.m
      · simp [hm, pure, Except.pure] at h
      · simp only [ne_eq, hm, not_false_eq_true, if_true] at h
        cases h
        tauto

/-! ## The current curve -/

/-- The current curve as the commands use it, when it is legal (R140, R141). -/
def State.currentCurve (s : State) : Curve :=
  ⟨s.curveP.toNat, s.curveA.toNat % s.curveP.toNat, s.curveB.toNat % s.curveP.toNat⟩

theorem State.curve_of_lt {s : State} (h : s.curveP.toNat < 2) : s.curve = .error .badCurve := by
  simp [State.curve, h]

theorem State.curve_of_le {s : State} (h : 2 ≤ s.curveP.toNat) : s.curve = .ok s.currentCurve :=
  State.curve_ok_iff.2 ⟨h, rfl⟩

theorem State.curve_error {s : State} {e : Err} (h : s.curve = .error e) : e = .badCurve ∧ s.curveP.toNat < 2 := by
  unfold State.curve at h
  split at h
  · cases h; exact ⟨rfl, ‹_›⟩
  · cases h

theorem onCurve_current_iff {s : State} (h : 2 ≤ s.curveP.toNat) (q : Point) :
    onCurve q s.currentCurve.a s.currentCurve.b s.currentCurve.p = true ↔ s.OnCurrent q := by
  rw [onCurve_iff (by simp only [State.currentCurve]; omega)]
  exact onEquation_mod _ _ _ _

theorem check_of_on {s : State} (h : 2 ≤ s.curveP.toNat) {q : Point} (hq : s.OnCurrent q) :
    s.currentCurve.check q = .ok q := by
  simp [Curve.check, (onCurve_current_iff h q).2 hq]

theorem check_of_off {s : State} (h : 2 ≤ s.curveP.toNat) {q : Point} (hq : ¬ s.OnCurrent q) :
    s.currentCurve.check q = .error .notOnCurve := by
  rw [Curve.check, if_neg (fun e => hq ((onCurve_current_iff h q).1 e))]

theorem Curve.check_error {c : Curve} {q : Point} {e : Err} (h : c.check q = .error e) : e = .notOnCurve := by
  unfold Curve.check at h
  split at h
  · cases h
  · cases h; rfl

theorem OnEquation.lt {q : Point} {a b p : Nat} (h : OnEquation q a b p) : ∀ x y, q = .aff x y → x < p ∧ y < p := by
  rintro x y rfl
  exact ⟨h.1, h.2.1⟩

theorem State.lt_two_pow_of_lt_curveP {s : State} {q : Point}
    (h : ∀ x y, q = .aff x y → x < s.curveP.toNat ∧ y < s.curveP.toNat) :
    ∀ x y, q = .aff x y → x < 2 ^ 256 ∧ y < 2 ^ 256 := by
  intro x y e
  have := h x y e
  have := s.curveP.isLt
  omega

theorem State.OnCurrent.lt_two_pow {s : State} {q : Point} (h : s.OnCurrent q) :
    ∀ x y, q = .aff x y → x < 2 ^ 256 ∧ y < 2 ^ 256 :=
  State.lt_two_pow_of_lt_curveP (OnEquation.lt h)

end Sys2Proof.Machine
end

