-- ==== Sys2Proof/Laws/Curve.lean ====
section
/-! SUPPORT. The group law and double-and-add of the machine in the terms of `Safety`: the third point of the chord, the
range of the results, the errors, and the two forms of double-and-add. -/

namespace Sys2Proof.Machine

/-! ## Negation and addition -/

theorem negPoint_eq_ecNeg {q : Point} {a b p : Nat} (h : OnEquation q a b p) : negPoint q p = ecNeg q p := by
  cases q with
  | inf => rfl
  | aff x y =>
    have := h.2.1
    simp only [negPoint, ecNeg]
    congr 1
    rw [show ((p : Int) - y) = ((p - y : Nat) : Int) by omega, floorMod_natCast]

theorem negPoint_onEquation {q : Point} {a b p : Nat} (h0 : 0 < p) (h : OnEquation q a b p) :
    OnEquation (negPoint q p) a b p := by
  cases q with
  | inf => trivial
  | aff x y =>
    obtain ⟨h1, h2, h3⟩ := h
    refine ⟨h1, Nat.mod_lt _ h0, ?_⟩
    rw [← h3]
    show ((p - y) % p) ^ 2 % p = _
    rw [← Nat.pow_mod]
    have : ((p - y : Nat) : Int) ^ 2 % p = (y : Int) ^ 2 % p := by
      rw [Nat.cast_sub h2.le, Int.emod_eq_emod_iff_emod_sub_eq_zero, ← Int.dvd_iff_emod_eq_zero]
      exact ⟨p - 2 * y, by ring⟩
    exact_mod_cast this

theorem chord_eq {p x1 y1 x2 num den : Nat} :
    chord x1 y1 x2 num den p = if den = 0 then .error .zeroInverse else .ok (thirdPoint p x1 y1 x2 num den) := by
  split
  · simp [chord, *]
  · rename_i h
    simp only [chord, if_neg h, thirdPoint, fermatInv_eq, floorMod, sq]

theorem chord_lt {p x1 y1 x2 num den x3 y3 : Nat} (hp : 2 ≤ p)
    (h : chord x1 y1 x2 num den p = .ok (.aff x3 y3)) : x3 < p ∧ y3 < p := by
  unfold chord at h
  split at h
  · cases h
  · cases h
    exact ⟨floorMod_lt _ (by omega), floorMod_lt _ (by omega)⟩

/-- A sum of reduced points is reduced. -/
theorem ecAdd_lt {q r t : Point} {a p : Nat} (hp : 2 ≤ p) (h1 : ∀ x y, q = .aff x y → x < p ∧ y < p)
    (h2 : ∀ x y, r = .aff x y → x < p ∧ y < p) (h : ecAdd q r a p = .ok t) :
    ∀ x y, t = .aff x y → x < p ∧ y < p := by
  rintro x y rfl
  cases q with
  | inf => cases h; exact h2 _ _ rfl
  | aff x1 y1 =>
    cases r with
    | inf => cases h; exact h1 _ _ rfl
    | aff x2 y2 =>
      rw [ecAdd] at h
      split at h
      · cases h
      · split at h
        · exact chord_lt hp h
        · exact chord_lt hp h

/-- The only error of an addition. -/
theorem ecAdd_error {q r : Point} {a p : Nat} {e : Err} (h : ecAdd q r a p = .error e) : e = .zeroInverse := by
  cases q with
  | inf => cases h
  | aff x1 y1 =>
    cases r with
    | inf => cases h
    | aff x2 y2 =>
      rw [ecAdd] at h
      simp only [chord_eq] at h
      split_ifs at h <;> cases h <;> rfl

/-! ## Double-and-add -/

theorem bitlen_succ {k : Nat} (h : k ≠ 0) : bitlen k = bitlen (k / 2) + 1 := by
  unfold bitlen
  rw [if_neg h]
  by_cases h2 : k / 2 = 0
  · have : k = 1 := by omega
    subst this
    decide
  · rw [if_neg h2, Nat.log2_def, if_pos (by omega)]

theorem bits_succ {k : Nat} (h : k ≠ 0) : Nat.bits k = decide (k % 2 = 1) :: Nat.bits (k / 2) := by
  have hb : Nat.bit (decide (k % 2 = 1)) (k / 2) = k := by
    rw [Nat.bit_val]
    by_cases h1 : k % 2 = 1 <;> simp [h1] <;> omega
  have := Nat.bits_append_bit (k / 2) (decide (k % 2 = 1)) (by
    intro h0
    have hk : k = 1 := by omega
    simp [hk])
  rwa [hb] at this

theorem foldlM_bits_eq_ecMulLoop (a p : Nat) : ∀ (n k : Nat), k ≤ n → ∀ acc dbl,
    ((Nat.bits k).foldlM
      (fun (st : Point × Point) (bit : Bool) => do
        let acc ← if bit then ecAdd st.1 st.2 a p else .ok st.1
        let dbl ← ecAdd st.2 st.2 a p
        return (acc, dbl))
      (acc, dbl) >>= fun e => (pure e.1 : Except Err Point)) = ecMulLoop a p (bitlen k) acc dbl k := by
  intro n
  induction n with
  | zero =>
    intro k hk acc dbl
    obtain rfl : k = 0 := by omega
    rfl
  | succ n ih =>
    intro k hk acc dbl
    by_cases h0 : k = 0
    · subst h0; rfl
    · rw [bits_succ h0, bitlen_succ h0, ecMulLoop, List.foldlM_cons]
      by_cases h1 : k % 2 = 1
      · simp only [h1, if_true, decide_true]
        rcases ecAdd acc dbl a p with e | acc'
        · rfl
        · simp only [except_ok_bind]
          rcases ecAdd dbl dbl a p with e | dbl'
          · rfl
          · exact ih (k / 2) (by omega) acc' dbl'
      · simp only [h1, if_false, decide_false, Bool.false_eq_true, except_ok_bind]
        rcases ecAdd dbl dbl a p with e | dbl'
        · rfl
        · exact ih (k / 2) (by omega) acc dbl'

/-- The claims' double-and-add over a list of bits is the machine's loop. -/
theorem doubleAndAdd_eq_ecMul (k : Nat) (q : Point) (a p : Nat) : doubleAndAdd k q a p = ecMul k q a p :=
  foldlM_bits_eq_ecMulLoop a p k k le_rfl _ _

theorem ecMulLoop_lt {a p : Nat} (hp : 2 ≤ p) : ∀ (n : Nat) {acc dbl t : Point} (j : Nat),
    (∀ x y, acc = .aff x y → x < p ∧ y < p) → (∀ x y, dbl = .aff x y → x < p ∧ y < p) →
    ecMulLoop a p n acc dbl j = .ok t → ∀ x y, t = .aff x y → x < p ∧ y < p
  | 0, acc, dbl, t, j, h1, h2, h => by cases h; exact h1
  | n + 1, acc, dbl, t, j, h1, h2, h => by
    rw [ecMulLoop] at h
    split at h <;> simp only [except_bind_ok] at h
    · obtain ⟨acc', e1, dbl', e2, h⟩ := h
      exact ecMulLoop_lt hp n _ (ecAdd_lt hp h1 h2 e1) (ecAdd_lt hp h2 h2 e2) h
    · obtain ⟨acc', e1, dbl', e2, h⟩ := h
      cases e1
      exact ecMulLoop_lt hp n _ h1 (ecAdd_lt hp h2 h2 e2) h

/-- A multiple of a reduced point is reduced. -/
theorem ecMul_lt {a p k : Nat} {q t : Point} (hp : 2 ≤ p) (hq : ∀ x y, q = .aff x y → x < p ∧ y < p)
    (h : ecMul k q a p = .ok t) : ∀ x y, t = .aff x y → x < p ∧ y < p :=
  ecMulLoop_lt hp _ _ (fun _ _ h => by cases h) hq h

theorem ecMulLoop_error {a p : Nat} : ∀ (n : Nat) {acc dbl : Point} {e : Err} (j : Nat),
    ecMulLoop a p n acc dbl j = .error e → e = .zeroInverse
  | 0, acc, dbl, e, j, h => by cases h
  | n + 1, acc, dbl, e, j, h => by
    rw [ecMulLoop] at h
    split at h <;> simp only [except_bind_error] at h
    · rcases h with h | ⟨acc', e1, h | ⟨dbl', e2, h⟩⟩
      · exact ecAdd_error h
      · exact ecAdd_error h
      · exact ecMulLoop_error n _ h
    · rcases h with h | ⟨acc', e1, h | ⟨dbl', e2, h⟩⟩
      · cases h
      · exact ecAdd_error h
      · exact ecMulLoop_error n _ h

/-- The only error of double-and-add. -/
theorem ecMul_error {a p k : Nat} {q : Point} {e : Err} (h : ecMul k q a p = .error e) : e = .zeroInverse :=
  ecMulLoop_error _ _ h

theorem ecMulLoop_inf {a p : Nat} : ∀ (n j : Nat), ecMulLoop a p n .inf .inf j = .ok .inf
  | 0, _ => rfl
  | n + 1, j => by
    rw [ecMulLoop]
    have := ecMulLoop_inf (a := a) (p := p) n (j / 2)
    split <;> exact this

theorem ecMul_inf {a p : Nat} (k : Nat) : ecMul k .inf a p = .ok .inf := ecMulLoop_inf _ _

end Sys2Proof.Machine
end

