-- ==== Sys2Proof/Laws/Decode.lean ====
section
/-! SUPPORT. The fields of an encoded word are the fields it was made of (R81, R83), and a register number is read back
from its field (R84). -/

namespace Sys2Proof

/-- The bits of a format R word, field by field (R81). -/
theorem formatR_getLsbD (op : BitVec 8) (neg : BitVec 1) (fd fc fb fa : BitVec 4) (i : Nat) :
    (formatR op neg fd fc fb fa).getLsbD i =
      if i < 8 then op.getLsbD i else if i < 12 then fa.getLsbD (i - 8) else if i < 16 then fb.getLsbD (i - 12)
      else if i < 20 then fc.getLsbD (i - 16) else if i < 24 then fd.getLsbD (i - 20)
      else if i < 25 then neg.getLsbD (i - 24) else false := by
  have h : (formatR op neg fd fc fb fa).getLsbD i =
    (0#7 ++ neg ++ fd ++ fc ++ fb ++ fa ++ op : BitVec (7 + 1 + 4 + 4 + 4 + 4 + 8)).getLsbD i := rfl
  rw [h]
  simp only [BitVec.getLsbD_append, BitVec.getLsbD_zero]
  split_ifs <;> first | rfl | omega

/-- The bits of a format I word, field by field (R83). -/
theorem formatI_getLsbD (op : BitVec 8) (imm : BitVec 16) (fa : BitVec 4) (i : Nat) :
    (formatI op imm fa).getLsbD i =
      if i < 8 then op.getLsbD i else if i < 12 then fa.getLsbD (i - 8) else if i < 16 then false
      else imm.getLsbD (i - 16) := by
  have h : (formatI op imm fa).getLsbD i = (imm ++ 0#4 ++ fa ++ op : BitVec (16 + 4 + 4 + 8)).getLsbD i := rfl
  rw [h]
  simp only [BitVec.getLsbD_append, BitVec.getLsbD_zero]
  split_ifs <;> first | rfl | omega

@[simp] theorem opField_formatR (op : BitVec 8) (neg : BitVec 1) (fd fc fb fa : BitVec 4) :
    opField (formatR op neg fd fc fb fa) = op := by
  apply BitVec.eq_of_getLsbD_eq
  intro i hi
  simp [opField, formatR_getLsbD, hi]

@[simp] theorem faField_formatR (op : BitVec 8) (neg : BitVec 1) (fd fc fb fa : BitVec 4) :
    faField (formatR op neg fd fc fb fa) = fa := by
  apply BitVec.eq_of_getLsbD_eq
  intro i hi
  simp [faField, formatR_getLsbD, hi, show ¬ 8 + i < 8 by omega, show 8 + i < 12 by omega]

@[simp] theorem fbField_formatR (op : BitVec 8) (neg : BitVec 1) (fd fc fb fa : BitVec 4) :
    fbField (formatR op neg fd fc fb fa) = fb := by
  apply BitVec.eq_of_getLsbD_eq
  intro i hi
  simp [fbField, formatR_getLsbD, hi, show ¬ 12 + i < 8 by omega, show ¬ 12 + i < 12 by omega, show 12 + i < 16 by omega]

@[simp] theorem fcField_formatR (op : BitVec 8) (neg : BitVec 1) (fd fc fb fa : BitVec 4) :
    fcField (formatR op neg fd fc fb fa) = fc := by
  apply BitVec.eq_of_getLsbD_eq
  intro i hi
  simp [fcField, formatR_getLsbD, hi, show ¬ 16 + i < 8 by omega, show ¬ 16 + i < 12 by omega, show ¬ 16 + i < 16 by omega, show 16 + i < 20 by omega]

@[simp] theorem fdField_formatR (op : BitVec 8) (neg : BitVec 1) (fd fc fb fa : BitVec 4) :
    fdField (formatR op neg fd fc fb fa) = fd := by
  apply BitVec.eq_of_getLsbD_eq
  intro i hi
  simp [fdField, formatR_getLsbD, hi, show ¬ 20 + i < 8 by omega, show ¬ 20 + i < 12 by omega, show ¬ 20 + i < 16 by omega, show ¬ 20 + i < 20 by omega, show 20 + i < 24 by omega]

@[simp] theorem negField_formatR (op : BitVec 8) (neg : BitVec 1) (fd fc fb fa : BitVec 4) :
    negField (formatR op neg fd fc fb fa) = neg := by
  apply BitVec.eq_of_getLsbD_eq
  intro i hi
  simp [negField, formatR_getLsbD, hi, show ¬ 24 + i < 8 by omega, show ¬ 24 + i < 12 by omega, show ¬ 24 + i < 16 by omega, show ¬ 24 + i < 20 by omega, show ¬ 24 + i < 24 by omega, show 24 + i < 25 by omega]

@[simp] theorem rsvField_formatR (op : BitVec 8) (neg : BitVec 1) (fd fc fb fa : BitVec 4) :
    rsvField (formatR op neg fd fc fb fa) = 0#7 := by
  apply BitVec.eq_of_getLsbD_eq
  intro i hi
  simp [rsvField, formatR_getLsbD, hi, show ¬ 25 + i < 8 by omega, show ¬ 25 + i < 12 by omega, show ¬ 25 + i < 16 by omega, show ¬ 25 + i < 20 by omega, show ¬ 25 + i < 24 by omega, show ¬ 25 + i < 25 by omega]

@[simp] theorem opField_formatI (op : BitVec 8) (imm : BitVec 16) (fa : BitVec 4) :
    opField (formatI op imm fa) = op := by
  apply BitVec.eq_of_getLsbD_eq
  intro i hi
  simp [opField, formatI_getLsbD, hi]

@[simp] theorem faField_formatI (op : BitVec 8) (imm : BitVec 16) (fa : BitVec 4) :
    faField (formatI op imm fa) = fa := by
  apply BitVec.eq_of_getLsbD_eq
  intro i hi
  simp [faField, formatI_getLsbD, hi, show ¬ 8 + i < 8 by omega, show 8 + i < 12 by omega]

@[simp] theorem fbField_formatI (op : BitVec 8) (imm : BitVec 16) (fa : BitVec 4) :
    fbField (formatI op imm fa) = 0#4 := by
  apply BitVec.eq_of_getLsbD_eq
  intro i hi
  simp [fbField, formatI_getLsbD, hi, show ¬ 12 + i < 8 by omega, show ¬ 12 + i < 12 by omega, show 12 + i < 16 by omega]

@[simp] theorem immField_formatI (op : BitVec 8) (imm : BitVec 16) (fa : BitVec 4) :
    immField (formatI op imm fa) = imm := by
  apply BitVec.eq_of_getLsbD_eq
  intro i hi
  simp [immField, formatI_getLsbD, hi, show ¬ 16 + i < 8 by omega, show ¬ 16 + i < 12 by omega, show ¬ 16 + i < 16 by omega]

@[simp] theorem xClass_xBits (r : XNum) : xClass (xBits r) = r := rfl

@[simp] theorem xBits_xClass (f : BitVec 4) : xBits (xClass f) = f := rfl

@[simp] theorem pClass_pBits (r : PNum) : pClass (pBits r) = .ok r := by
  revert r; decide

@[simp] theorem kClass_kBits (k : Konst) : kClass (kBits k) = .ok k := by
  cases k <;> rfl

/-- A field read as a P register number is the field of that number (R84). -/
theorem pBits_of_pClass {f : BitVec 4} {r : PNum} (h : pClass f = .ok r) : pBits r = f := by
  revert f r; decide

/-- A field read as an `LDK` index is the field of that index (R103). -/
theorem kBits_of_kClass {f : BitVec 4} {k : Konst} (h : kClass f = .ok k) : kBits k = f := by
  have key : ∀ f : BitVec 4, (match kClass f with | .ok k => decide (kBits k = f) | .error _ => true) = true := by
    decide
  have := key f
  rw [h] at this
  exact of_decide_eq_true this

@[simp] theorem negBits_beq (b : BitVec 1) : negBits (b == 1#1) = b := by
  revert b; decide

@[simp] theorem beq_negBits (neg : Bool) : (negBits neg == 1#1) = neg := by
  cases neg <;> rfl

@[simp] theorem needZero_ok {f : BitVec 4} {u : Unit} : needZero f = .ok u ↔ f = 0#4 := by
  unfold needZero; split <;> simp_all

@[simp] theorem needReservedZero_ok {w : Word32} {u : Unit} : needReservedZero w = .ok u ↔ rsvField w = 0#7 := by
  unfold needReservedZero; split <;> simp_all

@[simp] theorem needNegZero_ok {w : Word32} {u : Unit} : needNegZero w = .ok u ↔ negField w = 0#1 := by
  unfold needNegZero; split <;> simp_all

/-- A word is the format R word of its fields when its reserved bits are 0 (R81). -/
theorem formatR_fields (w : Word32) (h : rsvField w = 0#7) :
    formatR (opField w) (negField w) (fdField w) (fcField w) (fbField w) (faField w) = w := by
  apply BitVec.eq_of_getLsbD_eq
  intro i hi
  rw [formatR_getLsbD]
  have hr : 25 ≤ i → w.getLsbD i = false := by
    intro hi2
    have := congrArg (fun v => v.getLsbD (i - 25)) h
    simp only [rsvField, BitVec.getLsbD_extractLsb', BitVec.getLsbD_zero] at this
    rwa [show 25 + (i - 25) = i by omega, decide_eq_true (by omega : i - 25 < 7), Bool.true_and] at this
  split_ifs with h1 h2 h3 h4 h5 h6
  · simp [opField, h1]
  · simp [faField, show 8 + (i - 8) = i by omega, show i - 8 < 4 by omega]
  · simp [fbField, show 12 + (i - 12) = i by omega, show i - 12 < 4 by omega]
  · simp [fcField, show 16 + (i - 16) = i by omega, show i - 16 < 4 by omega]
  · simp [fdField, show 20 + (i - 20) = i by omega, show i - 20 < 4 by omega]
  · simp [negField, show 24 + (i - 24) = i by omega, show i - 24 < 1 by omega]
  · exact (hr (by omega)).symm

/-- A word is the format I word of its fields when bits 15:12 are 0 (R83). -/
theorem formatI_fields (w : Word32) (h : fbField w = 0#4) : formatI (opField w) (immField w) (faField w) = w := by
  apply BitVec.eq_of_getLsbD_eq
  intro i hi
  rw [formatI_getLsbD]
  have hr : 12 ≤ i → i < 16 → w.getLsbD i = false := by
    intro h1 h2
    have := congrArg (fun v => v.getLsbD (i - 12)) h
    simp only [fbField, BitVec.getLsbD_extractLsb', BitVec.getLsbD_zero] at this
    rwa [show 12 + (i - 12) = i by omega, decide_eq_true (by omega : i - 12 < 4), Bool.true_and] at this
  split_ifs with h1 h2 h3
  · simp [opField, h1]
  · simp [faField, show 8 + (i - 8) = i by omega, show i - 8 < 4 by omega]
  · exact (hr (by omega) h3).symm
  · simp [immField, show 16 + (i - 16) = i by omega, show i - 16 < 16 by omega]

end Sys2Proof
end

