-- ==== Sys2Proof/Laws/PerInstr.lean ====
section
/-! SUPPORT. A family of statements about every command as syntax: the opcode byte of its word is the opcode of its
row. -/

namespace Sys2Proof

/-- The word of the command carries the opcode of the command's row (R81, R83, R86). -/
def Laws.OpcodeField.Statement (i : Instr) : Prop := opField (encode i) = opcode i

theorem Laws.OpcodeField.nop : Laws.OpcodeField.Statement .nop := opField_formatR _ _ _ _ _ _

theorem Laws.OpcodeField.mov (d s : XNum) : Laws.OpcodeField.Statement (.mov d s) := opField_formatR _ _ _ _ _ _

theorem Laws.OpcodeField.ldi (d : XNum) (imm : BitVec 16) : Laws.OpcodeField.Statement (.ldi d imm) := opField_formatI _ _ _

theorem Laws.OpcodeField.ldk (d : XNum) (k : Konst) : Laws.OpcodeField.Statement (.ldk d k) := opField_formatR _ _ _ _ _ _

theorem Laws.OpcodeField.fint (d s : XNum) : Laws.OpcodeField.Statement (.fint d s) := opField_formatR _ _ _ _ _ _

theorem Laws.OpcodeField.fred (d v m : XNum) : Laws.OpcodeField.Statement (.fred d v m) := opField_formatR _ _ _ _ _ _

theorem Laws.OpcodeField.fadd (d a b : XNum) : Laws.OpcodeField.Statement (.fadd d a b) := opField_formatR _ _ _ _ _ _

theorem Laws.OpcodeField.fsub (d a b : XNum) : Laws.OpcodeField.Statement (.fsub d a b) := opField_formatR _ _ _ _ _ _

theorem Laws.OpcodeField.fmul (d a b : XNum) : Laws.OpcodeField.Statement (.fmul d a b) := opField_formatR _ _ _ _ _ _

theorem Laws.OpcodeField.fdiv (d a b : XNum) : Laws.OpcodeField.Statement (.fdiv d a b) := opField_formatR _ _ _ _ _ _

theorem Laws.OpcodeField.finv (d a : XNum) : Laws.OpcodeField.Statement (.finv d a) := opField_formatR _ _ _ _ _ _

theorem Laws.OpcodeField.fpow (neg : Bool) (d a e : XNum) : Laws.OpcodeField.Statement (.fpow neg d a e) := opField_formatR _ _ _ _ _ _

theorem Laws.OpcodeField.feq (a b : XNum) : Laws.OpcodeField.Statement (.feq a b) := opField_formatR _ _ _ _ _ _

theorem Laws.OpcodeField.pinf (d : PNum) : Laws.OpcodeField.Statement (.pinf d) := opField_formatR _ _ _ _ _ _

theorem Laws.OpcodeField.pgen (d : PNum) : Laws.OpcodeField.Statement (.pgen d) := opField_formatR _ _ _ _ _ _

theorem Laws.OpcodeField.pset (d : PNum) (x y : XNum) : Laws.OpcodeField.Statement (.pset d x y) := opField_formatR _ _ _ _ _ _

theorem Laws.OpcodeField.pmov (d s : PNum) : Laws.OpcodeField.Statement (.pmov d s) := opField_formatR _ _ _ _ _ _

theorem Laws.OpcodeField.pgx (d : XNum) (s : PNum) : Laws.OpcodeField.Statement (.pgx d s) := opField_formatR _ _ _ _ _ _

theorem Laws.OpcodeField.pgy (d : XNum) (s : PNum) : Laws.OpcodeField.Statement (.pgy d s) := opField_formatR _ _ _ _ _ _

theorem Laws.OpcodeField.pchk (s : PNum) : Laws.OpcodeField.Statement (.pchk s) := opField_formatR _ _ _ _ _ _

theorem Laws.OpcodeField.peq (a b : PNum) : Laws.OpcodeField.Statement (.peq a b) := opField_formatR _ _ _ _ _ _

theorem Laws.OpcodeField.pneg (d s : PNum) : Laws.OpcodeField.Statement (.pneg d s) := opField_formatR _ _ _ _ _ _

theorem Laws.OpcodeField.padd (d a b : PNum) : Laws.OpcodeField.Statement (.padd d a b) := opField_formatR _ _ _ _ _ _

theorem Laws.OpcodeField.pdbl (d s : PNum) : Laws.OpcodeField.Statement (.pdbl d s) := opField_formatR _ _ _ _ _ _

theorem Laws.OpcodeField.pmul (neg : Bool) (d s : PNum) (k : XNum) : Laws.OpcodeField.Statement (.pmul neg d s k) := opField_formatR _ _ _ _ _ _

theorem Laws.OpcodeField.kgen (d : XNum) : Laws.OpcodeField.Statement (.kgen d) := opField_formatR _ _ _ _ _ _

theorem Laws.OpcodeField.pubk (d : PNum) (k : XNum) : Laws.OpcodeField.Statement (.pubk d k) := opField_formatR _ _ _ _ _ _

theorem Laws.OpcodeField.sign (r s d z : XNum) : Laws.OpcodeField.Statement (.sign r s d z) := opField_formatR _ _ _ _ _ _

theorem Laws.OpcodeField.vrfy (q : PNum) (z r s : XNum) : Laws.OpcodeField.Statement (.vrfy q z r s) := opField_formatR _ _ _ _ _ _

end Sys2Proof
end

