-- ==== Sys2Proof/Laws/Prime.lean ====
section
/-! SUPPORT. `ROM.p` and `ROM.n` are prime (93_implementation_defined.md K4): Pocklington's criterion, and the chain of
certificates, each checked by the kernel with the model's own `powmod`. -/

set_option Elab.async false

namespace Sys2Proof.Machine

/-- Pocklington's step: a prime `q` of `n - 1` that passes the test for the base `a` divides `p - 1` for the least
prime factor `p` of `n`. -/
theorem pocklington_dvd {n a q : ℕ} (hn : 1 < n) (hq : q.Prime) (hd : q ∣ n - 1) (h1 : powmod a (n - 1) n = 1)
    (h2 : Nat.gcd (powmod a ((n - 1) / q) n + (n - 1)) n = 1) : q ∣ n.minFac - 1 := by
  have hp : n.minFac.Prime := Nat.minFac_prime (by omega)
  have := Fact.mk hp
  have hpn : n.minFac ∣ n := Nat.minFac_dvd n
  have cast_mod : ∀ k : ℕ, ((k % n : ℕ) : ZMod n.minFac) = k := fun k => by
    rw [ZMod.natCast_eq_natCast_iff]
    exact (Nat.mod_modEq k n).of_dvd hpn
  have cast_pow : ∀ e : ℕ, ((powmod a e n : ℕ) : ZMod n.minFac) = (a : ZMod n.minFac) ^ e := fun e => by
    rw [powmod_eq, cast_mod]; push_cast; rfl
  have e1 : (a : ZMod n.minFac) ^ (n - 1) = 1 := by rw [← cast_pow, h1]; simp
  have e2 : (a : ZMod n.minFac) ^ ((n - 1) / q) ≠ 1 := by
    intro h
    rw [← cast_pow] at h
    have hz : ((powmod a ((n - 1) / q) n + (n - 1) : ℕ) : ZMod n.minFac) = 0 := by
      have : ((n : ℕ) : ZMod n.minFac) = 0 := (ZMod.natCast_eq_zero_iff _ _).2 hpn
      rw [Nat.cast_add, h, Nat.cast_sub (by omega), this]
      simp
    have : n.minFac ∣ Nat.gcd (powmod a ((n - 1) / q) n + (n - 1)) n :=
      Nat.dvd_gcd ((ZMod.natCast_eq_zero_iff _ _).1 hz) hpn
    rw [h2] at this
    exact hp.one_lt.ne' (Nat.dvd_one.1 this)
  have hu : (a : ZMod n.minFac) ≠ 0 := by
    intro h
    rw [h, zero_pow (by omega)] at e1
    exact zero_ne_one e1
  have hord : orderOf (a : ZMod n.minFac) ∣ n - 1 := orderOf_dvd_of_pow_eq_one e1
  have hnot : ¬ orderOf (a : ZMod n.minFac) ∣ (n - 1) / q := fun h => e2 (orderOf_dvd_iff_pow_eq_one.1 h)
  have hqo : q ∣ orderOf (a : ZMod n.minFac) := by
    by_contra h
    apply hnot
    obtain ⟨c, hc⟩ := hord
    have hco : Nat.Coprime q (orderOf (a : ZMod n.minFac)) := (Nat.Prime.coprime_iff_not_dvd hq).2 h
    have : q ∣ c := hco.dvd_of_dvd_mul_left (hc ▸ hd)
    obtain ⟨d, rfl⟩ := this
    rw [hc, Nat.mul_left_comm, Nat.mul_div_cancel_left _ hq.pos]
    exact Dvd.intro _ rfl
  exact hqo.trans (orderOf_dvd_of_pow_eq_one (ZMod.pow_card_sub_one_eq_one hu))

/-- Pocklington's criterion: a factor `f` of `p - 1`, for the least prime factor `p` of `n`, with `n <= f ^ 2`. -/
theorem prime_of_minFac {n f : ℕ} (hn : 1 < n) (hf : f ∣ n.minFac - 1) (hlt : n ≤ f * f) : n.Prime := by
  have hp : n.minFac.Prime := Nat.minFac_prime (by omega)
  have hle : f ≤ n.minFac - 1 := Nat.le_of_dvd (by have := hp.two_le; omega) hf
  by_contra h
  have := Nat.minFac_sq_le_self (by omega) h
  have h2 : f * f < n.minFac ^ 2 := by
    rw [sq]; exact Nat.mul_lt_mul'' (by have := hp.two_le; omega) (by have := hp.two_le; omega)
  omega

/-- One prime factor above the square root. -/
theorem pocklington1 {n q : ℕ} (hq : q.Prime) (h : 1 < n ∧ q ∣ n - 1 ∧ n ≤ q * q ∧ powmod 2 (n - 1) n = 1 ∧
    Nat.gcd (powmod 2 ((n - 1) / q) n + (n - 1)) n = 1) : n.Prime :=
  prime_of_minFac h.1 (pocklington_dvd h.1 hq h.2.1 h.2.2.2.1 h.2.2.2.2) h.2.2.1

/-- Two prime factors. -/
theorem pocklington2 {n q r : ℕ} (hq : q.Prime) (hr : r.Prime) (h : 1 < n ∧ q ≠ r ∧ q ∣ n - 1 ∧ r ∣ n - 1 ∧
    n ≤ q * r * (q * r) ∧ powmod 2 (n - 1) n = 1 ∧ Nat.gcd (powmod 2 ((n - 1) / q) n + (n - 1)) n = 1 ∧
    Nat.gcd (powmod 2 ((n - 1) / r) n + (n - 1)) n = 1) : n.Prime := by
  obtain ⟨h1, hne, d1, d2, hle, hp, g1, g2⟩ := h
  exact prime_of_minFac h1 (((Nat.coprime_primes hq hr).2 hne).mul_dvd_of_dvd_of_dvd
    (pocklington_dvd h1 hq d1 hp g1) (pocklington_dvd h1 hr d2 hp g2)) hle

/-- Three prime factors. -/
theorem pocklington3 {n q r t : ℕ} (hq : q.Prime) (hr : r.Prime) (ht : t.Prime)
    (h : 1 < n ∧ q ≠ r ∧ q ≠ t ∧ r ≠ t ∧ q ∣ n - 1 ∧ r ∣ n - 1 ∧ t ∣ n - 1 ∧
    n ≤ q * r * t * (q * r * t) ∧ powmod 2 (n - 1) n = 1 ∧ Nat.gcd (powmod 2 ((n - 1) / q) n + (n - 1)) n = 1 ∧
    Nat.gcd (powmod 2 ((n - 1) / r) n + (n - 1)) n = 1 ∧
    Nat.gcd (powmod 2 ((n - 1) / t) n + (n - 1)) n = 1) : n.Prime := by
  obtain ⟨h1, n1, n2, n3, d1, d2, d3, hle, hp, g1, g2, g3⟩ := h
  refine prime_of_minFac h1 (Nat.Coprime.mul_dvd_of_dvd_of_dvd ?_ (((Nat.coprime_primes hq hr).2 n1).mul_dvd_of_dvd_of_dvd
    (pocklington_dvd h1 hq d1 hp g1) (pocklington_dvd h1 hr d2 hp g2)) (pocklington_dvd h1 ht d3 hp g3)) hle
  exact Nat.Coprime.mul_left ((Nat.coprime_primes hq ht).2 n2) ((Nat.coprime_primes hr ht).2 n3)

/-! ## The certificates -/

theorem prime_20113 : Nat.Prime 20113 := by norm_num

theorem prime_1206781 : Nat.Prime 1206781 := pocklington1 prime_20113 (by decide +kernel)

theorem prime_7240687 : Nat.Prime 7240687 := pocklington1 prime_1206781 (by decide +kernel)

theorem prime_107590001 : Nat.Prime 107590001 :=
  pocklington3 (q := 53) (r := 29) (t := 7) (by norm_num) (by norm_num) (by norm_num) (by decide +kernel)

theorem prime_96557 : Nat.Prime 96557 := by norm_num

theorem prime_127_bit : Nat.Prime 255515944373312847190720520512484175977 :=
  pocklington3 prime_107590001 prime_7240687 prime_96557 (by decide +kernel)

theorem prime_237_bit : Nat.Prime 205115282021455665897114700593932402728804164701536103180137503955397371 :=
  pocklington1 prime_127_bit (by decide +kernel)

/-- `ROM.p` is prime (R170). -/
theorem romP_prime : Nat.Prime Config.romP.toNat := pocklington1 prime_237_bit (by decide +kernel)

theorem prime_1627771 : Nat.Prime 1627771 := pocklington1 (q := 1871) (by norm_num) (by decide +kernel)

theorem prime_297159362677 : Nat.Prime 297159362677 := pocklington1 prime_1627771 (by decide +kernel)

theorem prime_545358713 : Nat.Prime 545358713 := pocklington1 (q := 28181) (by norm_num) (by decide +kernel)

theorem prime_95_bit : Nat.Prime 29047611873442575647497758179 :=
  pocklington2 prime_297159362677 prime_545358713 (by decide +kernel)

theorem prime_109_bit : Nat.Prime 341948486974166000522343609283189 := pocklington1 prime_95_bit (by decide +kernel)

theorem prime_44706919 : Nat.Prime 44706919 := pocklington1 (q := 9349) (by norm_num) (by decide +kernel)

theorem prime_120233 : Nat.Prime 120233 := by norm_num

theorem prime_77_bit : Nat.Prime 174723607534414371449 := pocklington2 prime_44706919 prime_120233 (by decide +kernel)

/-- `ROM.n` is prime (R170, K4). -/
theorem romN_prime : Nat.Prime Config.romN.toNat := pocklington2 prime_109_bit prime_77_bit (by decide +kernel)

end Sys2Proof.Machine
end

