-- ==== Sys2Proof/Laws/Secp.lean ====
section
/-! SUPPORT. The ROM curve: it is nonsingular, `G` has order `n`, and `n` is the number of its points (cofactor `h = 1`,
R27), so `n*Q = INF` for every point. The order is computed without inverses, in Jacobian coordinates. -/

set_option Elab.async false

namespace Sys2Proof.Machine

open WeierstrassCurve

/-! ## Multiples of a point without inverses -/

/-- Twice a point in Jacobian coordinates, on a curve with `a = 0`; none if the result is at infinity. -/
def jacDouble (p : ℕ) (q : ℕ × ℕ × ℕ) : Option (ℕ × ℕ × ℕ) :=
  let s := 4 * q.1 * q.2.1 ^ 2 % p
  let m := 3 * q.1 ^ 2 % p
  let x := (m ^ 2 + 2 * (p - s)) % p
  let y := (m * (s + (p - x)) + (p - 8 * q.2.1 ^ 4 % p)) % p
  let z := 2 * q.2.1 * q.2.2 % p
  if x < p ∧ y < p ∧ z ≠ 0 then some (x, y, z) else none

/-- The sum with an affine point; none if the result is at infinity or the points have one `x`. -/
def jacAdd (p gx gy : ℕ) (q : ℕ × ℕ × ℕ) : Option (ℕ × ℕ × ℕ) :=
  let h := (gx * q.2.2 ^ 2 + (p - q.1 % p)) % p
  let r := (gy * q.2.2 ^ 3 + (p - q.2.1 % p)) % p
  let v := q.1 * h ^ 2 % p
  let c := h ^ 3 % p
  let x := (r ^ 2 + (p - c) + 2 * (p - v)) % p
  let y := (r * (v + (p - x)) + (p - q.2.1 * c % p)) % p
  let z := q.2.2 * h % p
  if x < p ∧ y < p ∧ z ≠ 0 then some (x, y, z) else none

/-- `k` times an affine point, for `2 ^ b <= k < 2 ^ (b + 1)`. -/
def jacMul (p gx gy : ℕ) : ℕ → ℕ → Option (ℕ × ℕ × ℕ)
  | 0, _ => some (gx, gy, 1)
  | b + 1, k =>
    match jacMul p gx gy b (k / 2) with
    | none => none
    | some q =>
      match jacDouble p q with
      | none => none
      | some d => if k % 2 = 1 then jacAdd p gx gy d else some d

variable {b p : ℕ} [hF : Fact p.Prime]

/-- The Jacobian coordinates `q` stand for the point `P`. -/
def JacRep (b p : ℕ) (q : ℕ × ℕ × ℕ) (P : (shortCurve 0 b p).Point) : Prop :=
  (q.2.2 : ZMod p) ≠ 0 ∧ ∃ x y h, P = .some x y h ∧
    x * (q.2.2 : ZMod p) ^ 2 = q.1 ∧ y * (q.2.2 : ZMod p) ^ 3 = q.2.1

theorem cast_sub_of_lt {x : ℕ} (h : x < p) : ((p - x : ℕ) : ZMod p) = -(x : ZMod p) := by
  rw [Nat.cast_sub h.le, ZMod.natCast_self, zero_sub]

theorem cast_ne_zero_of_mod {z : ℕ} (h : z % p ≠ 0) : (z : ZMod p) ≠ 0 := by
  rw [Ne, ZMod.natCast_eq_zero_iff, Nat.dvd_iff_mod_eq_zero]
  exact h

theorem JacRep.double {q d : ℕ × ℕ × ℕ} {P : (shortCurve 0 b p).Point} (h : JacRep b p q P)
    (hd : jacDouble p q = some d) : JacRep b p d (P + P) := by
  have hp := hF.out.pos
  obtain ⟨X, Y, Z⟩ := q
  obtain ⟨hz, x, y, hn, rfl, ex, ey⟩ := h
  simp only at hz ex ey
  simp only [jacDouble] at hd
  split at hd
  case isFalse => cases hd
  rename_i hc
  obtain ⟨_, _, hz'⟩ := hc
  obtain rfl := Option.some.inj hd
  have hz2 := cast_ne_zero_of_mod hz'
  push_cast at hz2
  have hy2 : (2 : ZMod p) * y ≠ 0 := by
    intro h0
    apply hz2
    rw [← ey]
    linear_combination (Z : ZMod p) ^ 4 * h0
  have hyn : y ≠ (shortCurve 0 b p).negY x y := by
    rw [negY_short]
    intro h0
    exact hy2 (by linear_combination h0)
  have hs : (shortCurve 0 b p).slope x x y y * (2 * y) = 3 * x ^ 2 := by
    rw [Affine.slope_of_Y_ne rfl hyn, negY_short]
    have : y - -y = 2 * y := by ring
    rw [this, div_mul_cancel₀ _ hy2]
    simp [shortCurve]
  refine ⟨?_, ?_⟩
  · simp only [ZMod.natCast_mod]; push_cast; exact hz2
  rw [Affine.Point.add_self_of_Y_ne hyn]
  refine ⟨_, _, _, rfl, ?_, ?_⟩
  · simp only [ZMod.natCast_mod, Nat.cast_add, Nat.cast_mul, Nat.cast_pow, cast_sub_of_lt (Nat.mod_lt _ hp)]
    push_cast
    simp only [Affine.addX]
    generalize (shortCurve 0 b p).slope x x y y = l at hs
    simp only [shortCurve]
    rw [← ex, ← ey]
    linear_combination (Z : ZMod p) ^ 8 * (l * (2 * y) + 3 * x ^ 2) * hs
  · simp only [ZMod.natCast_mod, Nat.cast_add, Nat.cast_mul, Nat.cast_pow, cast_sub_of_lt (Nat.mod_lt _ hp)]
    push_cast
    simp only [Affine.addY, Affine.negAddY, Affine.addX, negY_short]
    generalize (shortCurve 0 b p).slope x x y y = l at hs
    simp only [shortCurve]
    rw [← ex, ← ey]
    linear_combination (Z : ZMod p) ^ 12 * (12 * x * y ^ 2 - ((l * (2 * y)) ^ 2 + l * (2 * y) * (3 * x ^ 2) +
      (3 * x ^ 2) ^ 2)) * hs

theorem JacRep.add {gx gy : ℕ} {q d : ℕ × ℕ × ℕ} {P G : (shortCurve 0 b p).Point} (h : JacRep b p q P)
    (hg : Rep 0 b p (.aff gx gy) G) (hd : jacAdd p gx gy q = some d) : JacRep b p d (P + G) := by
  have hp := hF.out.pos
  obtain ⟨X, Y, Z⟩ := q
  obtain ⟨hz, x, y, hn, rfl, ex, ey⟩ := h
  obtain ⟨_, _, hgn, rfl⟩ := hg
  simp only at hz ex ey
  simp only [jacAdd] at hd
  split at hd
  case isFalse => cases hd
  rename_i hc
  obtain ⟨_, _, hz'⟩ := hc
  obtain rfl := Option.some.inj hd
  have hz2 := cast_ne_zero_of_mod hz'
  simp only [ZMod.natCast_mod, Nat.cast_add, Nat.cast_mul, Nat.cast_pow, cast_sub_of_lt (Nat.mod_lt _ hp)] at hz2
  have hx : x ≠ gx := by
    intro h0
    apply hz2
    rw [← ex, h0]
    ring
  have hs : (shortCurve 0 b p).slope x gx y gy * (x - gx) = y - gy := by
    rw [Affine.slope_of_X_ne hx, div_mul_cancel₀ _ (sub_ne_zero.2 hx)]
  refine ⟨?_, ?_⟩
  · simp only [ZMod.natCast_mod, Nat.cast_add, Nat.cast_mul, Nat.cast_pow, cast_sub_of_lt (Nat.mod_lt _ hp)]
    exact hz2
  rw [Affine.Point.add_of_X_ne hx]
  refine ⟨_, _, _, rfl, ?_, ?_⟩
  · simp only [ZMod.natCast_mod, Nat.cast_add, Nat.cast_mul, Nat.cast_pow, cast_sub_of_lt (Nat.mod_lt _ hp)]
    push_cast
    simp only [Affine.addX]
    generalize (shortCurve 0 b p).slope x gx y gy = l at hs
    simp only [shortCurve]
    rw [← ex, ← ey]
    linear_combination (Z : ZMod p) ^ 6 * (l * (x - gx) + (y - gy)) * hs
  · simp only [ZMod.natCast_mod, Nat.cast_add, Nat.cast_mul, Nat.cast_pow, cast_sub_of_lt (Nat.mod_lt _ hp)]
    push_cast
    simp only [Affine.addY, Affine.negAddY, Affine.addX, negY_short]
    generalize (shortCurve 0 b p).slope x gx y gy = l at hs
    simp only [shortCurve]
    rw [← ex, ← ey]
    linear_combination -(Z : ZMod p) ^ 9 * ((x - gx) ^ 2 * (2 * x + gx) - ((l * (x - gx)) ^ 2 +
      l * (x - gx) * (y - gy) + (y - gy) ^ 2)) * hs

theorem JacRep.mul {gx gy : ℕ} {G : (shortCurve 0 b p).Point} (hg : Rep 0 b p (.aff gx gy) G) :
    ∀ (n k : ℕ) (q : ℕ × ℕ × ℕ), 2 ^ n ≤ k → k < 2 ^ (n + 1) → jacMul p gx gy n k = some q → JacRep b p q (k • G)
  | 0, k, q, h1, h2, h => by
    obtain rfl : k = 1 := by omega
    obtain rfl := Option.some.inj h
    obtain ⟨_, _, hn, rfl⟩ := hg
    rw [one_smul]
    exact ⟨by simp, _, _, _, rfl, by simp, by simp⟩
  | n + 1, k, q, h1, h2, h => by
    simp only [jacMul] at h
    split at h
    case h_1 => cases h
    rename_i q1 e1
    split at h
    case h_1 => cases h
    rename_i d e2
    have ih := JacRep.mul hg n (k / 2) q1 (by rw [pow_succ] at h1; omega) (by rw [pow_succ] at h2; omega) e1
    have hd := ih.double e2
    rw [← two_nsmul, ← mul_nsmul'] at hd
    split at h
    case isTrue ho =>
      have ha := hd.add hg h
      rwa [← succ_nsmul, show 2 * (k / 2) + 1 = k by omega] at ha
    case isFalse ho =>
      obtain rfl := Option.some.inj h
      rwa [show 2 * (k / 2) = k by omega] at hd

/-! ## The ROM curve -/

theorem romP_fact : Fact Config.romP.toNat.Prime := ⟨romP_prime⟩

theorem romN_fact : Fact Config.romN.toNat.Prime := ⟨romN_prime⟩

/-- The ROM curve over the integers mod `ROM.p`. -/
abbrev romCurve : Affine (ZMod Config.romP.toNat) := shortCurve Config.romA.toNat Config.romB.toNat Config.romP.toNat

/-- A point of the ROM curve stands for a point of its group. -/
abbrev RomRep (q : Point) (P : romCurve.Point) : Prop :=
  Rep Config.romA.toNat Config.romB.toNat Config.romP.toNat q P

theorem romCurve_Δ : romCurve.Δ ≠ 0 := by
  have := romP_fact
  exact shortCurve_Δ_ne_zero (by decide +kernel) (by decide +kernel)

theorem romG_onRom : OnRom romG := by
  have := romP_fact
  exact (onCurve_iff romP_prime.pos _ _ _).1 (by decide +kernel)

/-- `(n - 1) * G` in Jacobian coordinates is `-G`, by computation. -/
theorem jac_order : (jacMul Config.romP.toNat Config.romGx.toNat Config.romGy.toNat 255 (romOrder - 1)).map
    (fun q => (Config.romGx.toNat * q.2.2 ^ 2 % Config.romP.toNat = q.1 ∧
      (q.2.1 + Config.romGy.toNat * q.2.2 ^ 3) % Config.romP.toNat = 0 : Bool)) = some true := by
  decide +kernel

/-- `G` stands for a point of order dividing `n` (R7, R27). -/
theorem romG_rep [Fact Config.romP.toNat.Prime] : ∃ G, RomRep romG G ∧ G ≠ 0 ∧ romOrder • G = 0 := by
  obtain ⟨G, hG⟩ := exists_rep romCurve_Δ romG_onRom
  refine ⟨G, hG, ?_, ?_⟩
  · obtain ⟨_, _, h, rfl⟩ := hG
    exact Affine.Point.some_ne_zero h
  have hj := jac_order
  obtain ⟨q, hq, hc⟩ := Option.map_eq_some_iff.1 hj
  have hr := JacRep.mul hG 255 (romOrder - 1) q (by decide +kernel) (by decide +kernel) hq
  simp only [decide_eq_true_eq] at hc
  obtain ⟨c1, c2⟩ := hc
  obtain ⟨hz, x, y, hn, e, ex, ey⟩ := hr
  obtain ⟨_, _, hgn, rfl⟩ := hG
  have c1' : (Config.romGx.toNat : ZMod Config.romP.toNat) * (q.2.2 : ZMod Config.romP.toNat) ^ 2 = q.1 := by
    rw [← c1, ZMod.natCast_mod]; push_cast; rfl
  have c2' : (q.2.1 : ZMod Config.romP.toNat) + Config.romGy.toNat * (q.2.2 : ZMod Config.romP.toNat) ^ 3 = 0 := by
    rw [← Nat.dvd_iff_mod_eq_zero, ← ZMod.natCast_eq_zero_iff] at c2
    push_cast at c2
    exact c2
  have hx : x = Config.romGx.toNat := mul_right_cancel₀ (pow_ne_zero 2 hz) (ex.trans c1'.symm)
  have hy : y = -(Config.romGy.toNat : ZMod Config.romP.toNat) := by
    refine mul_right_cancel₀ (pow_ne_zero 3 hz) (ey.trans ?_)
    rw [neg_mul]
    exact eq_neg_of_add_eq_zero_left c2'
  have hk : romOrder = (romOrder - 1) + 1 := by decide +kernel
  have e' : (romOrder - 1) • (Affine.Point.some _ _ hgn : romCurve.Point) = Affine.Point.some x y hn := e
  rw [hk, succ_nsmul, e']
  exact Affine.Point.add_of_Y_eq hx (by rw [hy, negY_short])

/-! ## The number of points -/

/-- A point of a short curve, told by its `x` and by which half of the field its `y` lies in. -/
def pointCode {a b p : ℕ} (P : (shortCurve a b p).Point) : Option (ZMod p × Bool) :=
  match P with
  | .zero => none
  | .some x y _ => some (x, decide (2 * y.val < p))

theorem pointCode_injective {a b p : ℕ} [hF : Fact p.Prime] (h2 : p ≠ 2) :
    Function.Injective (pointCode (a := a) (b := b) (p := p)) := by
  intro P Q h
  cases P with
  | zero =>
    cases Q with
    | zero => rfl
    | some x y hn => cases h
  | some x1 y1 n1 =>
    cases Q with
    | zero => cases h
    | some x2 y2 n2 =>
      simp only [pointCode, Option.some.injEq, Prod.mk.injEq] at h
      obtain ⟨rfl, hy⟩ := h
      have hv : y1 = y2 := by
        rcases Affine.Y_eq_of_X_eq n1.1 n2.1 rfl with e | e
        · exact e
        · rw [negY_short] at e
          by_cases h0 : y2 = 0
          · rw [e, h0, neg_zero]
          · exfalso
            have hodd : p % 2 = 1 := hF.out.eq_two_or_odd.resolve_left h2
            have : (-y2).val = p - y2.val := by
              have := ZMod.neg_val y2
              rwa [if_neg h0] at this
            rw [e, this] at hy
            have hlt := ZMod.val_lt y2
            have : (2 * (p - y2.val) < p) ↔ (2 * y2.val < p) := by simpa using hy
            omega
      subst hv
      rfl

theorem card_points_le {a b p : ℕ} [hF : Fact p.Prime] (h2 : p ≠ 2) :
    Finite (shortCurve a b p).Point ∧ Nat.card (shortCurve a b p).Point ≤ 2 * p + 1 := by
  have hfin : Finite (shortCurve a b p).Point := Finite.of_injective _ (pointCode_injective h2)
  refine ⟨hfin, ?_⟩
  have := Nat.card_le_card_of_injective _ (pointCode_injective (a := a) (b := b) h2)
  rw [Finite.card_option, Nat.card_prod, Nat.card_zmod] at this
  simp only [Nat.card_eq_fintype_card, Fintype.card_bool] at this
  omega

/-- No point of the ROM curve has order 2: `-7` is no cube mod `ROM.p`. -/
theorem romCurve_two_nsmul [Fact Config.romP.toNat.Prime] (P : romCurve.Point) (h : 2 • P = 0) : P = 0 := by
  cases P with
  | zero => rfl
  | some x y hn =>
    exfalso
    rw [two_nsmul, add_eq_zero_iff_eq_neg, Affine.Point.neg_some] at h
    injection h with _ hy
    rw [negY_short] at hy
    have h2 : (2 : ZMod Config.romP.toNat) ≠ 0 := by
      have := cast_ne_zero_of_mod (p := Config.romP.toNat) (z := 2) (by decide +kernel)
      exact_mod_cast this
    have y0 : y = 0 := by
      have : 2 * y = 0 := by linear_combination hy
      exact (mul_eq_zero.1 this).resolve_left h2
    have he := hn.1
    rw [Affine.equation_iff, y0] at he
    simp only [romCurve, shortCurve, Config.romA, Config.romB] at he
    norm_num at he
    have hx3 : x ^ 3 = -7 := by linear_combination -he
    have hx0 : x ≠ 0 := by
      intro h0
      rw [h0] at hx3
      have h7 : (7 : ZMod Config.romP.toNat) ≠ 0 := by
        have := cast_ne_zero_of_mod (p := Config.romP.toNat) (z := 7) (by decide +kernel)
        exact_mod_cast this
      apply h7
      linear_combination hx3
    have hf := ZMod.pow_card_sub_one_eq_one hx0
    rw [show Config.romP.toNat - 1 = 3 * ((Config.romP.toNat - 1) / 3) by decide +kernel, pow_mul, hx3] at hf
    have e7 : (-7 : ZMod Config.romP.toNat) = ((Config.romP.toNat - 7 : ℕ) : ZMod Config.romP.toNat) := by
      rw [cast_sub_of_lt (by decide +kernel)]; norm_num
    rw [e7, ← Nat.cast_pow] at hf
    have hm : powmod (Config.romP.toNat - 7) ((Config.romP.toNat - 1) / 3) Config.romP.toNat ≠ 1 := by decide +kernel
    rw [powmod_eq] at hm
    apply hm
    have h1 : ((1 : ℕ) : ZMod Config.romP.toNat) = 1 := Nat.cast_one
    rw [← h1, ZMod.natCast_eq_natCast_iff] at hf
    rw [hf]
    exact Nat.mod_eq_of_lt romP_prime.one_lt

/-- The ROM curve has `n` points, so `n * Q` is the identity for every point `Q` (R27, cofactor 1). -/
theorem romOrder_nsmul [Fact Config.romP.toNat.Prime] (P : romCurve.Point) : romOrder • P = 0 := by
  have hn : romOrder.Prime := romN_prime
  obtain ⟨G, hG, h0, hnG⟩ := romG_rep
  obtain ⟨hfin, hle⟩ := card_points_le (a := Config.romA.toNat) (b := Config.romB.toNat) (p := Config.romP.toNat)
    (by decide +kernel)
  have hord : addOrderOf G = romOrder := by
    have hd := addOrderOf_dvd_of_nsmul_eq_zero hnG
    rcases (Nat.dvd_prime hn).1 hd with h | h
    · exact absurd (AddMonoid.addOrderOf_eq_one_iff.1 h) h0
    · exact h
  have hdvd : romOrder ∣ Nat.card romCurve.Point := hord ▸ addOrderOf_dvd_natCard G
  obtain ⟨c, hc⟩ := hdvd
  have hpos : 0 < Nat.card romCurve.Point := Nat.card_pos
  have hc3 : c < 3 := by
    by_contra hge
    have : romOrder * 3 ≤ romOrder * c := Nat.mul_le_mul_left _ (by omega)
    have h3 : 2 * Config.romP.toNat + 1 < romOrder * 3 := by decide +kernel
    have : Nat.card romCurve.Point ≤ 2 * Config.romP.toNat + 1 := hle
    omega
  have hodd : ¬ 2 ∣ Nat.card romCurve.Point := by
    intro h2
    have := Fact.mk Nat.prime_two
    obtain ⟨P2, hP2⟩ := exists_prime_addOrderOf_dvd_card' 2 h2
    have hz : 2 • P2 = 0 := by rw [← hP2]; exact addOrderOf_nsmul_eq_zero P2
    have := romCurve_two_nsmul P2 hz
    rw [this, addOrderOf_zero] at hP2
    omega
  have hc1 : c = 1 := by
    interval_cases c
    · omega
    · rfl
    · exact absurd ⟨romOrder, by rw [hc, mul_comm]⟩ hodd
  have hcard : Nat.card romCurve.Point = romOrder := by rw [hc, hc1, mul_one]
  rw [← hcard]
  exact card_nsmul_eq_zero'

end Sys2Proof.Machine
end

