-- ==== Sys2Proof/Laws/Rom.lean ====
section
/-! SUPPORT. The ECDSA operations over the ROM curve: the draws, one signing pass, the verification flag, and multiples of
points and inverses mod `n`. -/

set_option Elab.async false

namespace Sys2Proof.Machine

open WeierstrassCurve

theorem romOrder_pos : 0 < romOrder := by decide +kernel

theorem romOrder_lt_two_pow : romOrder < 2 ^ 256 := by decide +kernel

/-! ## The draws (R171) -/

theorem drawOk_iff (w : Word) : drawOk w = true ↔ Accepted w := by
  unfold drawOk Accepted
  rw [Bool.and_eq_true, decide_eq_true_iff, decide_eq_true_iff]
  rfl

theorem drawOk_of_not {w : Word} (h : ¬ Accepted w) : drawOk w = false := by
  rw [Bool.eq_false_iff]
  exact fun e => h ((drawOk_iff w).1 e)

theorem drawScalar_skip : ∀ {rej : List Word} (rest : List Word), (∀ v ∈ rej, ¬ Accepted v) →
    drawScalar (rej ++ rest) = drawScalar rest
  | [], _, _ => rfl
  | v :: rej, rest, h => by
    rw [List.cons_append, drawScalar, drawOk_of_not (h v (by simp))]
    exact drawScalar_skip rest fun u hu => h u (by simp [hu])

theorem signLoop_skip (dk z : Nat) : ∀ {rej : List Word} (rest : List Word), (∀ v ∈ rej, ¬ Accepted v) →
    signLoop dk z (rej ++ rest) = signLoop dk z rest
  | [], _, _ => rfl
  | v :: rej, rest, h => by
    rw [List.cons_append, signLoop, drawOk_of_not (h v (by simp))]
    exact signLoop_skip dk z rest fun u hu => h u (by simp [hu])

/-! ## Multiples on the ROM curve -/

theorem OnRom.lt_two_pow {q : Point} (h : OnRom q) : ∀ x y, q = .aff x y → x < 2 ^ 256 ∧ y < 2 ^ 256 := by
  intro x y e
  have := OnEquation.lt h x y e
  have := Config.romP.isLt
  omega

theorem romMul_eq_ecMulR (k : Nat) (q : Point) : romMul k q = ecMulR k q := doubleAndAdd_eq_ecMul k q _ _

theorem RomRep.romMul [Fact Config.romP.toNat.Prime] {q : Point} {Q : romCurve.Point} (k : Nat) (h : RomRep q Q) :
    ∃ t, romMul k q = .ok t ∧ RomRep t (k • Q) := by
  obtain ⟨t, h1, h2⟩ := h.mul k
  exact ⟨t, (romMul_eq_ecMulR k q).trans h1, h2⟩

theorem nsmul_eq_of_cast {k l : Nat} [Fact Config.romP.toNat.Prime] (P : romCurve.Point)
    (h : (k : ZMod romOrder) = l) : k • P = l • P := by
  rw [ZMod.natCast_eq_natCast_iff] at h
  rw [nsmul_eq_mod_nsmul k (romOrder_nsmul P), nsmul_eq_mod_nsmul l (romOrder_nsmul P), h]

theorem nsmul_eq_neg_of_cast {k l : Nat} [Fact Config.romP.toNat.Prime] (P : romCurve.Point)
    (h : (k : ZMod romOrder) = -l) : k • P = -(l • P) := by
  rw [eq_neg_iff_add_eq_zero, ← add_nsmul, nsmul_eq_of_cast (l := 0) P (by push_cast; rw [h]; ring), zero_nsmul]

/-- No multiple of a point other than `INF` by a scalar in `[1, n-1]` is `INF`. -/
theorem nsmul_ne_zero [Fact Config.romP.toNat.Prime] {k : Nat} {G : romCurve.Point} (h0 : G ≠ 0) (hk : 1 ≤ k)
    (hk2 : k ≤ romOrder - 1) : k • G ≠ 0 := by
  intro h
  have hn : romOrder.Prime := romN_prime
  have d1 := addOrderOf_dvd_of_nsmul_eq_zero h
  have d2 := addOrderOf_dvd_of_nsmul_eq_zero (romOrder_nsmul G)
  rcases (Nat.dvd_prime hn).1 d2 with e | e
  · exact h0 (AddMonoid.addOrderOf_eq_one_iff.1 e)
  · rw [e] at d1
    have := Nat.le_of_dvd (by omega) d1
    have := hn.two_le
    omega

theorem romMul_gen_aff {k : Nat} (h : 1 ≤ k) (h' : k ≤ romOrder - 1) : ∃ x y, romMul k romG = .ok (.aff x y) := by
  have := romP_fact
  obtain ⟨G, hG, h0, hn⟩ := romG_rep
  obtain ⟨q, e, r⟩ := RomRep.romMul k hG
  cases q with
  | inf => exact absurd r (nsmul_ne_zero h0 h h')
  | aff x y => exact ⟨x, y, e⟩

/-- The Fermat inverse mod `n` of a scalar in `[1, n-1]`. -/
theorem inv_romOrder_cast {s : Nat} [Fact romOrder.Prime] (h1 : 1 ≤ s) (h2 : s ≤ romOrder - 1) :
    (s : ZMod romOrder) ≠ 0 ∧ ((s ^ (romOrder - 2) % romOrder : Nat) : ZMod romOrder) = (s : ZMod romOrder)⁻¹ := by
  have h0 : (s : ZMod romOrder) ≠ 0 := by
    rw [Ne, ZMod.natCast_eq_zero_iff]
    intro h
    have := Nat.le_of_dvd h1 h
    have := romOrder_pos
    omega
  refine ⟨h0, ?_⟩
  rw [← fermatInv_eq, fermatInv_cast h0]

/-! ## One signing pass (R174) -/

theorem rawS_eq (k r dk z : Nat) : invn k * (z + r * dk) % orderN = rawS k r dk z := by
  unfold invn
  rw [fermatInv_eq]
  rfl

theorem signWith_eq {k x y : Nat} (dk z : Nat) (e : romMul k romG = .ok (.aff x y)) :
    signWith k dk z = .ok
      (if x % romOrder = 0 then none
       else if rawS k (x % romOrder) dk z = 0 then none
       else some (x % romOrder, lowS (rawS k (x % romOrder) dk z))) := by
  rw [← rawS_eq]
  unfold signWith
  rw [show ecMulR k genPoint = .ok (.aff x y) from (romMul_eq_ecMulR k romG).symm.trans e, except_ok_bind]
  show (if x % orderN = 0 then _ else _) = Except.ok (if x % orderN = 0 then _ else _)
  by_cases hx : x % orderN = 0
  · simp only [hx, if_true]
    rfl
  · simp only [hx, if_false]
    show (if invn k * (z + x % orderN * dk) % orderN = 0 then _ else _) =
      Except.ok (if invn k * (z + x % orderN * dk) % orderN = 0 then _ else _)
    split_ifs <;> rfl

theorem lowS_range {s : Nat} (h0 : s ≠ 0) (h : s < romOrder) : 1 ≤ lowS s ∧ lowS s ≤ romOrder / 2 := by
  have ho : romOrder % 2 = 1 := by decide +kernel
  unfold lowS
  rw [show orderN = romOrder from rfl]
  split <;> omega

/-- What the loop of `SIGN` answers: it waits, or the first accepted nonce whose pass gives a signature ends it. -/
theorem signLoop_cases (dk z : Nat) : ∀ l : List Word,
    signLoop dk z l = .starved ∨
    ∃ (w : Word) (r s : Nat) (rest : List Word), Accepted w ∧ signWith w.toNat dk z = .ok (some (r, s)) ∧
      signLoop dk z l = .got (.ok (r, s)) rest
  | [] => .inl rfl
  | w :: l => by
    rw [signLoop]
    by_cases hw : drawOk w
    · rw [if_pos hw]
      have ha := (drawOk_iff w).1 hw
      obtain ⟨x, y, e⟩ := romMul_gen_aff ha.1 ha.2
      have hs : signWith w.toNat dk z = .ok none ∨ ∃ r s, signWith w.toNat dk z = .ok (some (r, s)) := by
        rw [signWith_eq _ _ e]
        split_ifs
        · exact .inl rfl
        · exact .inl rfl
        · exact .inr ⟨_, _, rfl⟩
      rcases hs with h | ⟨r, s, h⟩
      · simp only [h]
        exact signLoop_cases dk z l
      · simp only [h]
        exact .inr ⟨w, r, s, l, ha, h, rfl⟩
    · rw [if_neg hw]
      exact signLoop_cases dk z l

/-! ## The verification flag (R176) -/

theorem verifyFlag_of_out {q : Point} {z r s : Nat}
    (h : ¬ OnRom q ∨ r < 1 ∨ romOrder - 1 < r ∨ s < 1 ∨ romOrder - 1 < s) : verifyFlag q z r s = .ok false := by
  unfold verifyFlag
  rw [if_neg]
  simp only [verifyInRange, Bool.and_eq_true]
  rintro ⟨h1, h2⟩
  have := (onCurve_iff romP_prime.pos _ _ _).1 h1
  simp only [Bool.not_eq_true', Bool.or_eq_false_iff, decide_eq_false_iff_not, show orderN = romOrder from rfl] at h2
  rcases h with h | h
  · exact h this
  · omega

theorem verifyFlag_of_in {q : Point} {z r s : Nat} (h1 : OnRom q) (h2 : 1 ≤ r) (h3 : r ≤ romOrder - 1) (h4 : 1 ≤ s)
    (h5 : s ≤ romOrder - 1) :
    ∃ q1 q2 pt,
      romMul (z * (s ^ (romOrder - 2) % romOrder) % romOrder) romG = .ok q1 ∧
      romMul (r * (s ^ (romOrder - 2) % romOrder) % romOrder) q = .ok q2 ∧
      ecAdd q1 q2 Config.romA.toNat Config.romP.toNat = .ok pt ∧
      verifyFlag q z r s = .ok (match pt with
        | .inf => false
        | .aff x _ => decide (x % romOrder = r)) := by
  have := romP_fact
  obtain ⟨q1, e1, o1⟩ := ecMul_onEquation (z * (s ^ (romOrder - 2) % romOrder) % romOrder) romG_onRom
  obtain ⟨q2, e2, o2⟩ := ecMul_onEquation (r * (s ^ (romOrder - 2) % romOrder) % romOrder) h1
  obtain ⟨pt, e3, o3⟩ := ecAdd_onEquation o1 o2
  refine ⟨q1, q2, pt, (romMul_eq_ecMulR _ _).trans e1, (romMul_eq_ecMulR _ _).trans e2, e3, ?_⟩
  have hin : verifyInRange q r s = true := by
    simp only [verifyInRange, Bool.and_eq_true]
    refine ⟨(onCurve_iff romP_prime.pos _ _ _).2 h1, ?_⟩
    simp only [Bool.not_eq_true', Bool.or_eq_false_iff, decide_eq_false_iff_not, show orderN = romOrder from rfl]
    omega
  have hw : invn s = s ^ (romOrder - 2) % romOrder := fermatInv_eq s orderN
  have f1 : ecMulR (z * invn s % orderN) genPoint = .ok q1 := by rw [hw]; exact e1
  have f2 : ecMulR (r * invn s % orderN) q = .ok q2 := by rw [hw]; exact e2
  have f3 : ecAddR q1 q2 = .ok pt := e3
  unfold verifyFlag
  rw [if_pos hin]
  dsimp only
  rw [f1, except_ok_bind, f2, except_ok_bind, f3, except_ok_bind]
  cases pt <;> rfl

end Sys2Proof.Machine
end

