-- ==== Sys2Proof/Machine/Asm.lean ====
section
/-! DEFINITION. The spec's own notation: the assembler text of a command (R90), the pseudo-instructions (R91) and the
host macros as schedules of bus transactions (R91). No step of the machine reads any of it. -/

namespace Sys2Proof.Machine

/-! ## Assembler text (R90) -/

/-- The name of an `LDK` constant (R90). -/
def Konst.asm : Konst → String
  | .p => "p"
  | .n => "n"
  | .gx => "gx"
  | .gy => "gy"
  | .a => "a"
  | .b => "b"
  | .h => "h"
  | .cp => "cp"
  | .ca => "ca"
  | .cb => "cb"

/-- `X0` to `X15` (R90). -/
def asmX (r : XNum) : String := "X" ++ toString r.val

/-- `P0` to `P7` (R90). -/
def asmP (r : PNum) : String := "P" ++ toString r.val

/-- The suffix of a command whose `NEG` bit is 1 (R90). -/
def asmNeg (neg : Bool) : String := if neg then ".NEG" else ""

/-- The assembler text of a command, destination first (R90). -/
def asm : Instr → String
  | .nop => "NOP"
  | .mov d s => "MOV " ++ asmX d ++ ", " ++ asmX s
  | .ldi d imm => "LDI " ++ asmX d ++ ", #" ++ toString imm.toNat
  | .ldk d k => "LDK " ++ asmX d ++ ", " ++ Konst.asm k
  | .fint d s => "FINT " ++ asmX d ++ ", " ++ asmX s
  | .fred d v m => "FRED " ++ asmX d ++ ", " ++ asmX v ++ ", " ++ asmX m
  | .fadd d a b => "FADD " ++ asmX d ++ ", " ++ asmX a ++ ", " ++ asmX b
  | .fsub d a b => "FSUB " ++ asmX d ++ ", " ++ asmX a ++ ", " ++ asmX b
  | .fmul d a b => "FMUL " ++ asmX d ++ ", " ++ asmX a ++ ", " ++ asmX b
  | .fdiv d a b => "FDIV " ++ asmX d ++ ", " ++ asmX a ++ ", " ++ asmX b
  | .finv d a => "FINV " ++ asmX d ++ ", " ++ asmX a
  | .fpow neg d a e => "FPOW" ++ asmNeg neg ++ " " ++ asmX d ++ ", " ++ asmX a ++ ", " ++ asmX e
  | .feq a b => "FEQ " ++ asmX a ++ ", " ++ asmX b
  | .pinf d => "PINF " ++ asmP d
  | .pgen d => "PGEN " ++ asmP d
  | .pset d x y => "PSET " ++ asmP d ++ ", " ++ asmX x ++ ", " ++ asmX y
  | .pmov d s => "PMOV " ++ asmP d ++ ", " ++ asmP s
  | .pgx d s => "PGX " ++ asmX d ++ ", " ++ asmP s
  | .pgy d s => "PGY " ++ asmX d ++ ", " ++ asmP s
  | .pchk s => "PCHK " ++ asmP s
  | .peq a b => "PEQ " ++ asmP a ++ ", " ++ asmP b
  | .pneg d s => "PNEG " ++ asmP d ++ ", " ++ asmP s
  | .padd d a b => "PADD " ++ asmP d ++ ", " ++ asmP a ++ ", " ++ asmP b
  | .pdbl d s => "PDBL " ++ asmP d ++ ", " ++ asmP s
  | .pmul neg d s k => "PMUL" ++ asmNeg neg ++ " " ++ asmP d ++ ", " ++ asmP s ++ ", " ++ asmX k
  | .kgen d => "KGEN " ++ asmX d
  | .pubk d k => "PUBK " ++ asmP d ++ ", " ++ asmX k
  | .sign r s d z => "SIGN " ++ asmX r ++ ", " ++ asmX s ++ ", " ++ asmX d ++ ", " ++ asmX z
  | .vrfy q z r s => "VRFY " ++ asmP q ++ ", " ++ asmX z ++ ", " ++ asmX r ++ ", " ++ asmX s

/-! ## Pseudo-instructions (R91) -/

/-- `CLR Xd` (R91). -/
def pseudoClr (d : XNum) : List Instr := [.ldi d 0#16]

/-- `FSQR Xd, Xa` (R91). -/
def pseudoFsqr (d a : XNum) : List Instr := [.fmul d a a]

/-- `PSUB Pd, Pa, Pb`, which needs `d != a` (R91). -/
def pseudoPsub (d a b : PNum) : Option (List Instr) := if d = a then none else some [.pneg d b, .padd d a d]

/-- `LDP Xd, #imm`, which overwrites `X15` and needs `d != 15` (R91). -/
def pseudoLdp (d : XNum) (imm : BitVec 16) : Option (List Instr) :=
  if d = 15 then none else some [.ldi d imm, .ldk 15 .cp, .fred d d 15]

/-! ## Host macros (R91) -/

/-- `ISSUE c` (R91). -/
def hostIssue (c : Word32) : List Input := [.busWrite 0x00C#11 c]

/-- One poll of `WAIT`: a read of `STATUS`, whose bit 0 is `BUSY` (R91). -/
def hostPoll : Input := .busRead 0x008#11

/-- The byte offset of word `w` of `X[i].val` (R51, R52). -/
def xValOffset (i : XNum) (w : WordNum) : Offset := BitVec.ofNat 11 (0x400 + 0x40 * i.val + 4 * w.val)

/-- The byte offset of word `w` of `X[i].mod` (R51, R52). -/
def xModOffset (i : XNum) (w : WordNum) : Offset := BitVec.ofNat 11 (0x400 + 0x40 * i.val + 0x20 + 4 * w.val)

/-- `WRX i, v`: the 8 writes of `v` to `X[i].val` (R91). -/
def hostWrx (i : XNum) (v : Word) : List Input :=
  (List.finRange 8).map fun w => .busWrite (xValOffset i w) (v.extractLsb' (32 * w.val) 32)

/-- `WRM i, m`: the 8 writes of `m` to `X[i].mod` (R91). -/
def hostWrm (i : XNum) (m : Word) : List Input :=
  (List.finRange 8).map fun w => .busWrite (xModOffset i w) (m.extractLsb' (32 * w.val) 32)

/-- `RDX i`: the 8 reads of `X[i].val` (R91). -/
def hostRdx (i : XNum) : List Input := (List.finRange 8).map fun w => .busRead (xValOffset i w)

/-- A command of a host program on a block that ends it before the first poll: `ISSUE`, the engine's turn, one poll
(R91). -/
def hostCommand (i : Instr) : List Input := hostIssue (encode i) ++ [.engine, hostPoll]

end Sys2Proof.Machine
end

