-- ==== Sys2Proof/Tests/Slice0.lean ====
section
/-! SUPPORT. The model's own tests. Expected values come from spec/95_test_vectors.md (its section is named beside each
group), or from a hand calculation on the rule named there. The last part shows, for each statement that has hypotheses, a
concrete state and operands that meet them. -/

open Sys2Proof Sys2Proof.Machine

set_option Elab.async false

namespace Sys2Proof.Tests

/-! ## Small states and what a test looks at -/

/-- Set X registers. -/
def withX (l : List (XNum × Nat × Nat)) (s : State) : State :=
  l.foldl (fun t e => t.setX e.1 (fieldReg e.2.1 e.2.2)) s

/-- Set P registers to affine points. -/
def withP (l : List (PNum × Nat × Nat)) (s : State) : State :=
  l.foldl (fun t e => t.setP e.1 ⟨false, BitVec.ofNat 256 e.2.1, BitVec.ofNat 256 e.2.2⟩) s

/-- The toy curve, `p = 17`, `a = 0`, `b = 7` (S1). -/
def toy : State := { State.reset with curveP := 17#256 }

/-- The toy curve with `P0` the toy generator (S1). -/
def toyG : State := withP [(0, 15, 13)] toy

/-- The curve of R147's example: `p = 15`, `a = b = 0`. -/
def comp : State := { State.reset with curveP := 15#256, curveB := 0#256 }

/-- Run one command word as the first step after it was accepted. -/
def run (s : State) (w : Nat) : Option State :=
  match step (s.withFetchWord 32 w) with
  | .next t => some t
  | .fault _ => none
  | .refused _ => none

/-- The next state of `exec`, or the old one. -/
def after (i : Instr) (s : State) : State :=
  match exec i s with
  | .next t => t
  | .fault _ => s
  | .refused _ => s

/-- `X[d]` after a word. -/
def xAfter (s : State) (w : Nat) (d : XNum) : Option (Nat × Nat) :=
  (run s w).map fun t => ((t.getX d).val.toNat, (t.getX d).mod.toNat)

/-- `P[d]` after a word. -/
def pAfter (s : State) (w : Nat) (d : PNum) : Option Point := (run s w).map fun t => t.point d

/-- `STATUS` after a word. -/
def statusAfter (s : State) (w : Nat) : Option Nat := (run s w).map fun t => t.status.word.toNat

/-- `STATUS` after one host write. -/
def statusAfterWrite (s : State) (off v : Nat) : Option Nat :=
  match hostWrite (BitVec.ofNat 11 off) (BitVec.ofNat 32 v) s with
  | .next t => some t.status.word.toNat
  | .fault _ => none
  | .refused _ => none

/-- What one host read returns. -/
def readOut (s : State) (off : Nat) : Option Word32 :=
  match hostRead (BitVec.ofNat 11 off) s with
  | .next t => t.readData
  | .fault _ => none
  | .refused _ => none

/-! ## Well-formedness (R87 item 7) -/

theorem test_wf_refuses_sign_with_one_destination : (Instr.sign 4 4 1 2).wf = false := by decide

theorem test_wf_accepts_sign_with_two_destinations : (Instr.sign 4 5 1 2).wf = true := by decide

theorem test_wf_accepts_other_aliases : (Instr.fadd 1 1 1).wf = true ∧ (Instr.vrfy 1 2 2 2).wf = true := by decide

/-! ## Decoding (section 2): the words of the table, each from the spec's field layout -/

theorem test_decode_data_movement :
    decode 0x00000000#32 = .ok .nop ∧ decode 0x00001301#32 = .ok (.mov 3 1) ∧
    decode 0xBEEF0402#32 = .ok (.ldi 4 0xBEEF#16) ∧ decode 0xFFFF0F02#32 = .ok (.ldi 15 0xFFFF#16) ∧
    decode 0x00001003#32 = .ok (.ldk 0 .n) ∧ decode 0x00001304#32 = .ok (.fint 3 1) ∧
    decode 0x00021305#32 = .ok (.fred 3 1 2) := by decide +kernel

theorem test_decode_field :
    decode 0x00021310#32 = .ok (.fadd 3 1 2) ∧ decode 0x00021311#32 = .ok (.fsub 3 1 2) ∧
    decode 0x00021312#32 = .ok (.fmul 3 1 2) ∧ decode 0x00021313#32 = .ok (.fdiv 3 1 2) ∧
    decode 0x00001314#32 = .ok (.finv 3 1) ∧ decode 0x00021315#32 = .ok (.fpow false 3 1 2) ∧
    decode 0x01021315#32 = .ok (.fpow true 3 1 2) ∧ decode 0x00021016#32 = .ok (.feq 1 2) := by decide +kernel

theorem test_decode_points :
    decode 0x00000720#32 = .ok (.pinf 7) ∧ decode 0x00000021#32 = .ok (.pgen 0) ∧
    decode 0x00021022#32 = .ok (.pset 0 1 2) ∧ decode 0x00000123#32 = .ok (.pmov 1 0) ∧
    decode 0x00003424#32 = .ok (.pgx 4 3) ∧ decode 0x00003525#32 = .ok (.pgy 5 3) ∧
    decode 0x00002026#32 = .ok (.pchk 2) ∧ decode 0x00043027#32 = .ok (.peq 3 4) ∧
    decode 0x00000128#32 = .ok (.pneg 1 0) ∧ decode 0x00001229#32 = .ok (.padd 2 1 0) ∧
    decode 0x0000012A#32 = .ok (.pdbl 1 0) ∧ decode 0x0005122B#32 = .ok (.pmul false 2 1 5) ∧
    decode 0x0105122B#32 = .ok (.pmul true 2 1 5) := by decide +kernel

theorem test_decode_ecdsa :
    decode 0x00000130#32 = .ok (.kgen 1) ∧ decode 0x00001131#32 = .ok (.pubk 1 1) ∧
    decode 0x0000F031#32 = .ok (.pubk 0 15) ∧ decode 0x00521432#32 = .ok (.sign 4 5 1 2) ∧
    decode 0x00542133#32 = .ok (.vrfy 1 2 4 5) := by decide +kernel

theorem test_decode_constants :
    decode 0x00000003#32 = .ok (.ldk 0 .p) ∧ decode 0x00002003#32 = .ok (.ldk 0 .gx) ∧
    decode 0x00003303#32 = .ok (.ldk 3 .gy) ∧ decode 0x00004303#32 = .ok (.ldk 3 .a) ∧
    decode 0x00005003#32 = .ok (.ldk 0 .b) ∧ decode 0x00006303#32 = .ok (.ldk 3 .h) ∧
    decode 0x00007F03#32 = .ok (.ldk 15 .cp) ∧ decode 0x00008303#32 = .ok (.ldk 3 .ca) ∧
    decode 0x00009303#32 = .ok (.ldk 3 .cb) := by decide +kernel

/-- The illegal words of section 2, with the reason the table gives each. -/
theorem test_decode_illegal :
    decode 0x00000006#32 = .error .opcode ∧ decode 0xFFFFFFFF#32 = .error .opcode ∧
    decode 0x02000000#32 = .error .reservedBit ∧ decode 0x01000000#32 = .error .negBit ∧
    decode 0x00000100#32 = .error .unusedField ∧ decode 0x01021310#32 = .error .negBit ∧
    decode 0x00021316#32 = .error .unusedField ∧ decode 0x00000820#32 = .error .pointField ∧
    decode 0x00542833#32 = .error .pointField ∧ decode 0x0000A003#32 = .error .constIndex ∧
    decode 0x0000F003#32 = .error .constIndex ∧ decode 0xBEEF1402#32 = .error .reservedBit ∧
    decode 0x00F00030#32 = .error .unusedField ∧ decode 0x00415432#32 = .error .signAlias := by decide +kernel

/-- Section 2: from reset, the illegal word `0x06` gives `STATUS = 0x106` and sets `LASTCMD`. -/
theorem test_illegal_word_status :
    statusAfter State.reset 0x06 = some 0x106 ∧ (run State.reset 0x06).map (·.lastCmd) = some 0x06#32 := by
  decide +kernel

/-! ## Data movement (section 3) -/

theorem test_nop_status : statusAfter State.reset 0x0 = some 0x2 := by decide +kernel

theorem test_mov_copies_an_ill_formed_register :
    xAfter (withX [(1, 20, 17)] State.reset) 0x1301 3 = some (20, 17) := by decide +kernel

theorem test_ldi_loads : xAfter State.reset 0xBEEF0402 4 = some (0xBEEF, 0) := by decide +kernel

theorem test_ldi_clears_the_tag : xAfter (withX [(4, 5, 17)] State.reset) 0x0402 4 = some (0, 0) := by decide +kernel

theorem test_ldk_rom :
    xAfter State.reset 0x1003 0 =
      some (0xFFFFFFFFFFFFFFFFFFFFFFFFFFFFFFFEBAAEDCE6AF48A03BBFD25E8CD0364141, 0) ∧
    xAfter State.reset 0x6303 3 = some (1, 0) := by decide +kernel

theorem test_ldk_curve :
    xAfter { State.reset with curveA := 5#256 } 0x8303 3 = some (5, 0) ∧
    xAfter { State.reset with curveA := 5#256 } 0x4303 3 = some (0, 0) ∧
    xAfter State.reset 0x9303 3 = some (7, 0) := by decide +kernel

theorem test_fint : xAfter (withX [(1, 20, 17)] State.reset) 0x1304 3 = some (20, 0) := by decide +kernel

theorem test_fred_ignores_tags :
    xAfter (withX [(1, 20, 3), (2, 17, 99)] State.reset) 0x21305 3 = some (3, 17) := by decide +kernel

theorem test_fred_bad_modulus_and_alias :
    statusAfter (withX [(2, 1, 0)] State.reset) 0x21305 = some 0x906 ∧
    xAfter (withX [(1, 20, 0)] State.reset) 0x11105 1 = some (0, 20) := by decide +kernel

/-! ## Field arithmetic (section 4) -/

theorem test_fadd : xAfter (withX [(1, 7, 17), (2, 12, 17)] State.reset) 0x21310 3 = some (2, 17) := by decide +kernel

/-- The error vectors of `FADD` in section 4, in the order of its table. -/
theorem test_fadd_errors :
    statusAfter (withX [(1, 5, 17), (2, 5, 19)] State.reset) 0x21310 = some 0x206 ∧
    statusAfter (withX [(1, 5, 0), (2, 20, 17)] State.reset) 0x21310 = some 0x506 ∧
    statusAfter (withX [(1, 20, 17), (2, 5, 0)] State.reset) 0x21310 = some 0x606 ∧
    statusAfter (withX [(1, 17, 17), (2, 1, 17)] State.reset) 0x21310 = some 0x606 ∧
    statusAfter (withX [(1, 0, 1), (2, 0, 1)] State.reset) 0x21310 = some 0x606 := by decide +kernel

theorem test_fsub_wraps :
    xAfter (withX [(1, 3, 17), (2, 10, 17)] State.reset) 0x21311 3 = some (10, 17) ∧
    xAfter (withX [(1, 0, 17), (2, 1, 17)] State.reset) 0x21311 3 = some (16, 17) := by decide +kernel

theorem test_fmul : xAfter (withX [(1, 5, 17), (2, 7, 17)] State.reset) 0x21312 3 = some (1, 17) := by decide +kernel

/-- Section 4, mod `p`: `(p - 1) * (p - 1) = 1`. -/
theorem test_fmul_at_full_width :
    xAfter (withX [(1, 2 ^ 256 - 2 ^ 32 - 978, 2 ^ 256 - 2 ^ 32 - 977), (2, 2 ^ 256 - 2 ^ 32 - 978, 2 ^ 256 - 2 ^ 32 - 977)]
      State.reset) 0x21312 3 = some (1, 2 ^ 256 - 2 ^ 32 - 977) := by decide +kernel

theorem test_fdiv : xAfter (withX [(1, 2, 17), (2, 3, 17)] State.reset) 0x21313 3 = some (12, 17) := by decide +kernel

theorem test_fdiv_errors :
    statusAfter (withX [(1, 2, 17), (2, 0, 17)] State.reset) 0x21313 = some 0x306 ∧
    statusAfter (withX [(1, 2, 17), (2, 0, 19)] State.reset) 0x21313 = some 0x206 := by decide +kernel

theorem test_finv :
    xAfter (withX [(1, 3, 17)] State.reset) 0x1314 3 = some (6, 17) ∧
    xAfter (withX [(1, 1, 2)] State.reset) 0x1314 3 = some (1, 2) ∧
    xAfter (withX [(1, 2, 15)] State.reset) 0x1314 3 = some (2, 15) := by decide +kernel

theorem test_finv_errors :
    statusAfter (withX [(1, 3, 0)] State.reset) 0x1314 = some 0x506 ∧
    statusAfter (withX [(1, 0, 17)] State.reset) 0x1314 = some 0x306 := by decide +kernel

theorem test_fpow :
    xAfter (withX [(1, 3, 17), (2, 20, 5)] State.reset) 0x21315 3 = some (13, 17) ∧
    xAfter (withX [(1, 0, 17), (2, 16, 0)] State.reset) 0x21315 3 = some (1, 17) ∧
    xAfter (withX [(1, 0, 17), (2, 5, 0)] State.reset) 0x21315 3 = some (0, 17) := by decide +kernel

theorem test_fpow_neg :
    xAfter (withX [(1, 3, 17), (2, 1, 0)] State.reset) 0x1021315 3 = some (6, 17) ∧
    xAfter (withX [(1, 0, 17), (2, 1, 0)] State.reset) 0x1021315 3 = some (0, 17) := by decide +kernel

theorem test_feq :
    statusAfter (withX [(1, 20, 17), (2, 20, 17)] State.reset) 0x21016 = some 0xA ∧
    statusAfter (withX [(1, 3, 17), (2, 3, 19)] State.reset) 0x21016 = some 0x2 := by decide +kernel

/-! ## Points (section 5) -/

theorem test_pinf : pAfter toyG 0x20 0 = some .inf := by decide +kernel

theorem test_pgen :
    pAfter State.reset 0x21 0 = some (.aff Config.romGx.toNat Config.romGy.toNat) ∧
    statusAfter toy 0x21 = some 0x706 := by decide +kernel

theorem test_pset : pAfter (withX [(1, 15, 17), (2, 13, 17)] toy) 0x21022 0 = some (.aff 15 13) := by decide +kernel

theorem test_pset_errors :
    statusAfter (withX [(1, 1, 17), (2, 1, 17)] toy) 0x21022 = some 0x706 ∧
    statusAfter (withX [(1, 15, 19), (2, 13, 17)] toy) 0x21022 = some 0x206 ∧
    statusAfter (withX [(1, 15, 0), (2, 13, 17)] toy) 0x21022 = some 0x506 := by decide +kernel

theorem test_pmov_copies_an_off_curve_point : pAfter (withP [(0, 1, 1)] toy) 0x123 1 = some (.aff 1 1) := by
  decide +kernel

theorem test_pgx :
    xAfter toyG 0x0124 1 = some (15, 17) ∧ statusAfter toy 0x0124 = some 0x806 ∧
    statusAfter (withP [(0, 1, 1)] toy) 0x0124 = some 0x706 := by decide +kernel

theorem test_pgy : xAfter toyG 0x0425 4 = some (13, 17) ∧ statusAfter toy 0x0425 = some 0x806 := by decide +kernel

theorem test_pchk :
    statusAfter toyG 0x26 = some 0xA ∧ statusAfter (withP [(0, 1, 1)] toy) 0x26 = some 0x2 ∧
    statusAfter { State.reset with curveP := 1#256 } 0x26 = some 0xA06 := by decide +kernel

theorem test_peq_reads_no_curve :
    statusAfter { State.reset with curveP := 0#256 } 0x21027 = some 0xA ∧ statusAfter toyG 0x10027 = some 0x2 := by
  decide +kernel

theorem test_pneg :
    pAfter toyG 0x128 1 = some (.aff 15 4) ∧ pAfter (withP [(0, 3, 0)] toy) 0x128 1 = some (.aff 3 0) := by
  decide +kernel

theorem test_padd :
    pAfter (withP [(1, 15, 4)] toyG) 0x10229 2 = some .inf ∧ pAfter toyG 0x10229 2 = some (.aff 15 13) ∧
    pAfter (withP [(0, 2, 10), (1, 8, 3)] toy) 0x10229 2 = some (.aff 6 6) := by decide +kernel

theorem test_padd_errors :
    statusAfter (withP [(0, 1, 1), (1, 1, 4)] comp) 0x10229 = some 0x306 ∧
    statusAfter (withP [(0, 1, 1), (1, 1, 4)] { comp with curveB := 7#256 }) 0x10229 = some 0x706 ∧
    statusAfter { State.reset with curveP := 0#256 } 0x10229 = some 0xA06 := by decide +kernel

theorem test_pdbl :
    pAfter toyG 0x12A 1 = some (.aff 2 10) ∧ pAfter (withP [(0, 3, 0)] toy) 0x12A 1 = some .inf ∧
    pAfter (withP [(0, 1, 1)] comp) 0x22A 2 = some (.aff 4 11) := by decide +kernel

theorem test_pmul :
    pAfter (withX [(2, 18, 0)] toyG) 0x2012B 1 = some .inf ∧
    pAfter (withX [(2, 2 ^ 256 - 1, 0)] toyG) 0x2012B 1 = some (.aff 8 14) ∧
    pAfter (withP [(0, 1, 1)] (withX [(2, 3, 0)] comp)) 0x2022B 2 = some (.aff 10 14) := by decide +kernel

theorem test_pmul_neg :
    pAfter (withX [(2, 5, 0)] toyG) 0x102012B 1 = some (.aff 6 11) ∧
    pAfter (withX [(2, 0, 0)] toyG) 0x102012B 1 = some .inf := by decide +kernel

/-! ## ECDSA (section 6) -/

theorem test_kgen_rejects_draws :
    xAfter { State.reset with entropy := [0#256, Config.romN, BitVec.ofNat 256 (2 ^ 256 - 1), 5#256] } 0x130 1 =
      some (5, 0) := by decide +kernel

theorem test_kgen_waits :
    statusAfter { State.reset with entropy := [0#256] } 0x130 = some 0x1 ∧
    (run { State.reset with entropy := [0#256] } 0x130).map (·.pending) = some (some 0x130#32) := by decide +kernel

theorem test_pubk :
    pAfter (withX [(1, 2, 0)] toy) 0x1131 1 =
      some (.aff 0xC6047F9441ED7D6D3045406E95C07CD85C778E4B8CEF3CA7ABAC09B95C709EE5
        0x1AE168FEA63DC339A3C58419466CEAEEF7F632653266D0E1236431A950CFE52A) := by decide +kernel

theorem test_pubk_range :
    statusAfter State.reset 0x1131 = some 0x406 ∧
    statusAfter (State.reset.setX 1 ⟨Config.romN, 0#256⟩) 0x1131 = some 0x406 := by decide +kernel

/-- E1. -/
theorem test_sign :
    (run { withX [(1, 1, 0), (2, 1, 0)] State.reset with entropy := [1#256] } 0x521432).map
      (fun t => ((t.getX 4).val, (t.getX 5).val)) =
      some (Config.romGx, 0x79BE667EF9DCBBAC55A06295CE870B07029BFCDB2DCE28D959F2815B16F81799#256) := by decide +kernel

/-- E2: Low-S applies. -/
theorem test_sign_low_s :
    (run { withX [(1, 2, 0), (2, 3, 0)] State.reset with entropy := [5#256] } 0x521432).map
      (fun t => ((t.getX 4).val, (t.getX 5).val)) =
      some (0x2F8BDE4D1A07209355B4A7250A5C5128E88B84BDDC619AB7CBA8D569B240EFE4#256,
        0x5361A7145BFD262B775156BDFBDB12BBEDA7BCDD21293567FB43D0747262208B#256) := by decide +kernel

/-- R176, by hand: with `Q = INF`, `z = s = 1` and `r = Gx`, the sum is `G` and the signature is accepted. -/
theorem test_vrfy_accepts :
    statusAfter (withX [(2, 1, 0), (4, Config.romGx.toNat, 0), (5, 1, 0)] State.reset) 0x542133 = some 0xA := by
  decide +kernel

theorem test_vrfy_rejects :
    statusAfter (withX [(2, 1, 0), (4, 0, 0), (5, 1, 0)] State.reset) 0x542133 = some 0x2 ∧
    statusAfter (withP [(1, 1, 1)] (withX [(2, 1, 0), (4, 1, 0), (5, 1, 0)] State.reset)) 0x542133 = some 0x2 ∧
    statusAfter (withX [(2, 3, 0), (4, 1, 0), (5, 1, 0)] State.reset) 0x542133 = some 0x2 := by decide +kernel

/-! ## The host window (sections 7 and 8) -/

theorem test_reads_after_reset :
    readOut State.reset 0x000 = some 0x45434331#32 ∧ readOut State.reset 0x008 = some 0#32 ∧
    readOut State.reset 0x100 = some 0xFFFFFC2F#32 ∧ readOut State.reset 0x104 = some 0xFFFFFFFE#32 ∧
    readOut State.reset 0x11C = some 0xFFFFFFFF#32 ∧ readOut State.reset 0x13C = some 0#32 ∧
    readOut State.reset 0x140 = some 7#32 ∧ readOut State.reset 0x3FC = some 0#32 := by decide +kernel

theorem test_word_order :
    (run State.reset 0x1003).map (fun t => (readOut t 0x400, readOut t 0x410, readOut t 0x420)) =
      some (some 0xD0364141#32, some 0xFFFFFFFE#32, some 0#32) := by decide +kernel

/-- X15 stands at `0x7C0` to `0x7FF`, X5 at `0x540` (R54). -/
theorem test_last_register_in_the_window :
    readOut (withX [(15, 2 ^ 224, 3 * 2 ^ 224)] State.reset) 0x7DC = some 1#32 ∧
    readOut (withX [(15, 2 ^ 224, 3 * 2 ^ 224)] State.reset) 0x7FC = some 3#32 ∧
    readOut (withX [(5, 9, 0)] State.reset) 0x540 = some 9#32 := by decide +kernel

theorem test_write_while_busy_is_discarded :
    statusAfterWrite (State.reset.accept 0x0#32) 0x440 9 = some 0x11 ∧
    statusAfterWrite State.reset 0x010 1 = some 0x0 := by decide +kernel

/-- Section 7: after `FINV` of `(0, p)`, a `CMD` write is discarded and `0x14` to `STATUS` clears the three fields. -/
theorem test_sticky_error :
    statusAfterWrite { State.reset with status := ⟨false, true, true, false, false, 0x03#8⟩ } 0x00C 0 = some 0x316 ∧
    statusAfterWrite { State.reset with status := ⟨false, true, true, false, true, 0x03#8⟩ } 0x008 0x14 = some 0x2 := by
  decide +kernel

theorem test_soft_reset :
    statusAfterWrite { toyG.accept 0x521432#32 with ctrl := ⟨true, true⟩ } 0x004 0x80000000 = some 0x0 := by
  decide +kernel

/-- A draw in flight at a reset is discarded (R231): the later `KGEN` still waits. -/
theorem test_reset_discards_a_draw :
    (match core.run 5 { State.reset.accept 0x130#32 with
        inputs := [.engine, .entropy 5#256, .rstN, .busWrite 0x00C#11 0x130#32, .engine] } with
      | .next t => some ((t.getX 1).val, t.status.busy, t.status.err)
      | .fault _ => none
      | .refused _ => none) = some (0#256, true, false) := by decide +kernel

/-! ## The command programs of a macro (R91), as schedules -/

/-- `WRX` then `ISSUE` of a `MOV` and the engine's turn leave the value in the destination. -/
theorem test_wrx_then_mov :
    (match core.run 12 { State.reset with inputs := hostWrx 1 0x123456789ABCDEF0#256 ++ hostCommand (.mov 3 1) } with
      | .next t => some ((t.getX 3).val, t.readData)
      | .fault _ => none
      | .refused _ => none) = some (0x123456789ABCDEF0#256, some 0x2#32) := by decide +kernel

theorem test_pseudo_psub_needs_two_registers :
    pseudoPsub 2 2 1 = none ∧ pseudoPsub 0 2 1 = some [.pneg 0 1, .padd 0 2 0] := by decide +kernel

theorem test_asm :
    asm (.pmul true 2 1 5) = "PMUL.NEG P2, P1, X5" ∧ asm (.sign 4 5 1 2) = "SIGN X4, X5, X1, X2" := by decide +kernel

/-! ## The hypotheses of the statements are met

For each statement of `Obligations` that has hypotheses, a state and operands that meet them together, clause by clause,
with the bounds of the ranges among them. -/

/-- `X1 = (va, ma)` and `X2 = (vb, mb)`. -/
def pair (va ma vb mb : Nat) : State := withX [(1, va, ma), (2, vb, mb)] State.reset

/-- The operand error of `X1`. -/
def err1 (s : State) : Option (BitVec 8) := operandError (s.x.get 1)

/-- The error of the pair `X1`, `X2`. -/
def err2 (s : State) : Option (BitVec 8) := pairError (s.x.get 1) (s.x.get 2)

/-- A state with a host write as the next step. -/
def writing (off v : Nat) (s : State) : State :=
  { s with inputs := [.busWrite (BitVec.ofNat 11 off) (BitVec.ofNat 32 v)] }

/-- A state with a host read as the next step. -/
def reading (off : Nat) (s : State) : State := { s with inputs := [.busRead (BitVec.ofNat 11 off)] }

/-- A state that runs a command, with `BUSY = 1`. -/
def busy (s : State) : State := s.accept 0#32

/-- A state with a recorded error, `ERR = 1`. -/
def erring (s : State) : State := s.raise .badCurve

theorem on_intro {x y a b p : Nat} (h : x < p ∧ y < p ∧ y ^ 2 % p = (x ^ 3 + a * x + b) % p) :
    OnEquation (.aff x y) a b p := h

theorem off_intro {x y a b p : Nat} (h : ¬(x < p ∧ y < p ∧ y ^ 2 % p = (x ^ 3 + a * x + b) % p)) :
    ¬ OnEquation (.aff x y) a b p := h

theorem current_intro {s : State} {q : Point} {x y a b p : Nat} (hq : q = .aff x y) (hp : s.curveP.toNat = p)
    (ha : s.curveA.toNat = a) (hb : s.curveB.toNat = b)
    (h : x < p ∧ y < p ∧ y ^ 2 % p = (x ^ 3 + a * x + b) % p) : s.OnCurrent q := by
  subst hq hp ha hb
  exact h

theorem not_current_intro {s : State} {q : Point} {x y a b p : Nat} (hq : q = .aff x y) (hp : s.curveP.toNat = p)
    (ha : s.curveA.toNat = a) (hb : s.curveB.toNat = b)
    (h : ¬(x < p ∧ y < p ∧ y ^ 2 % p = (x ^ 3 + a * x + b) % p)) : ¬ s.OnCurrent q := by
  subst hq hp ha hb
  exact h

theorem toyG_on : toyG.OnCurrent (toyG.point 0) :=
  current_intro (x := 15) (y := 13) (a := 0) (b := 7) (p := 17) (by decide +kernel) (by decide) (by decide) (by decide)
    (by decide)

theorem toy_off : ¬ (withP [(0, 1, 1)] toy).OnCurrent ((withP [(0, 1, 1)] toy).point 0) :=
  not_current_intro (x := 1) (y := 1) (a := 0) (b := 7) (p := 17) (by decide +kernel) (by decide) (by decide)
    (by decide) (by decide)

theorem test_hyp_DecodeOfEncodeIsIdentity :
    (Instr.sign 4 5 1 2).wf = true ∧ (Instr.sign 0 15 0 15).wf = true ∧ (Instr.ldi 15 0xFFFF#16).wf = true := by decide

theorem test_hyp_EncodeOfDecodeIsIdentity :
    decode 0x00521432#32 = .ok (.sign 4 5 1 2) ∧ decode 0xFFFF0F02#32 = .ok (.ldi 15 0xFFFF#16) := by decide +kernel

theorem test_hyp_EngineTurnRunsTheDecodedCommand :
    (busy State.reset).inputs = [] ∧ (busy State.reset).pending = some 0#32 ∧
    (State.reset.withFetchWord 32 0).inputs = .engine :: [] ∧ (State.reset.withFetchWord 32 0).pending = some 0#32 ∧
    decode 0#32 = .ok .nop := by decide +kernel

theorem test_hyp_IllegalWordIsAcceptedThenAborts :
    illegalWord (6#32).toNat = true ∧ illegalWord (0#32).toNat = false ∧
    (writing 0xC 6 State.reset).inputs = .busWrite 0x00C#11 6#32 :: [] ∧
    (writing 0xC 6 State.reset).status.busy = false ∧ (writing 0xC 6 State.reset).status.err = false ∧
    (State.reset.accept 6#32).inputs = [] ∧ (State.reset.accept 6#32).pending = some 6#32 := by decide +kernel

theorem test_hyp_NopEndsWithNoEffect :
    (0x100#32).toNat % 256 = 0 ∧ 0x100#32 ≠ 0#32 ∧ (0x80000000#32).toNat % 256 = 0 ∧ 0x80000000#32 ≠ 0#32 := by decide

theorem test_hyp_LdiLoadsTheImmediateAsAnInteger :
    (0xBEEF1402#32).toNat % 256 = 0x02 ∧ (0xBEEF1402#32).toNat / 2 ^ 12 % 16 ≠ 0 := by decide

theorem test_hyp_LdkLoadsTheConstantOfTheIndex :
    (0xA003#32).toNat % 256 = 0x03 ∧ 10 ≤ (0xA003#32).toNat / 2 ^ 12 % 16 ∧
    (0xF003#32).toNat % 256 = 0x03 ∧ 10 ≤ (0xF003#32).toNat / 2 ^ 12 % 16 := by decide

theorem test_hyp_FredReducesOrAbortsOnABadModulus :
    2 ≤ ((pair 40 0 2 0).x.get 2).val.toNat ∧ 2 ≤ ((pair 40 0 (2 ^ 256 - 1) 0).x.get 2).val.toNat ∧
    ((pair 40 0 1 0).x.get 2).val.toNat < 2 ∧ ((pair 40 0 0 0).x.get 2).val.toNat < 2 := by decide +kernel

theorem test_hyp_FaddAddsModuloTheCommonModulus :
    err2 (pair 1 2 1 2) = none ∧ err2 (pair 16 17 0 17) = none ∧ err2 (pair 17 17 1 0) = some 6#8 ∧
    err2 (pair 1 17 1 1) = some 6#8 ∧ err2 (pair 1 0 1 17) = some 5#8 ∧ err2 (pair 1 17 1 19) = some 2#8 := by
  decide +kernel

theorem test_hyp_FsubSubtractsWithTheFloorRemainder :
    err2 (pair 0 2 1 2) = none ∧ err2 (pair 0 17 16 17) = none ∧ err2 (pair 0 1 1 17) = some 6#8 ∧
    err2 (pair 1 17 1 0) = some 5#8 ∧ err2 (pair 1 17 2 2) = some 6#8 ∧ err2 (pair 1 2 1 17) = some 2#8 := by
  decide +kernel

theorem test_hyp_FmulMultipliesModuloTheCommonModulus :
    err2 (pair (2 ^ 256 - 2) (2 ^ 256 - 1) (2 ^ 256 - 2) (2 ^ 256 - 1)) = none ∧ err2 (pair 1 2 0 2) = none ∧
    err2 (pair 2 2 1 17) = some 6#8 ∧ err2 (pair 1 0 1 0) = some 5#8 ∧ err2 (pair 1 17 1 18) = some 2#8 := by
  decide +kernel

theorem test_hyp_FdivMultipliesByTheFermatInverse :
    (err2 (pair 1 2 1 2) = none ∧ ((pair 1 2 1 2).x.get 2).val.toNat ≠ 0) ∧
    (err2 (pair 0 17 0 17) = none ∧ ((pair 0 17 0 17).x.get 2).val.toNat = 0) ∧
    err2 (pair 1 17 0 19) = some 2#8 ∧ err2 (pair 1 0 0 17) = some 5#8 ∧ err2 (pair 1 17 0 1) = some 6#8 := by
  decide +kernel

theorem test_hyp_FinvRaisesToTheModulusMinusTwo :
    (err1 (pair 1 2 0 0) = none ∧ ((pair 1 2 0 0).x.get 1).val.toNat ≠ 0) ∧
    (err1 (pair 0 2 0 0) = none ∧ ((pair 0 2 0 0).x.get 1).val.toNat = 0) ∧
    err1 (pair 0 0 0 0) = some 5#8 ∧ err1 (pair 0 1 0 0) = some 6#8 ∧ err1 (pair 2 2 0 0) = some 6#8 := by
  decide +kernel

theorem test_hyp_FpowReducesTheExponentThenRaises :
    (err1 (pair 0 2 5 0) = none ∧
      ((pair 0 2 5 0).x.get 2).val.toNat % (((pair 0 2 5 0).x.get 1).mod.toNat - 1) = 0) ∧
    (err1 (pair 3 17 16 0) = none ∧
      ((pair 3 17 16 0).x.get 2).val.toNat % (((pair 3 17 16 0).x.get 1).mod.toNat - 1) = 0) ∧
    err1 (pair 3 17 15 17) = none ∧ err1 (pair 3 0 1 0) = some 5#8 ∧ err1 (pair 17 17 1 0) = some 6#8 := by
  decide +kernel

theorem test_hyp_FinvOfAPrimeModulusIsTheUniqueInverse :
    err1 (pair 16 17 0 0) = none ∧ Nat.Prime ((pair 16 17 0 0).x.get 1).mod.toNat ∧
    ((pair 16 17 0 0).x.get 1).val.toNat ≠ 0 := by
  refine ⟨by decide +kernel, ?_, by decide +kernel⟩
  rw [show ((pair 16 17 0 0).x.get 1).mod.toNat = 17 by decide +kernel]
  norm_num

theorem test_hyp_PgenLoadsTheGeneratorIfOnTheCurve :
    ({ State.reset with curveP := 0#256 } : State).curveP.toNat < 2 ∧
    ({ State.reset with curveP := 1#256 } : State).curveP.toNat < 2 ∧
    (2 ≤ toy.curveP.toNat ∧ ¬ toy.OnCurrent romG) ∧
    (2 ≤ State.reset.curveP.toNat ∧ State.reset.OnCurrent romG ∧ State.reset.curveP = State.reset.curveP) :=
  ⟨by decide, by decide,
    ⟨by decide, not_current_intro (x := Config.romGx.toNat) (y := Config.romGy.toNat) (a := 0) (b := 7) (p := 17) rfl
      (by decide) (by decide) (by decide) (by decide +kernel)⟩,
    ⟨by decide +kernel, on_intro (by decide +kernel), rfl⟩⟩

theorem test_hyp_PsetBuildsACheckedPoint :
    ({ State.reset with curveP := 1#256 } : State).curveP.toNat < 2 ∧
    (2 ≤ toy.curveP.toNat ∧ operandError (toy.x.get 1) = some 5#8) ∧
    (operandError ((withX [(1, 15, 17)] toy).x.get 1) = none ∧
      operandError ((withX [(1, 15, 17)] toy).x.get 2) = some 5#8) ∧
    (operandError ((withX [(1, 15, 17), (2, 13, 19)] toy).x.get 2) = none ∧
      ((withX [(1, 15, 17), (2, 13, 19)] toy).x.get 2).mod ≠ toy.curveP) ∧
    (((withX [(1, 15, 17), (2, 13, 17)] toy).x.get 1).mod = toy.curveP ∧
      ((withX [(1, 15, 17), (2, 13, 17)] toy).x.get 2).mod = toy.curveP ∧
      OnEquation (.aff 15 13) 0 7 17 ∧ ¬ OnEquation (.aff 15 12) 0 7 17) :=
  ⟨by decide, ⟨by decide, by decide +kernel⟩, ⟨by decide +kernel, by decide +kernel⟩,
    ⟨by decide +kernel, by decide +kernel⟩,
    ⟨by decide +kernel, by decide +kernel, on_intro (by decide), off_intro (by decide)⟩⟩

theorem test_hyp_PgxAndPgyReadTheCoordinates :
    ({ State.reset with curveP := 1#256 } : State).curveP.toNat < 2 ∧
    (2 ≤ toy.curveP.toNat ∧ ¬ (withP [(0, 1, 1)] toy).OnCurrent ((withP [(0, 1, 1)] toy).point 0)) ∧
    toy.point 0 = .inf ∧ (toyG.point 0 = .aff 15 13 ∧ toyG.OnCurrent (.aff 15 13)) :=
  ⟨by decide, ⟨by decide, toy_off⟩, by decide +kernel, by decide +kernel, on_intro (by decide)⟩

theorem test_hyp_PchkReportsWhetherThePointIsOnTheCurve :
    ({ State.reset with curveP := 1#256 } : State).curveP.toNat < 2 ∧ 2 ≤ toy.curveP.toNat ∧
    toyG.OnCurrent (toyG.point 0) ∧ ¬ (withP [(0, 1, 1)] toy).OnCurrent ((withP [(0, 1, 1)] toy).point 0) :=
  ⟨by decide, by decide, toyG_on, toy_off⟩

theorem test_hyp_PnegNegatesTheYCoordinate :
    ({ State.reset with curveP := 1#256 } : State).curveP.toNat < 2 ∧ 2 ≤ toyG.curveP.toNat ∧
    toyG.OnCurrent (toyG.point 0) ∧ ¬ (withP [(0, 1, 1)] toy).OnCurrent ((withP [(0, 1, 1)] toy).point 0) :=
  ⟨by decide, by decide, toyG_on, toy_off⟩

theorem test_hyp_EcAddFollowsItsFourCasesInOrder :
    ((15 : Nat) = 15 ∧ (13 + 4) % 17 = 0) ∧ ((13 + 13) % 17 ≠ 0 ∧ (2 : Nat) ≤ 17) ∧
    (¬((2 : Nat) = 8 ∧ (10 + 3) % 17 = 0) ∧ ¬((2 : Nat) = 8 ∧ (10 : Nat) = 3)) ∧
    ecAdd (.aff 2 10) (.aff 8 3) 0 17 = .ok (.aff 6 6) := by decide +kernel

theorem test_hyp_PaddWritesTheSum :
    ({ State.reset with curveP := 1#256 } : State).curveP.toNat < 2 ∧
    (2 ≤ toy.curveP.toNat ∧ ¬ (withP [(0, 1, 1)] toy).OnCurrent ((withP [(0, 1, 1)] toy).point 0)) ∧
    (toyG.OnCurrent (toyG.point 0) ∧ Nat.Prime toyG.curveP.toNat ∧
      ecAdd (toyG.point 0) (toyG.point 0) 0 17 = .ok (.aff 2 10)) ∧
    (OnEquation (.aff 1 1) 0 0 15 ∧ OnEquation (.aff 1 4) 0 0 15 ∧
      ecAdd (.aff 1 1) (.aff 1 4) 0 15 = .error .zeroInverse) := by
  refine ⟨by decide, ⟨by decide, toy_off⟩, ⟨toyG_on, ?_, by decide +kernel⟩, on_intro (by decide), on_intro (by decide),
    by decide +kernel⟩
  rw [show toyG.curveP.toNat = 17 by decide]
  norm_num

theorem test_hyp_PdblAlwaysCompletesAndEqualsPaddOfAPoint :
    ({ State.reset with curveP := 1#256 } : State).curveP.toNat < 2 ∧ 2 ≤ toy.curveP.toNat ∧
    ¬ (withP [(0, 1, 1)] toy).OnCurrent ((withP [(0, 1, 1)] toy).point 0) ∧ toyG.OnCurrent (toyG.point 0) ∧
    toy.point 0 = .inf ∧ ((withP [(0, 3, 0)] toy).point 0 = .aff 3 0 ∧ toy.OnCurrent (.aff 3 0)) :=
  ⟨by decide, by decide, toy_off, toyG_on, by decide +kernel, by decide +kernel, on_intro (by decide)⟩

theorem test_hyp_PmulRunsDoubleAndAdd :
    ({ State.reset with curveP := 1#256 } : State).curveP.toNat < 2 ∧
    (2 ≤ toy.curveP.toNat ∧ ¬ (withP [(0, 1, 1)] toy).OnCurrent ((withP [(0, 1, 1)] toy).point 0)) ∧
    (toyG.OnCurrent (toyG.point 0) ∧ doubleAndAdd 2 (toyG.point 0) 0 17 = .ok (.aff 2 10) ∧
      doubleAndAdd 1 (negPoint (toyG.point 0) 17) 0 17 = .ok (.aff 15 4)) ∧
    (OnEquation (.aff 4 2) 0 0 15 ∧ doubleAndAdd 5 (.aff 4 2) 0 15 = .error .zeroInverse) ∧
    (toyG.x.get 1).val.toNat = 0 ∧ toy.point 0 = .inf :=
  ⟨by decide, ⟨by decide, toy_off⟩, ⟨toyG_on, by decide +kernel, by decide +kernel⟩,
    ⟨on_intro (by decide), by decide +kernel⟩, by decide +kernel, by decide +kernel⟩

theorem test_hyp_ZeroInverseArisesOnlyInOneChordCase :
    ((2 : Nat) ≤ 2 ∧ (1 : Nat) < 2) ∧ ((2 : Nat) ≤ 15 ∧ ((1 : Nat) ≠ 4 ∧ (1 + 4) % 15 ≠ 0)) ∧
    (Nat.Prime 17 ∧ OnEquation (.aff 15 13) 0 7 17 ∧ OnEquation (.aff 2 10) 0 7 17) :=
  ⟨by decide, by decide, by norm_num, on_intro (by decide), on_intro (by decide)⟩

theorem test_hyp_PmulCompletesOnAPrimeCurve :
    Nat.Prime toyG.curveP.toNat ∧ toyG.OnCurrent (toyG.point 0) := by
  refine ⟨?_, toyG_on⟩
  rw [show toyG.curveP.toNat = 17 by decide]
  norm_num

theorem test_hyp_GroupLawsHoldOnAPrimeCurve :
    Nat.Prime 17 ∧ OnEquation (.aff 15 13) 0 7 17 ∧ OnEquation (.aff 2 10) 0 7 17 ∧
    (4 * 0 ^ 3 + 27 * 7 ^ 2) % 17 ≠ 0 :=
  ⟨by norm_num, on_intro (by decide), on_intro (by decide), by decide⟩

theorem accepted_one : Accepted 1#256 ∧ Accepted (Config.romN - 1#256) ∧ ¬ Accepted 0#256 ∧ ¬ Accepted Config.romN := by
  unfold Accepted
  decide +kernel

theorem test_hyp_KgenStoresTheFirstAcceptedDraw :
    (({ State.reset with entropy := [0#256, Config.romN, 1#256, 5#256] } : State).entropy =
        [0#256, Config.romN] ++ 1#256 :: [5#256] ∧
      (∀ v ∈ [0#256, Config.romN], ¬ Accepted v) ∧ Accepted 1#256 ∧ Accepted (Config.romN - 1#256)) ∧
    (∀ v ∈ ({ State.reset with entropy := [0#256] } : State).entropy, ¬ Accepted v) ∧
    (∀ v ∈ State.reset.entropy, ¬ Accepted v) := by
  refine ⟨⟨rfl, ?_, accepted_one.1, accepted_one.2.1⟩, ?_, ?_⟩
  · simp [accepted_one]
  · simp [accepted_one]
  · simp [State.reset]

/-- `X1` holds a key, `X2` a digest, and the entropy source has one answer. -/
def signer (k dk z : Nat) : State :=
  { withX [(1, dk, 0), (2, z, 0)] State.reset with entropy := [BitVec.ofNat 256 k] }.accept 0x00521432#32

theorem test_hyp_PubkMultipliesTheGenerator :
    ((signer 1 0 0).x.get 1).val.toNat < 1 ∧ romOrder - 1 < ((signer 1 romOrder 0).x.get 1).val.toNat ∧
    (1 ≤ ((signer 1 1 0).x.get 1).val.toNat ∧ ((signer 1 1 0).x.get 1).val.toNat ≤ romOrder - 1) ∧
    ((signer 1 (romOrder - 1) 0).x.get 1).val.toNat = romOrder - 1 := by decide +kernel

theorem one_pow_pass (e m r dk z : Nat) : 1 ^ e % m * (z + r * dk) % m = 1 % m * (z + r * dk) % m := by
  rw [Nat.one_pow]

theorem rawS_one (r dk z : Nat) : rawS 1 r dk z = 1 % romOrder * (z + r * dk) % romOrder :=
  one_pow_pass (romOrder - 2) romOrder r dk z

/-- A nonce of 1 gives `G`; with the key 1 the digest `n - Gx` makes `s` 0, and the digest 1 gives a signature. -/
theorem test_hyp_SignFollowsItsLoop :
    ((signer 1 1 1).entropy = [] ++ 1#256 :: [] ∧ (∀ v ∈ ([] : List Word), ¬ Accepted v) ∧ Accepted 1#256) ∧
    romMul 1 romG = .ok romG ∧
    rawS 1 (Config.romGx.toNat % romOrder) 1 (romOrder - Config.romGx.toNat) = 0 ∧
    (Config.romGx.toNat % romOrder ≠ 0 ∧ rawS 1 (Config.romGx.toNat % romOrder) 1 1 ≠ 0) ∧
    (∀ v ∈ State.reset.entropy, ¬ Accepted v) := by
  refine ⟨⟨by decide +kernel, by simp, accepted_one.1⟩, by decide +kernel, (rawS_one _ _ _).trans (by decide +kernel),
    ⟨by decide +kernel, fun h => absurd ((rawS_one _ _ _).symm.trans h) (by decide +kernel)⟩, ?_⟩
  simp [State.reset]

theorem finish_next (s : State) (r : Except Err State) : finish s r = .next (match r with
    | .ok t => t.commit
    | .error e => s.raise e) := by
  cases r <;> rfl

theorem next_after {i : Instr} {s : State} (h : ∃ t, exec i s = .next t) : exec i s = .next (after i s) := by
  obtain ⟨t, h⟩ := h
  rw [after, h]

theorem pubk_next (d : PNum) (k : XNum) (s : State) : exec (.pubk d k) s = .next (after (.pubk d k) s) :=
  next_after ⟨_, finish_next _ _⟩

theorem vrfy_next (q : PNum) (z r t : XNum) (s : State) :
    exec (.vrfy q z r t) s = .next (after (.vrfy q z r t) s) :=
  next_after ⟨_, finish_next _ _⟩

theorem finv_next (d a : XNum) (s : State) : exec (.finv d a) s = .next (after (.finv d a) s) :=
  next_after ⟨_, finish_next _ _⟩

theorem padd_next (d a b : PNum) (s : State) : exec (.padd d a b) s = .next (after (.padd d a b) s) :=
  next_after ⟨_, finish_next _ _⟩

theorem sign_next (r t d z : XNum) (s : State) : exec (.sign r t d z) s = .next (after (.sign r t d z) s) := by
  refine next_after ?_
  show ∃ u, execSign r t d z s = .next u
  unfold execSign
  split
  · exact ⟨_, rfl⟩
  · exact ⟨_, finish_next _ _⟩

theorem test_hyp_SignResultsLieInRange :
    (4 : XNum) ≠ 5 ∧ exec (.sign 4 5 1 2) (signer 1 1 1) = .next (after (.sign 4 5 1 2) (signer 1 1 1)) ∧
    (after (.sign 4 5 1 2) (signer 1 1 1)).pending = none ∧ (signer 1 1 1).pending ≠ none ∧
    (after (.sign 4 5 1 2) (signer 1 1 1)).status.err = false :=
  ⟨by decide, sign_next _ _ _ _ _, by decide +kernel, by decide +kernel, by decide +kernel⟩

/-- `P0 = G`, `X2` the digest, `X4` and `X5` a signature. -/
def verifier (z r s : Nat) : State :=
  withX [(2, z, 0), (4, r, 0), (5, s, 0)] (withP [(0, Config.romGx.toNat, Config.romGy.toNat)] State.reset)

theorem verifier_on (z r s : Nat) (h : (verifier z r s).point 0 = romG) : OnRom ((verifier z r s).point 0) := by
  rw [h]
  exact on_intro (by decide +kernel)

theorem test_hyp_VrfyIsTotalAndFollowsItsSteps :
    ¬ OnRom ((withP [(0, 1, 1)] State.reset).point 0) ∧
    ((verifier 1 0 1).x.get 4).val.toNat < 1 ∧ romOrder - 1 < ((verifier 1 romOrder 1).x.get 4).val.toNat ∧
    ((verifier 1 1 0).x.get 5).val.toNat < 1 ∧ romOrder - 1 < ((verifier 1 1 romOrder).x.get 5).val.toNat ∧
    (OnRom ((verifier 1 1 (romOrder - 1)).point 0) ∧ 1 ≤ ((verifier 1 1 (romOrder - 1)).x.get 4).val.toNat ∧
      ((verifier 1 1 (romOrder - 1)).x.get 4).val.toNat ≤ romOrder - 1 ∧
      1 ≤ ((verifier 1 1 (romOrder - 1)).x.get 5).val.toNat ∧
      ((verifier 1 1 (romOrder - 1)).x.get 5).val.toNat ≤ romOrder - 1) := by
  refine ⟨?_, by decide +kernel, by decide +kernel, by decide +kernel, by decide +kernel,
    verifier_on _ _ _ (by decide +kernel), by decide +kernel, by decide +kernel, by decide +kernel, by decide +kernel⟩
  rw [show (withP [(0, 1, 1)] State.reset).point 0 = .aff 1 1 by decide +kernel]
  exact off_intro (by decide +kernel)

theorem test_hyp_EcdsaIgnoresTheCurveRegisters :
    exec (.sign 4 5 1 2) (signer 1 1 1) = .next (after (.sign 4 5 1 2) (signer 1 1 1)) ∧
    exec (.pubk 0 1) (signer 1 0 0) = .next (after (.pubk 0 1) (signer 1 0 0)) ∧
    exec (.vrfy 0 2 4 5) (verifier 1 0 1) = .next (after (.vrfy 0 2 4 5) (verifier 1 0 1)) :=
  ⟨sign_next _ _ _ _ _, pubk_next _ _ _, vrfy_next _ _ _ _ _⟩

/-- The key 1, the nonce 1 and the digest 1; the key's point is `G`. Both `s` and `n - s` are met. -/
theorem test_hyp_SignedSignaturesVerify :
    (4 : XNum) ≠ 5 ∧ 1 ≤ ((signer 1 1 1).x.get 1).val.toNat ∧ ((signer 1 1 1).x.get 1).val.toNat ≤ romOrder - 1 ∧
    exec (.sign 4 5 1 2) (signer 1 1 1) = .next (after (.sign 4 5 1 2) (signer 1 1 1)) ∧
    (signer 1 1 1).pending ≠ none ∧ (after (.sign 4 5 1 2) (signer 1 1 1)).pending = none ∧
    (after (.sign 4 5 1 2) (signer 1 1 1)).status.err = false ∧
    romMul ((signer 1 1 1).x.get 1).val.toNat romG = .ok romG ∧
    (∃ v : State, v.point 0 = romG ∧ (v.x.get 2).val = ((signer 1 1 1).x.get 2).val ∧
      (v.x.get 4).val = ((after (.sign 4 5 1 2) (signer 1 1 1)).x.get 4).val ∧
      (v.x.get 5).val = ((after (.sign 4 5 1 2) (signer 1 1 1)).x.get 5).val) ∧
    (∃ v : State, v.point 0 = romG ∧ (v.x.get 2).val = ((signer 1 1 1).x.get 2).val ∧
      (v.x.get 4).val = ((after (.sign 4 5 1 2) (signer 1 1 1)).x.get 4).val ∧
      (v.x.get 5).val.toNat = romOrder - ((after (.sign 4 5 1 2) (signer 1 1 1)).x.get 5).val.toNat) := by
  refine ⟨by decide, by decide +kernel, by decide +kernel, sign_next _ _ _ _ _, by decide +kernel, by decide +kernel,
    by decide +kernel, by decide +kernel,
    ⟨verifier 1 ((after (.sign 4 5 1 2) (signer 1 1 1)).x.get 4).val.toNat
      ((after (.sign 4 5 1 2) (signer 1 1 1)).x.get 5).val.toNat, ?_⟩,
    ⟨verifier 1 ((after (.sign 4 5 1 2) (signer 1 1 1)).x.get 4).val.toNat
      (romOrder - ((after (.sign 4 5 1 2) (signer 1 1 1)).x.get 5).val.toNat), ?_⟩⟩
  · decide +kernel
  · decide +kernel

theorem test_hyp_VerificationIsMalleableInS :
    1 ≤ ((withX [(6, romOrder - 1, 0)] (verifier 1 1 1)).x.get 5).val.toNat ∧
    ((withX [(6, romOrder - 1, 0)] (verifier 1 1 1)).x.get 5).val.toNat ≤ romOrder - 1 ∧
    ((withX [(6, romOrder - 1, 0)] (verifier 1 1 1)).x.get 6).val.toNat =
      romOrder - ((withX [(6, romOrder - 1, 0)] (verifier 1 1 1)).x.get 5).val.toNat := by decide +kernel

/-- `FINV` of 0 raises `E_ZERO_INVERSE`; `PADD` of `(1, 1)` and `(1, 4)` mod 15 does too. -/
theorem test_hyp_CommandsRaiseOnlyTheirListedErrors :
    (∃ t, exec (.finv 3 1) (pair 0 17 0 0) = .next t ∧ (pair 0 17 0 0).status.err = false ∧ t.status.err = true) ∧
    (∃ t, exec (.padd 2 1 0) (withP [(0, 1, 1), (1, 1, 4)] comp) = .next t ∧ comp.status.err = false ∧
      t.status.err = true ∧ t.status.errCode = 0x03#8) ∧
    ((State.reset.accept 6#32).inputs = [] ∧ (State.reset.accept 6#32).pending = some 6#32 ∧
      illegalWord (6#32).toNat = true) :=
  ⟨⟨_, finv_next _ _ _, by decide +kernel, by decide +kernel⟩,
    ⟨_, padd_next _ _ _ _, by decide +kernel, by decide +kernel, by decide +kernel⟩,
    by decide +kernel, by decide +kernel, by decide +kernel⟩

theorem test_hyp_OnlyPredicatesWriteResult :
    (∃ t, exec (.feq 1 2) (pair 3 17 3 17) = .next t ∧ t.status.result ≠ (pair 3 17 3 17).status.result ∧
      WritesResult (.feq 1 2) (pair 3 17 3 17)) ∧
    WritesResult (.pchk 0) { State.reset with curveP := 2#256 } ∧
    ¬ WritesResult (.pchk 0) { State.reset with curveP := 1#256 } ∧
    (∃ t, exec .nop State.reset = .next t) ∧ ¬ WritesResult .nop State.reset :=
  ⟨⟨_, rfl, by decide +kernel, .inl ⟨1, 2, rfl⟩⟩, .inr (.inl ⟨0, rfl, by decide⟩), by simp [WritesResult], ⟨_, rfl⟩,
    by simp [WritesResult]⟩

theorem test_hyp_EveryStepKeepsTheHandshake :
    (busy State.reset).Handshake ∧ ∃ t, step (busy State.reset) = .next t :=
  ⟨⟨rfl, fun _ h => Option.some.inj h, fun _ => ⟨rfl, rfl⟩, fun _ => rfl, fun h => absurd h (by decide)⟩, _, rfl⟩

theorem test_hyp_EveryStepButAHostWriteKeepsRegistersWellFormed :
    (busy State.reset).RegsWellFormed ∧ (busy State.reset).hostWritesNext = false ∧
    ∃ t, step (busy State.reset) = .next t :=
  ⟨fun i => .inl (by revert i; decide +kernel), rfl, _, rfl⟩

theorem test_hyp_PointCommandsKeepPointsOnThePrimeCurve :
    Nat.Prime toy.curveP.toNat ∧ toy.PointsOnCurve ∧ (∀ d k, Instr.pinf 0 ≠ .pubk d k) ∧
    ∃ t, exec (.pinf 0) toy = .next t := by
  refine ⟨?_, ⟨by decide, fun j => ?_⟩, ?_, _, rfl⟩
  · rw [show toy.curveP.toNat = 17 by decide]
    norm_num
  · rw [show toy.point j = .inf by revert j; decide +kernel]
    trivial
  · intro d k h
    exact Instr.noConfusion h

/-- The first and the last word of each window, in a state with `BUSY = 0`. -/
theorem test_hyp_WindowAccessReadsAndReplacesOneWord :
    ((reading 0x400 State.reset).inputs =
        .busRead (BitVec.ofNat 11 (0x400 + 0x40 * (0 : XNum).val + 4 * (0 : WordNum).val)) :: [] ∧
      (reading 0x7DC State.reset).inputs =
        .busRead (BitVec.ofNat 11 (0x400 + 0x40 * (15 : XNum).val + 4 * (7 : WordNum).val)) :: [] ∧
      (reading 0x7FC State.reset).inputs =
        .busRead (BitVec.ofNat 11 (0x400 + 0x40 * (15 : XNum).val + 0x20 + 4 * (7 : WordNum).val)) :: [] ∧
      BitVec.ofNat 11 (0x100 + 4 * (7 : WordNum).val) = 0x11C#11 ∧
      BitVec.ofNat 11 (0x120 + 4 * (0 : WordNum).val) = 0x120#11 ∧
      BitVec.ofNat 11 (0x140 + 4 * (7 : WordNum).val) = 0x15C#11) ∧
    ((writing 0x7FC 5 State.reset).inputs =
        .busWrite (BitVec.ofNat 11 (0x400 + 0x40 * (15 : XNum).val + 0x20 + 4 * (7 : WordNum).val)) 5#32 :: [] ∧
      (writing 0x7FC 5 State.reset).status.busy = false) := by decide +kernel

theorem test_hyp_BusyOrErrorDiscardsTheNamedWrites :
    ((writing 0xC 5 State.reset).inputs = .busWrite 0x00C#11 5#32 :: [] ∧ (0x00C#11).toNat % 4 = 0 ∧
      (writing 0xC 5 State.reset).status.busy = false ∧ (writing 0xC 5 State.reset).status.err = false) ∧
    (writing 0xC 5 (busy State.reset)).status.busy = true ∧ (writing 0xC 5 (erring State.reset)).status.err = true ∧
    (0x100 ≤ (0x100#11).toNat ∧ (0x15C#11).toNat ≤ 0x15F ∧ 0x400 ≤ (0x400#11).toNat ∧ 0x400 ≤ (0x7FC#11).toNat) ∧
    ((writing 0x100 5 (busy State.reset)).status.busy = true ∧
      (writing 0x7FC 5 (erring State.reset)).status.busy = false) ∧
    (0x004#11).toNat % 4 = 0 ∧ (0x008#11).toNat % 4 = 0 := by decide +kernel

theorem test_hyp_StatusWritesClearByWritingOne :
    (writing 0x8 0x16 (erring State.reset)).inputs = .busWrite 0x008#11 0x16#32 :: [] ∧
    (∀ b ∈ [1, 2, 4], (0x16#32).getLsbD b = true ∧ (0#32).getLsbD b = false) ∧
    (writing 0x8 0x16 (erring State.reset)).status.busy = false ∧
    (∃ (c : Word32) (more : List Input), [Input.busWrite 0x00C#11 5#32] = .busWrite 0x00C#11 c :: more) :=
  ⟨by decide +kernel, by decide, by decide +kernel, 5#32, [], rfl⟩

theorem test_hyp_ControlWritesSetTheEnablesOrReset :
    (writing 0x4 3 State.reset).inputs = .busWrite 0x004#11 3#32 :: [] ∧ (3#32).getLsbD 31 = false ∧
    (0x80000003#32).getLsbD 31 = true ∧
    ({ State.reset with inputs := [.rstN] } : State).inputs = .rstN :: [] ∧
    (reading 0x4 State.reset).inputs = .busRead 0x004#11 :: [] := by decide +kernel

theorem test_hyp_ResetLeavesTheListedValues :
    (reading 0x0 State.reset).inputs = .busRead 0x000#11 :: [] := by decide +kernel

theorem test_hyp_ReservedOffsetsAndIdIgnoreWrites :
    (∀ off ∈ [0x010#11, 0x0FC#11, 0x160#11, 0x3FC#11], off.toNat % 4 = 0 ∧
      ((0x010 ≤ off.toNat ∧ off.toNat ≤ 0x0FF) ∨ (0x160 ≤ off.toNat ∧ off.toNat ≤ 0x3FF))) ∧
    (reading 0x3FC State.reset).inputs = .busRead 0x3FC#11 :: [] ∧
    (writing 0x10 5 State.reset).inputs = .busWrite 0x010#11 5#32 :: [] ∧
    (writing 0x0 5 State.reset).inputs = .busWrite 0x000#11 5#32 :: [] ∧
    ((0x7FFFFFFF#32).getLsbD 0 = (3#32).getLsbD 0 ∧ (0x7FFFFFFF#32).getLsbD 1 = (3#32).getLsbD 1 ∧
      (0x7FFFFFFF#32).getLsbD 31 = (3#32).getLsbD 31) ∧
    (∀ b ∈ [1, 2, 4], (0xFFFFFFFF#32).getLsbD b = (0x16#32).getLsbD b) := by decide +kernel

theorem test_hyp_NarrowOrMisalignedAccessIsRefused :
    ({ State.reset with inputs := [.busNarrow .half 0x400#11] } : State).inputs = .busNarrow .half 0x400#11 :: [] ∧
    ((reading 0x401 State.reset).inputs = .busRead 0x401#11 :: [] ∧ (0x401#11).toNat % 4 ≠ 0) ∧
    ((writing 0x7FC 5 State.reset).inputs = .busWrite 0x7FC#11 5#32 :: [] ∧ (0x7FC#11).toNat % 4 = 0) := by
  decide +kernel

theorem test_hyp_InterruptFollowsDoneAndErr :
    (busy { State.reset with ctrl := ⟨true, false⟩ }).ctrl.ieDone = true ∧ (busy State.reset).pending ≠ none ∧
    ∃ t, exec .nop (busy State.reset) = .next t ∧ t.pending = none :=
  ⟨by decide, by decide +kernel, _, rfl, rfl⟩

/-- `KGEN` waits, an answer has come, and then the block is reset, by either event. -/
theorem test_hyp_ResetAbandonsThePendingCommandAndItsDraw :
    ({ State.reset.accept 0x130#32 with inputs := [.rstN], entropy := [5#256] } : State).inputs = .rstN :: [] ∧
    ((0x80000000#32).getLsbD 31 = true ∧
      (writing 0x4 0x80000000 (State.reset.accept 0x130#32)).inputs = .busWrite 0x004#11 0x80000000#32 :: []) := by
  decide +kernel

end Sys2Proof.Tests
end

section
/-! The engine's turn: what one step is when the schedule leaves it to the engine, and what the engine does with a
pending word. -/

namespace Sys2Proof.Machine

@[simp] theorem State.withInputs_self (s : State) : s.withInputs s.inputs = s := rfl

/-- R18: an empty schedule and an `engine` entry both give the engine the turn; only the entry is taken off. -/
theorem step_eq_engineTurn {s : State} {rest : List Input}
    (h : (s.inputs = [] ∧ rest = []) ∨ s.inputs = .engine :: rest) : step s = engineTurn (s.withInputs rest) := by
  obtain ⟨hs, hr⟩ | hs := h
  · have hself : s.withInputs rest = s := by rw [hr, ← hs, State.withInputs_self]
    rw [hself, step, hs]
  · rw [step, hs]

theorem engineTurn_of_pending {s : State} {w : Word32} (h : s.pending = some w) : engineTurn s = runWord w s := by
  rw [engineTurn, State.fetch, h]

theorem runWord_of_decode_ok {w : Word32} {i : Instr} (h : decode w = .ok i) (s : State) : runWord w s = exec i s := by
  rw [runWord, h]

/-- Settles O5: the turn goes to the engine, which fetches the pending word and executes what it decodes to. -/
theorem engineTurnRunsTheDecodedCommand : Obligations.EngineTurnRunsTheDecodedCommand := by
  intro s rest w i hturn hpending hdecode
  have hpending' : (s.withInputs rest).pending = some w := by rw [State.withInputs_pending, hpending]
  calc step s
    _ = engineTurn (s.withInputs rest) := step_eq_engineTurn hturn
    _ = runWord w (s.withInputs rest) := engineTurn_of_pending hpending'
    _ = exec i (s.withInputs rest) := runWord_of_decode_ok hdecode _

end Sys2Proof.Machine
end

section
/-! How every command ends. `exec_ends` says it once for all commands: `exec i` answers the ending of one of four kinds,
the same in all states that hold the values `i` reads, and every register write of it is sound. The invariants of the
engine and the noninterference statements follow from it without another walk through the commands. -/

namespace Sys2Proof.Machine

/-! ## The vocabulary -/

/-- The write of one register by a committing command. -/
inductive RegWrite where
  | x (d : XNum) (r : XReg)
  | p (d : PNum) (r : PReg)
  | point (d : PNum) (q : Point)

/-- The state after a register write (R11). -/
def State.write (s : State) : RegWrite → State
  | .x d r => s.setX d r
  | .p d r => s.setP d r
  | .point d q => s.setPoint d q

/-- The state after register writes, the first of the list first. -/
def State.writeAll (s : State) (ws : List RegWrite) : State := ws.foldl State.write s

/-- The four ways a command ends its turn: it waits for the entropy source (R245), aborts (R200), commits register
writes with the answers `rest` of the source left (R205), or commits a value of `RESULT` (R37). -/
inductive Ending where
  | wait
  | abort (e : Err)
  | commit (rest : List Word) (ws : List RegWrite)
  | flag (b : Bool)

/-- The state that a command with this ending leaves when it runs on `s`. -/
def State.endWith (s : State) : Ending → State
  | .wait => s.awaitEntropy
  | .abort e => s.raise e
  | .commit rest ws => ((s.withEntropy rest).writeAll ws).commit
  | .flag b => (s.setResult b).commit

/-- The ECDSA commands that never read the curve registers (R28). -/
def Instr.IsEcdsa (i : Instr) : Prop :=
  (∃ d k, i = .pubk d k) ∨ (∃ r u d z, i = .sign r u d z) ∨ ∃ q z r u, i = .vrfy q z r u

/-- `s'` holds the values that the command `i` reads in `s`. -/
structure ReadsAlike (i : Instr) (s s' : State) : Prop where
  x : s'.x = s.x
  p : s'.p = s.p
  entropy : s'.entropy = s.entropy
  curve : ¬ Instr.IsEcdsa i → s'.curveP = s.curveP ∧ s'.curveA = s.curveA ∧ s'.curveB = s.curveB

/-- What the engine keeps to when it writes a register: an X register gets a copy of one or a well-formed value (R22), a
P register a copy of one or, for every command but `PUBK`, a point of the current curve when `CURVE_P` is prime (R24). -/
def RegWrite.Sound (i : Instr) (s : State) : RegWrite → Prop
  | .x _ r => (∃ j, r = s.getX j) ∨ r.wellFormed = true
  | .p _ r => ∃ j, r = s.getP j
  | .point _ q => (∀ d k, i ≠ .pubk d k) → Nat.Prime s.curveP.toNat → s.OnCurrent q

/-- `RESULT` is written exactly by the commands of R37, and register writes are sound. -/
def Ending.Sound (i : Instr) (s : State) : Ending → Prop
  | .wait => ¬ WritesResult i s
  | .abort _ => ¬ WritesResult i s
  | .commit _ ws => ¬ WritesResult i s ∧ ∀ w ∈ ws, w.Sound i s
  | .flag _ => WritesResult i s

/-- `run` gives the command `i` one sound ending in all states that read like `s`. -/
def Ends (i : Instr) (s : State) (run : State → Out) : Prop :=
  ∃ en : Ending, en.Sound i s ∧ ∀ s', ReadsAlike i s s' → run s' = .next (s'.endWith en)

/-- `body` computes one error, or one list of sound register writes, in all states that read like `s`. -/
def Writes (i : Instr) (s : State) (body : State → Except Err State) : Prop :=
  ∃ res : Except Err (List RegWrite), (∀ ws, res = .ok ws → ∀ w ∈ ws, w.Sound i s) ∧
    ∀ s', ReadsAlike i s s' → body s' = res.map s'.writeAll

variable {i : Instr} {s s' : State}

/-! ## Reading alike -/

theorem ReadsAlike.refl (i : Instr) (s : State) : ReadsAlike i s s := ⟨rfl, rfl, rfl, fun _ => ⟨rfl, rfl, rfl⟩⟩

theorem ReadsAlike.getX (h : ReadsAlike i s s') (j : XNum) : s'.getX j = s.getX j := by
  rw [State.getX, h.x, State.getX]

theorem ReadsAlike.getP (h : ReadsAlike i s s') (j : PNum) : s'.getP j = s.getP j := by
  rw [State.getP, h.p, State.getP]

theorem ReadsAlike.point (h : ReadsAlike i s s') (j : PNum) : s'.point j = s.point j := by
  rw [State.point, h.getP, State.point]

theorem ReadsAlike.scalar (h : ReadsAlike i s s') (j : XNum) : s'.scalar j = s.scalar j := by
  rw [State.scalar, h.getX, State.scalar]

theorem ReadsAlike.fieldPair (h : ReadsAlike i s s') (a b : XNum) : s'.fieldPair a b = s.fieldPair a b := by
  rw [State.fieldPair, h.getX, h.getX, State.fieldPair]

theorem ReadsAlike.curve_eq (h : ReadsAlike i s s') (hi : ¬ Instr.IsEcdsa i) : s'.curve = s.curve := by
  obtain ⟨hp, ha, hb⟩ := h.curve hi
  rw [State.curve, hp, ha, hb, State.curve]

theorem ReadsAlike.konst (h : ReadsAlike i s s') (hi : ¬ Instr.IsEcdsa i) (k : Konst) : s'.konst k = s.konst k := by
  obtain ⟨hp, ha, hb⟩ := h.curve hi
  cases k <;> simp [State.konst, hp, ha, hb]

/-! ## Well-formed values -/

theorem wellFormed_iff {r : XReg} :
    r.wellFormed = true ↔ r.mod.toNat = 0 ∨ (2 ≤ r.mod.toNat ∧ r.val.toNat < r.mod.toNat) := by
  simp [XReg.wellFormed]

theorem wellFormed_integer (v : Word) : XReg.wellFormed ⟨v, 0#256⟩ = true := wellFormed_iff.2 (.inl rfl)

theorem wellFormed_fieldReg {v m : Nat} (h2 : 2 ≤ m) (hm : m < 2 ^ 256) (hv : v < m) :
    (fieldReg v m).wellFormed = true := by
  rw [wellFormed_iff, fieldReg_mod_toNat hm, fieldReg_val_toNat (hv.trans hm)]
  exact .inr ⟨h2, hv⟩

/-! ## Points of the current curve -/

/-- The coordinates of a point on the current curve are reduced mod `CURVE_P`. -/
theorem State.OnCurrent.lt_curveP {x y : Nat} (h : s.OnCurrent (.aff x y)) :
    x < s.curveP.toNat ∧ y < s.curveP.toNat := OnEquation.lt h x y rfl

theorem onCurrent_of_ok {f : Except Err Point} {q : Point} (h : ∃ t, f = .ok t ∧ s.OnCurrent t)
    (hq : f = .ok q) : s.OnCurrent q := by
  obtain ⟨t, ht, hon⟩ := h
  cases ht.symm.trans hq
  exact hon

/-- Over a prime modulus the current curve is closed under addition (R147). -/
theorem State.OnCurrent.add {q r : Point} (hp : Nat.Prime s.curveP.toNat) (hq : s.OnCurrent q) (hr : s.OnCurrent r) :
    ∃ t, ecAdd q r s.currentCurve.a s.currentCurve.p = .ok t ∧ s.OnCurrent t := by
  have := Fact.mk hp
  obtain ⟨t, ht, hon⟩ := ecAdd_onEquation ((onEquation_mod _ _ _ _).2 hq) ((onEquation_mod _ _ _ _).2 hr)
  exact ⟨t, ht, (onEquation_mod _ _ _ _).1 hon⟩

/-- Over a prime modulus the current curve is closed under double-and-add (R146, R147). -/
theorem State.OnCurrent.mul {q : Point} (k : Nat) (hp : Nat.Prime s.curveP.toNat) (hq : s.OnCurrent q) :
    ∃ t, ecMul k q s.currentCurve.a s.currentCurve.p = .ok t ∧ s.OnCurrent t := by
  have := Fact.mk hp
  obtain ⟨t, ht, hon⟩ := ecMul_onEquation k ((onEquation_mod _ _ _ _).2 hq)
  exact ⟨t, ht, (onEquation_mod _ _ _ _).1 hon⟩

/-- Over a prime modulus the current curve is closed under negation (R144). -/
theorem State.OnCurrent.neg {q : Point} (hp : Nat.Prime s.curveP.toNat) (hq : s.OnCurrent q) :
    s.OnCurrent (ecNeg q s.curveP.toNat) := by
  have := Fact.mk hp
  exact ecNeg_onEquation hq

/-! ## Rules for the body of a command, one for each form the bodies are built from -/

theorem Writes.of_error {body : State → Except Err State} {e : Err}
    (h : ∀ s', ReadsAlike i s s' → body s' = .error e) : Writes i s body :=
  ⟨.error e, by simp, h⟩

theorem Writes.of_ok {body : State → Except Err State} {ws : List RegWrite} (hsound : ∀ w ∈ ws, w.Sound i s)
    (h : ∀ s', ReadsAlike i s s' → body s' = .ok (s'.writeAll ws)) : Writes i s body :=
  ⟨.ok ws, by simpa using hsound, h⟩

theorem Writes.congr {body body' : State → Except Err State} (h : Writes i s body)
    (he : ∀ s', ReadsAlike i s s' → body' s' = body s') : Writes i s body' := by
  obtain ⟨res, hsound, hres⟩ := h
  exact ⟨res, hsound, fun s' hs => (he s' hs).trans (hres s' hs)⟩

theorem Writes.nothing : Writes i s fun s' => .ok s' := Writes.of_ok (ws := []) (by simp) fun _ _ => rfl

/-- One register write, of a value that reads the same in all states that read like `s`. -/
theorem Writes.one {α : Type} {f : α → RegWrite} {v : State → α} (hv : ∀ s', ReadsAlike i s s' → v s' = v s)
    (h : (f (v s)).Sound i s) : Writes i s fun s' => .ok (s'.write (f (v s'))) :=
  Writes.of_ok (ws := [f (v s)]) (by simpa using h) fun s' hs => by simp only [hv s' hs]; rfl

theorem Writes.copyX (d j : XNum) : Writes i s fun s' => .ok (s'.setX d (s'.getX j)) :=
  Writes.one (f := .x d) (fun _ h => h.getX j) (.inl ⟨j, rfl⟩)

theorem Writes.copyP (d j : PNum) : Writes i s fun s' => .ok (s'.setP d (s'.getP j)) :=
  Writes.one (f := .p d) (fun _ h => h.getP j) ⟨j, rfl⟩

theorem Writes.setX (d : XNum) {r : State → XReg} (hr : ∀ s', ReadsAlike i s s' → r s' = r s)
    (h : (r s).wellFormed = true) : Writes i s fun s' => .ok (s'.setX d (r s')) :=
  Writes.one (f := .x d) hr (.inr h)

theorem Writes.setPoint (d : PNum) {q : Point}
    (h : (∀ d k, i ≠ .pubk d k) → Nat.Prime s.curveP.toNat → s.OnCurrent q) :
    Writes i s fun s' => .ok (s'.setPoint d q) :=
  Writes.one (f := .point d) (v := fun _ => q) (fun _ _ => rfl) h

/-- A check or a computation, then the rest of the body. -/
theorem Writes.bind {α : Type} {c : State → Except Err α} {k : α → State → Except Err State}
    (hc : ∀ s', ReadsAlike i s s' → c s' = c s) (hk : ∀ a, c s = .ok a → Writes i s (k a)) :
    Writes i s fun s' => c s' >>= fun a => k a s' := by
  rcases ha : c s with e | a
  · exact Writes.of_error fun s' hs => by rw [hc s' hs, ha, except_error_bind]
  · exact (hk a ha).congr fun s' hs => by rw [hc s' hs, ha, except_ok_bind]

/-- A condition that raises an error, or else the rest of the body. -/
theorem Writes.guard {c : State → Prop} [∀ s', Decidable (c s')] {e : Err} {k : State → Except Err State}
    (hc : ∀ s', ReadsAlike i s s' → (c s' ↔ c s)) (hk : ¬ c s → Writes i s k) :
    Writes i s fun s' => if c s' then .error e else k s' := by
  by_cases h : c s
  · exact Writes.of_error fun s' hs => if_pos ((hc s' hs).2 h)
  · exact (hk h).congr fun s' hs => if_neg fun h' => h ((hc s' hs).1 h')

/-- The operand check of a field element (R120). -/
theorem Writes.fchk {j : XNum} {k : FieldElem → State → Except Err State}
    (hk : 2 ≤ (s.getX j).mod.toNat → (s.getX j).val.toNat < (s.getX j).mod.toNat →
      Writes i s (k ⟨(s.getX j).val.toNat, (s.getX j).mod.toNat⟩)) :
    Writes i s fun s' => Machine.fchk (s'.getX j) >>= fun o => k o s' :=
  Writes.bind (fun s' hs => by rw [hs.getX]) fun o ho => by
    obtain ⟨rfl, h2, hlt⟩ := fchk_ok_iff.1 ho
    exact hk h2 hlt

/-- A field command on two operands writes a value reduced mod the common modulus (R120). -/
theorem Writes.fieldPair {a b : XNum} {k : FieldPair → State → Except Err State}
    (hk : ∀ o : FieldPair, 2 ≤ o.m → o.m < 2 ^ 256 → Writes i s (k o)) :
    Writes i s fun s' => s'.fieldPair a b >>= fun o => k o s' :=
  Writes.bind (fun s' hs => hs.fieldPair a b) fun o ho => by
    obtain ⟨rfl, -, h2, -⟩ := State.fieldPair_ok_iff.1 ho
    exact hk _ h2 (BitVec.isLt _)

/-- The check of the current curve (R141). -/
theorem Writes.curve {k : Curve → State → Except Err State} (hi : ¬ Instr.IsEcdsa i)
    (hk : 2 ≤ s.curveP.toNat → Writes i s (k s.currentCurve)) :
    Writes i s fun s' => s'.curve >>= fun c => k c s' :=
  Writes.bind (fun s' hs => hs.curve_eq hi) fun c hc => by
    obtain ⟨h2, rfl⟩ := State.curve_ok_iff.1 hc
    exact hk h2

/-- The check of a point against the current curve (R143). -/
theorem Writes.check {q : State → Point} {k : Point → State → Except Err State} (h2 : 2 ≤ s.curveP.toNat)
    (hq : ∀ s', ReadsAlike i s s' → q s' = q s) (hk : s.OnCurrent (q s) → Writes i s (k (q s))) :
    Writes i s fun s' => s.currentCurve.check (q s') >>= fun pt => k pt s' :=
  Writes.bind (fun s' hs => by rw [hq s' hs]) fun pt hpt => by
    obtain ⟨hon, rfl⟩ := Curve.check_ok_iff.1 hpt
    exact hk ((onCurve_current_iff h2 _).1 hon)

/-! ## From the body to the end of the command -/

theorem Writes.ends {body : State → Except Err State} (h : Writes i s body) (hw : ¬ WritesResult i s) :
    Ends i s fun s' => finish s' (body s') := by
  obtain ⟨res, hsound, hres⟩ := h
  cases res with
  | error e => exact ⟨.abort e, hw, fun s' hs => by dsimp only; rw [hres s' hs]; rfl⟩
  | ok ws =>
    refine ⟨.commit s.entropy ws, ⟨hw, hsound ws rfl⟩, fun s' hs => ?_⟩
    dsimp only
    rw [hres s' hs, ← hs.entropy]
    rfl

/-- A predicate commits the flag it computes. -/
theorem Ends.flag {b : State → Bool} (hb : ∀ s', ReadsAlike i s s' → b s' = b s) (hw : WritesResult i s) :
    Ends i s fun s' => finish s' (.ok (s'.setResult (b s'))) :=
  ⟨.flag (b s), hw, fun s' hs => by simp only [hb s' hs]; rfl⟩

/-! ## The ending of each command -/

theorem ends_nop : Ends .nop s (exec .nop) := Writes.nothing.ends (by simp [WritesResult])

theorem ends_mov (d r : XNum) : Ends (.mov d r) s (exec (.mov d r)) :=
  (Writes.copyX d r).ends (by simp [WritesResult])

theorem ends_ldi (d : XNum) (imm : BitVec 16) : Ends (.ldi d imm) s (exec (.ldi d imm)) :=
  (Writes.setX d (fun _ _ => rfl) (wellFormed_integer _)).ends (by simp [WritesResult])

theorem ends_ldk (d : XNum) (k : Konst) : Ends (.ldk d k) s (exec (.ldk d k)) :=
  (Writes.setX d (r := fun s' => ⟨s'.konst k, 0#256⟩)
    (fun _ hs => by rw [hs.konst (by simp [Instr.IsEcdsa])]) (wellFormed_integer _)).ends (by simp [WritesResult])

theorem ends_fint (d r : XNum) : Ends (.fint d r) s (exec (.fint d r)) :=
  (Writes.setX d (r := fun s' => intReg (s'.scalar r)) (fun _ hs => by rw [hs.scalar])
    (wellFormed_integer _)).ends (by simp [WritesResult])

theorem ends_fred (d v m : XNum) : Ends (.fred d v m) s (exec (.fred d v m)) := by
  refine Writes.ends (Writes.guard (fun s' hs => by rw [hs.scalar]) fun h => ?_) (by simp [WritesResult])
  refine Writes.setX d (r := fun s' => fieldReg (s'.scalar v % s'.scalar m) (s'.scalar m))
    (fun s' hs => by rw [hs.scalar, hs.scalar]) ?_
  exact wellFormed_fieldReg (by omega) (BitVec.isLt _) (Nat.mod_lt _ (by omega))

/-- `FADD`, `FSUB` and `FMUL` write a value that is reduced mod the common modulus. -/
theorem Writes.fieldOp {d a b : XNum} {f : FieldPair → Nat} (hf : ∀ o : FieldPair, 2 ≤ o.m → f o < o.m) :
    Writes i s fun s' => s'.fieldPair a b >>= fun o => .ok (s'.setX d (fieldReg (f o) o.m)) :=
  Writes.fieldPair fun o h2 hm => Writes.setX d (fun _ _ => rfl) (wellFormed_fieldReg h2 hm (hf o h2))

theorem ends_fadd (d a b : XNum) : Ends (.fadd d a b) s (exec (.fadd d a b)) :=
  (Writes.fieldOp fun _ h => Nat.mod_lt _ (by omega)).ends (by simp [WritesResult])

theorem ends_fsub (d a b : XNum) : Ends (.fsub d a b) s (exec (.fsub d a b)) :=
  (Writes.fieldOp fun _ h => floorMod_lt _ (by omega)).ends (by simp [WritesResult])

theorem ends_fmul (d a b : XNum) : Ends (.fmul d a b) s (exec (.fmul d a b)) :=
  (Writes.fieldOp fun _ h => Nat.mod_lt _ (by omega)).ends (by simp [WritesResult])

theorem ends_fdiv (d a b : XNum) : Ends (.fdiv d a b) s (exec (.fdiv d a b)) := by
  refine Writes.ends (Writes.fieldPair fun o h2 hm => ?_) (by simp [WritesResult])
  refine Writes.guard (e := .zeroInverse) (fun _ _ => Iff.rfl) fun _ => ?_
  exact Writes.setX d (fun _ _ => rfl) (wellFormed_fieldReg h2 hm (Nat.mod_lt _ (by omega)))

theorem powmod_lt (a e : Nat) {m : Nat} (h : 2 ≤ m) : powmod a e m < m := by
  rw [powmod_eq]
  exact Nat.mod_lt _ (by omega)

theorem ends_finv (d a : XNum) : Ends (.finv d a) s (exec (.finv d a)) := by
  refine Writes.ends (Writes.fchk fun h2 _ => ?_) (by simp [WritesResult])
  refine Writes.guard (e := .zeroInverse) (fun _ _ => Iff.rfl) fun _ => ?_
  exact Writes.setX d (fun _ _ => rfl) (wellFormed_fieldReg h2 (BitVec.isLt _) (powmod_lt _ _ h2))

theorem ends_fpow (neg : Bool) (d a e : XNum) : Ends (.fpow neg d a e) s (exec (.fpow neg d a e)) := by
  refine Writes.ends (Writes.fchk fun h2 _ => ?_) (by simp [WritesResult])
  exact Writes.setX d
    (r := fun s' => fieldReg (powmod (s.getX a).val.toNat
      (floorMod (signed neg (s'.scalar e)) ((s.getX a).mod.toNat - 1)) (s.getX a).mod.toNat) (s.getX a).mod.toNat)
    (fun s' hs => by rw [hs.scalar]) (wellFormed_fieldReg h2 (BitVec.isLt _) (powmod_lt _ _ h2))

theorem ends_feq (a b : XNum) : Ends (.feq a b) s (exec (.feq a b)) :=
  Ends.flag (b := fun s' => xEqual (s'.getX a) (s'.getX b)) (fun s' hs => by rw [hs.getX, hs.getX])
    (.inl ⟨a, b, rfl⟩)

theorem ends_pinf (d : PNum) : Ends (.pinf d) s (exec (.pinf d)) :=
  (Writes.setPoint d (q := .inf) fun _ _ => trivial).ends (by simp [WritesResult])

theorem ends_pgen (d : PNum) : Ends (.pgen d) s (exec (.pgen d)) := by
  refine Writes.ends (Writes.curve (by simp [Instr.IsEcdsa]) fun h2 => ?_) (by simp [WritesResult])
  exact Writes.check h2 (fun _ _ => rfl) fun hon => Writes.setPoint d fun _ _ => hon

theorem ends_pset (d : PNum) (x y : XNum) : Ends (.pset d x y) s (exec (.pset d x y)) := by
  refine Writes.ends (Writes.curve (by simp [Instr.IsEcdsa]) fun h2 => ?_) (by simp [WritesResult])
  refine Writes.fchk fun _ _ => Writes.fchk fun _ _ => ?_
  refine Writes.guard (e := .crossField) (fun _ _ => Iff.rfl) fun _ => ?_
  exact Writes.check h2 (fun _ _ => rfl) fun hon => Writes.setPoint d fun _ _ => hon

theorem ends_pmov (d r : PNum) : Ends (.pmov d r) s (exec (.pmov d r)) :=
  (Writes.copyP d r).ends (by simp [WritesResult])

/-- `PGX` and `PGY` write a coordinate `f x y` of a point on the current curve, or abort on `INF` (R152, R153). -/
theorem Writes.coordinate {q : Point} {f : Nat → Nat → Nat} (d : XNum) (h2 : 2 ≤ s.curveP.toNat)
    (hf : ∀ x y, x < s.curveP.toNat → y < s.curveP.toNat → f x y < s.curveP.toNat) :
    s.OnCurrent q → Writes i s fun s' => match q with
      | .inf => .error .infinity
      | .aff x y => .ok (s'.setX d (fieldReg (f x y) s.curveP.toNat)) := by
  intro hon
  cases q with
  | inf => exact Writes.of_error fun _ _ => rfl
  | aff x y =>
    obtain ⟨hx, hy⟩ := hon.lt_curveP
    exact Writes.setX d (fun _ _ => rfl) (wellFormed_fieldReg h2 (BitVec.isLt _) (hf x y hx hy))

theorem ends_pgx (d : XNum) (r : PNum) : Ends (.pgx d r) s (exec (.pgx d r)) := by
  refine Writes.ends (Writes.curve (by simp [Instr.IsEcdsa]) fun h2 => ?_) (by simp [WritesResult])
  exact Writes.check h2 (fun _ hs => hs.point r) (Writes.coordinate d h2 fun _ _ hx _ => hx)

theorem ends_pgy (d : XNum) (r : PNum) : Ends (.pgy d r) s (exec (.pgy d r)) := by
  refine Writes.ends (Writes.curve (by simp [Instr.IsEcdsa]) fun h2 => ?_) (by simp [WritesResult])
  exact Writes.check h2 (fun _ hs => hs.point r) (Writes.coordinate d h2 fun _ _ _ hy => hy)

theorem ends_pchk (r : PNum) : Ends (.pchk r) s (exec (.pchk r)) := by
  have hi : ¬ Instr.IsEcdsa (.pchk r) := by simp [Instr.IsEcdsa]
  by_cases h2 : 2 ≤ s.curveP.toNat
  · refine ⟨.flag (onCurve (s.point r) s.currentCurve.a s.currentCurve.b s.currentCurve.p),
      .inr (.inl ⟨r, rfl, h2⟩), fun s' hs => ?_⟩
    rw [exec, execPchk, hs.curve_eq hi, State.curve_of_le h2, hs.point]
    rfl
  · refine ⟨.abort .badCurve, by simp [Ending.Sound, WritesResult, h2], fun s' hs => ?_⟩
    rw [exec, execPchk, hs.curve_eq hi, State.curve_of_lt (by omega)]
    rfl

theorem ends_peq (a b : PNum) : Ends (.peq a b) s (exec (.peq a b)) :=
  Ends.flag (b := fun s' => pointEqual (s'.point a) (s'.point b)) (fun s' hs => by rw [hs.point, hs.point])
    (.inr (.inr (.inl ⟨a, b, rfl⟩)))

theorem ends_pneg (d r : PNum) : Ends (.pneg d r) s (exec (.pneg d r)) := by
  refine Writes.ends (Writes.curve (by simp [Instr.IsEcdsa]) fun h2 => ?_) (by simp [WritesResult])
  exact Writes.check h2 (fun _ hs => hs.point r) fun hon => Writes.setPoint d fun _ hp => hon.neg hp

theorem ends_padd (d a b : PNum) : Ends (.padd d a b) s (exec (.padd d a b)) := by
  refine Writes.ends (Writes.curve (by simp [Instr.IsEcdsa]) fun h2 => ?_) (by simp [WritesResult])
  refine Writes.check h2 (fun _ hs => hs.point a) fun ha => Writes.check h2 (fun _ hs => hs.point b) fun hb => ?_
  refine Writes.bind (fun _ _ => rfl) fun q hq => ?_
  exact Writes.setPoint d fun _ hp => onCurrent_of_ok (ha.add hp hb) hq

theorem ends_pdbl (d r : PNum) : Ends (.pdbl d r) s (exec (.pdbl d r)) := by
  refine Writes.ends (Writes.curve (by simp [Instr.IsEcdsa]) fun h2 => ?_) (by simp [WritesResult])
  refine Writes.check h2 (fun _ hs => hs.point r) fun hon => Writes.bind (fun _ _ => rfl) fun q hq => ?_
  exact Writes.setPoint d fun _ hp => onCurrent_of_ok (hon.add hp hon) hq

theorem ends_pmul (neg : Bool) (d r : PNum) (k : XNum) : Ends (.pmul neg d r k) s (exec (.pmul neg d r k)) := by
  refine Writes.ends (Writes.curve (by simp [Instr.IsEcdsa]) fun h2 => ?_) (by simp [WritesResult])
  refine Writes.check h2 (fun _ hs => hs.point r) fun hon => ?_
  refine Writes.bind (fun _ hs => by rw [hs.scalar]) fun q hq => ?_
  refine Writes.setPoint d fun _ hp => onCurrent_of_ok (State.OnCurrent.mul _ hp ?_) hq
  cases neg
  · exact hon
  · exact hon.neg hp

theorem ends_kgen (d : XNum) : Ends (.kgen d) s (exec (.kgen d)) := by
  have hw : ¬ WritesResult (.kgen d) s := by simp [WritesResult]
  rcases hd : drawScalar s.entropy with ⟨v, rest⟩ | _
  · refine ⟨.commit rest [.x d (intReg v)], ⟨hw, by simp [RegWrite.Sound, intReg, wellFormed_integer]⟩,
      fun s' hs => ?_⟩
    rw [exec, execKgen, hs.entropy, hd]
    rfl
  · refine ⟨.wait, hw, fun s' hs => ?_⟩
    rw [exec, execKgen, hs.entropy, hd]
    rfl

theorem ends_pubk (d : PNum) (k : XNum) : Ends (.pubk d k) s (exec (.pubk d k)) := by
  refine Writes.ends (Writes.guard (e := .outOfRange) (fun s' hs => by rw [hs.scalar]) fun _ => ?_)
    (by simp [WritesResult])
  refine Writes.bind (fun _ hs => by rw [hs.scalar]) fun q _ => ?_
  exact Writes.setPoint d fun h => absurd rfl (h d k)

theorem ends_sign (r u d z : XNum) : Ends (.sign r u d z) s (exec (.sign r u d z)) := by
  have hw : ¬ WritesResult (.sign r u d z) s := by simp [WritesResult]
  rcases signLoop_cases (s.scalar d) (s.scalar z) s.entropy with hl | ⟨_, v1, v2, rest, _, _, hl⟩
  · refine ⟨.wait, hw, fun s' hs => ?_⟩
    rw [exec, execSign, hs.entropy, hs.scalar, hs.scalar, hl]
    rfl
  · refine ⟨.commit rest [.x r (intReg v1), .x u (intReg v2)],
      ⟨hw, by simp [RegWrite.Sound, intReg, wellFormed_integer]⟩, fun s' hs => ?_⟩
    rw [exec, execSign, hs.entropy, hs.scalar, hs.scalar, hl]
    rfl

/-- Verification answers a flag for all operands (R176). -/
theorem verifyFlag_total (q : Point) (z r u : Nat) : ∃ b, verifyFlag q z r u = .ok b := by
  by_cases h : ¬ OnRom q ∨ r < 1 ∨ romOrder - 1 < r ∨ u < 1 ∨ romOrder - 1 < u
  · exact ⟨false, verifyFlag_of_out h⟩
  · push Not at h
    obtain ⟨hq, hr1, hr2, hu1, hu2⟩ := h
    obtain ⟨_, _, _, _, _, _, hv⟩ := verifyFlag_of_in (z := z) hq hr1 hr2 hu1 hu2
    exact ⟨_, hv⟩

theorem ends_vrfy (q : PNum) (z r u : XNum) : Ends (.vrfy q z r u) s (exec (.vrfy q z r u)) := by
  obtain ⟨b, hb⟩ := verifyFlag_total (s.point q) (s.scalar z) (s.scalar r) (s.scalar u)
  refine ⟨.flag b, .inr (.inr (.inr ⟨q, z, r, u, rfl⟩)), fun s' hs => ?_⟩
  rw [exec, execVrfy, hs.point, hs.scalar, hs.scalar, hs.scalar, hb]
  rfl

/-- Every command has one sound ending in all states that hold the values it reads. -/
theorem exec_ends (i : Instr) (s : State) : Ends i s (exec i) := by
  cases i with
  | nop => exact ends_nop
  | mov d r => exact ends_mov d r
  | ldi d imm => exact ends_ldi d imm
  | ldk d k => exact ends_ldk d k
  | fint d r => exact ends_fint d r
  | fred d v m => exact ends_fred d v m
  | fadd d a b => exact ends_fadd d a b
  | fsub d a b => exact ends_fsub d a b
  | fmul d a b => exact ends_fmul d a b
  | fdiv d a b => exact ends_fdiv d a b
  | finv d a => exact ends_finv d a
  | fpow neg d a e => exact ends_fpow neg d a e
  | feq a b => exact ends_feq a b
  | pinf d => exact ends_pinf d
  | pgen d => exact ends_pgen d
  | pset d x y => exact ends_pset d x y
  | pmov d r => exact ends_pmov d r
  | pgx d r => exact ends_pgx d r
  | pgy d r => exact ends_pgy d r
  | pchk r => exact ends_pchk r
  | peq a b => exact ends_peq a b
  | pneg d r => exact ends_pneg d r
  | padd d a b => exact ends_padd d a b
  | pdbl d r => exact ends_pdbl d r
  | pmul neg d r k => exact ends_pmul neg d r k
  | kgen d => exact ends_kgen d
  | pubk d k => exact ends_pubk d k
  | sign r u d z => exact ends_sign r u d z
  | vrfy q z r u => exact ends_vrfy q z r u

end Sys2Proof.Machine
end

section
/-! What a step does, once: `stepDid_of_step` lists every way to a next state. The invariants of every step follow from
it. -/

namespace Sys2Proof.Machine

variable {s t : State}

theorem step_of_busRead {off : Offset} {rest : List Input} (hs : s.inputs = .busRead off :: rest) :
    step s = hostRead off (s.withInputs rest) := by
  rw [step, hs]

theorem step_of_busWrite {off : Offset} {v : Word32} {rest : List Input} (hs : s.inputs = .busWrite off v :: rest) :
    step s = hostWrite off v (s.withInputs rest) := by
  rw [step, hs]

theorem step_of_rstN {rest : List Input} (hs : s.inputs = .rstN :: rest) :
    step s = .next (s.withInputs rest).resetBlock := by
  rw [step, hs]

theorem hostRead_eq_next {off : Offset} (h : hostRead off s = .next t) :
    t = s.withReadData (s.readLoc (locate off)) := by
  unfold hostRead at h
  split at h <;> cases h
  rfl

theorem hostWrite_eq_next {off : Offset} {v : Word32} (h : hostWrite off v s = .next t) :
    t = s.writeLoc (locate off) v := by
  unfold hostWrite at h
  split at h <;> cases h
  rfl

/-- Every way in which a step leads from `s` to a next state: the schedule's first entry is taken off, and the engine
is idle, rejects the pending word or runs a command, or the host, the entropy source or a reset acts. -/
inductive StepDid (s : State) : State → Prop where
  | idle (rest : List Input) : StepDid s (s.withInputs rest)
  | illegal (rest : List Input) {w : Word32} (hw : s.pending = some w) :
    StepDid s ((s.withInputs rest).raise .illegal)
  | command (rest : List Input) {w : Word32} {i : Instr} {en : Ending} (hw : s.pending = some w)
    (hen : en.Sound i (s.withInputs rest)) : StepDid s ((s.withInputs rest).endWith en)
  | read (rest : List Input) (v : Word32) : StepDid s ((s.withInputs rest).withReadData v)
  | write {rest : List Input} {off : Offset} {v : Word32} (hs : s.inputs = .busWrite off v :: rest) :
    StepDid s ((s.withInputs rest).writeLoc (locate off) v)
  | entropy (rest : List Input) (v : Word) : StepDid s ((s.withInputs rest).addEntropy v)
  | reset (rest : List Input) : StepDid s (s.withInputs rest).resetBlock

theorem stepDid_of_engineTurn {rest : List Input} (h : engineTurn (s.withInputs rest) = .next t) : StepDid s t := by
  rcases hw : s.pending with _ | w
  · rw [engineTurn, State.fetch, State.withInputs_pending, hw] at h
    cases h
    exact .idle rest
  · rw [engineTurn_of_pending (s := s.withInputs rest) hw] at h
    rcases hd : decode w with _ | i
    · rw [runWord, hd] at h
      cases h
      exact .illegal rest hw
    · obtain ⟨en, hen, hrun⟩ := exec_ends i (s.withInputs rest)
      rw [runWord_of_decode_ok hd, hrun _ (ReadsAlike.refl _ _)] at h
      cases h
      exact .command rest hw hen

theorem stepDid_of_step (h : step s = .next t) : StepDid s t := by
  rcases hs : s.inputs with _ | ⟨a, rest⟩
  · rw [step_eq_engineTurn (.inl ⟨hs, rfl⟩)] at h
    exact stepDid_of_engineTurn h
  · cases a with
    | engine =>
      rw [step_eq_engineTurn (.inr hs)] at h
      exact stepDid_of_engineTurn h
    | busRead off =>
      rw [step_of_busRead hs] at h
      rw [hostRead_eq_next h]
      exact .read rest _
    | busWrite off v =>
      rw [step_of_busWrite hs] at h
      rw [hostWrite_eq_next h]
      exact .write hs
    | busNarrow width off =>
      rw [step, hs] at h
      cases h
    | entropy v =>
      rw [step, hs] at h
      cases h
      exact .entropy rest v
    | rstN =>
      rw [step_of_rstN hs] at h
      cases h
      exact .reset rest

end Sys2Proof.Machine
end

section
/-! The handshake of the engine and the host (R33, R34, R36). The updates that touch none of `BUSY`, `DONE`, `ERR`,
`ERRCODE`, `LASTCMD` and the pending command keep it by definition. -/

namespace Sys2Proof.Machine

variable {s : State}

theorem State.handshake_raise (s : State) (e : Err) : (s.raise e).Handshake :=
  ⟨rfl, nofun, nofun, nofun, fun _ => code_mem_errorCodes e⟩

theorem State.Handshake.commit (h : s.Handshake) : s.commit.Handshake := by
  obtain ⟨-, -, -, hok, herr⟩ := h
  exact ⟨rfl, nofun, nofun, hok, herr⟩

theorem State.Handshake.write (h : s.Handshake) (w : RegWrite) : (s.write w).Handshake := by
  cases w with
  | x d r => exact h
  | p d r => exact h
  | point d q => cases q <;> exact h

theorem State.Handshake.endWith (h : s.Handshake) (en : Ending) : (s.endWith en).Handshake := by
  cases en with
  | wait => exact h
  | abort e => exact s.handshake_raise e
  | commit rest ws =>
    have hrest : (s.withEntropy rest).Handshake := h
    exact (List.foldlRecOn ws State.write hrest fun u hu w _ => State.Handshake.write hu w).commit
  | flag b =>
    have hflag : (s.setResult b).Handshake := h
    exact hflag.commit

theorem State.handshake_resetBlock (s : State) : s.resetBlock.Handshake := ⟨rfl, nofun, nofun, fun _ => rfl, nofun⟩

theorem State.Handshake.clearStatus (h : s.Handshake) (v : Word32) : (s.clearStatus v).Handshake := by
  obtain ⟨hbusy, hcmd, hrun, hok, herr⟩ := h
  refine ⟨hbusy, hcmd, fun hb => ?_, fun he => ?_, fun he => ?_⟩
  · obtain ⟨hd, he⟩ := hrun hb
    simp [hd, he]
  · cases hv : v.getLsbD 2 <;> simp_all
  · simp_all

theorem State.Handshake.accept (h : s.Handshake) (he : s.status.err = false) (c : Word32) :
    (s.accept c).Handshake := by
  obtain ⟨-, -, -, hok, herr⟩ := h
  exact ⟨rfl, fun w hw => by cases hw; rfl, fun _ => ⟨rfl, he⟩, hok, herr⟩

theorem State.Handshake.store (h : s.Handshake) {u : State} (hu : u.Handshake) : (s.store u).Handshake := by
  unfold State.store
  split
  · exact h
  · exact hu

theorem State.Handshake.writeLoc (h : s.Handshake) (l : Loc) (v : Word32) : (s.writeLoc l v).Handshake := by
  cases l with
  | id => exact h
  | ctrl =>
    dsimp only [State.writeLoc]
    split
    · exact s.handshake_resetBlock
    · exact h
  | status => exact h.clearStatus v
  | cmd =>
    dsimp only [State.writeLoc]
    split
    · exact h
    · rename_i hidle
      exact h.accept (by simp_all) v
  | curveP w => exact h.store h
  | curveA w => exact h.store h
  | curveB w => exact h.store h
  | xVal i w => exact h.store h
  | xMod i w => exact h.store h
  | reserved => exact h

/-- Settles O47: every kind of step keeps the handshake. -/
theorem everyStepKeepsTheHandshake : Obligations.EveryStepKeepsTheHandshake := by
  intro s t h hstep
  have hrest (rest : List Input) : (s.withInputs rest).Handshake := h
  cases stepDid_of_step hstep with
  | idle rest => exact hrest rest
  | illegal rest hw => exact State.handshake_raise _ .illegal
  | command rest hw hen => exact (hrest rest).endWith _
  | read rest v => exact hrest rest
  | write hs => exact (hrest _).writeLoc _ _
  | entropy rest v => exact hrest rest
  | reset rest => exact State.handshake_resetBlock _

end Sys2Proof.Machine
end

section
/-! Well-formed X registers (R22). -/

namespace Sys2Proof.Machine

variable {s t : State}

theorem regsWellFormed_iff : s.RegsWellFormed ↔ ∀ j, (s.getX j).wellFormed = true :=
  forall_congr' fun _ => wellFormed_iff.symm

theorem State.RegsWellFormed.setX (h : s.RegsWellFormed) (d : XNum) {r : XReg} (hr : r.wellFormed = true) :
    (s.setX d r).RegsWellFormed := by
  rw [regsWellFormed_iff] at h ⊢
  intro j
  by_cases hj : j = d
  · rw [hj, State.getX_setX_self]
    exact hr
  · rw [State.getX_setX_ne s r hj]
    exact h j

theorem State.RegsWellFormed.congr (h : s.RegsWellFormed) (hx : t.x = s.x) : t.RegsWellFormed := by
  intro j
  rw [State.getX, hx]
  exact h j

theorem State.RegsWellFormed.write {u : State} {i : Instr} {w : RegWrite} (h : s.RegsWellFormed)
    (hw : w.Sound i s) (hu : u.RegsWellFormed) : (u.write w).RegsWellFormed := by
  cases w with
  | x d r =>
    refine hu.setX d ?_
    obtain ⟨j, rfl⟩ | hr := hw
    · exact regsWellFormed_iff.1 h j
    · exact hr
  | p d r => exact hu
  | point d q => exact hu.congr (State.setPoint_x _ _ _)

theorem State.RegsWellFormed.endWith {i : Instr} {en : Ending} (h : s.RegsWellFormed) (hen : en.Sound i s) :
    (s.endWith en).RegsWellFormed := by
  cases en with
  | wait => exact h
  | abort e => exact h
  | commit rest ws =>
    have hrest : (s.withEntropy rest).RegsWellFormed := h
    exact List.foldlRecOn ws State.write hrest fun u hu w hmem => h.write (hen.2 w hmem) hu
  | flag b => exact h

@[simp] theorem State.getX_reset (j : XNum) : State.reset.getX j = ⟨0#256, 0#256⟩ := by
  simp [State.getX, State.reset, Vector.get_eq_getElem]

theorem State.regsWellFormed_reset : State.reset.RegsWellFormed := fun j => .inl (by rw [State.getX_reset]; rfl)

/-- Settles O49: the engine's register writes are sound, and no step but a host write touches the X registers otherwise,
except a reset. -/
theorem everyStepButAHostWriteKeepsRegistersWellFormed :
    Obligations.EveryStepButAHostWriteKeepsRegistersWellFormed := by
  intro s t h hhost hstep
  have hrest (rest : List Input) : (s.withInputs rest).RegsWellFormed := h
  cases stepDid_of_step hstep with
  | idle rest => exact h
  | illegal rest hw => exact h
  | command rest hw hen => exact (hrest rest).endWith hen
  | read rest v => exact h
  | write hs => simp [State.hostWritesNext, hs] at hhost
  | entropy rest v => exact h
  | reset rest => exact State.regsWellFormed_reset.congr rfl

end Sys2Proof.Machine
end

section
/-! P registers on the current curve (R24), and `PMUL` over a prime modulus. -/

namespace Sys2Proof.Machine

variable {s : State}

theorem State.point_setP (s : State) (d j : PNum) (r : PReg) :
    (s.setP d r).point j = if j = d then r.point else s.point j := by
  unfold State.point
  split
  · rename_i hj
    rw [hj, State.getP_setP_self]
  · rename_i hj
    rw [State.getP_setP_ne s r hj]

/-- A point write changes the point of one register, to the point written if its coordinates fit in the register. -/
theorem State.point_setPoint (s : State) (d j : PNum) {q : Point}
    (hq : ∀ x y, q = .aff x y → x < 2 ^ 256 ∧ y < 2 ^ 256) :
    (s.setPoint d q).point j = if j = d then q else s.point j := by
  obtain ⟨r, k, rfl, hset⟩ := State.setPoint_spec s d q hq
  rw [hset]
  exact State.point_setP s d j r

/-- A sound register write of any command but `PUBK` keeps the P registers on the prime curve of `s`. -/
theorem RegWrite.Sound.onCurrent {i : Instr} {w : RegWrite} {u : State} (hw : w.Sound i s)
    (hi : ∀ d k, i ≠ .pubk d k) (hp : Nat.Prime s.curveP.toNat) (hs : ∀ j, s.OnCurrent (s.point j))
    (hu : ∀ j, s.OnCurrent (u.point j)) (j : PNum) : s.OnCurrent ((u.write w).point j) := by
  cases w with
  | x d r => exact hu j
  | p d r =>
    obtain ⟨k, rfl⟩ := hw
    rw [State.write, State.point_setP]
    split
    · exact hs k
    · exact hu j
  | point d q =>
    have hq : s.OnCurrent q := hw hi hp
    rw [State.write, State.point_setPoint u d j hq.lt_two_pow]
    split
    · exact hq
    · exact hu j

theorem State.onCurrent_point_writeAll {i : Instr} {ws : List RegWrite} {rest : List Word}
    (hws : ∀ w ∈ ws, w.Sound i s) (hi : ∀ d k, i ≠ .pubk d k) (hp : Nat.Prime s.curveP.toNat)
    (hs : ∀ j, s.OnCurrent (s.point j)) : ∀ j, s.OnCurrent (((s.withEntropy rest).writeAll ws).point j) :=
  List.foldlRecOn (motive := fun u : State => ∀ j, s.OnCurrent (u.point j)) ws State.write hs
    fun _ hu w hmem => (hws w hmem).onCurrent hi hp hs hu

/-- Register writes change none of the curve registers. -/
theorem State.curve_writeAll (s : State) (ws : List RegWrite) :
    (s.writeAll ws).curveP = s.curveP ∧ (s.writeAll ws).curveA = s.curveA ∧ (s.writeAll ws).curveB = s.curveB := by
  refine List.foldlRecOn (motive := fun u : State => u.curveP = s.curveP ∧ u.curveA = s.curveA ∧ u.curveB = s.curveB)
    ws State.write ⟨rfl, rfl, rfl⟩ fun u hu w _ => ?_
  cases w with
  | x d r => exact hu
  | p d r => exact hu
  | point d q => cases q <;> exact hu

theorem State.PointsOnCurve.endWith {i : Instr} {en : Ending} (h : s.PointsOnCurve) (hp : Nat.Prime s.curveP.toNat)
    (hi : ∀ d k, i ≠ .pubk d k) (hen : en.Sound i s) : (s.endWith en).PointsOnCurve := by
  cases en with
  | wait => exact h
  | abort e => exact h
  | commit rest ws =>
    obtain ⟨h2, hs⟩ := h
    obtain ⟨-, hws⟩ := hen
    obtain ⟨hcp, hca, hcb⟩ := State.curve_writeAll (s.withEntropy rest) ws
    refine ⟨by rw [State.endWith, State.commit_curveP, hcp]; exact h2, fun j => ?_⟩
    rw [State.OnCurrent, State.endWith, State.commit_curveP, State.commit_curveA, State.commit_curveB, hcp, hca, hcb]
    exact State.onCurrent_point_writeAll hws hi hp hs j
  | flag b => exact h

/-- Settles O50: the register writes of every command but `PUBK` are copies of P registers or points that the group law
over a prime modulus keeps on the curve. -/
theorem pointCommandsKeepPointsOnThePrimeCurve : Obligations.PointCommandsKeepPointsOnThePrimeCurve := by
  intro i s t hp h hi hexec
  obtain ⟨en, hen, hrun⟩ := exec_ends i s
  cases (hrun s (ReadsAlike.refl i s)).symm.trans hexec
  exact h.endWith hp hi hen

/-- `PMUL` runs double-and-add on the operand, negated for `NEG = 1`, when the operand is on the current curve (R159). -/
theorem exec_pmul_of_onCurrent (neg : Bool) (d : PNum) {r : PNum} (k : XNum) (h2 : 2 ≤ s.curveP.toNat)
    (hon : s.OnCurrent (s.point r)) :
    exec (.pmul neg d r k) s = finish s
      (ecMul (s.scalar k) (if neg then ecNeg (s.point r) s.curveP.toNat else s.point r) s.currentCurve.a
        s.currentCurve.p >>= fun q => pure (s.setPoint d q)) := by
  rw [exec, execPmul, State.curve_of_le h2, except_ok_bind, check_of_on h2 hon]
  rfl

/-- Settles O34: over a prime modulus the curve is closed under negation and double-and-add, so `PMUL` meets no error. -/
theorem pmulCompletesOnAPrimeCurve : Obligations.PmulCompletesOnAPrimeCurve := by
  intro s neg d r k hp hon
  have hbase : s.OnCurrent (if neg then ecNeg (s.point r) s.curveP.toNat else s.point r) := by
    cases neg
    · exact hon
    · exact hon.neg hp
  obtain ⟨q, hq, hqon⟩ := hbase.mul (s.scalar k) hp
  refine ⟨q, (s.setPoint d q).commit, ?_, hqon, ?_, endsWithPoint_setPoint hqon.lt_two_pow⟩
  · rw [negPoint_eq_ecNeg hon, doubleAndAdd_eq_ecMul]
    exact hq
  · rw [exec_pmul_of_onCurrent neg d k hp.two_le hon, hq]
    rfl

end Sys2Proof.Machine
end

section
/-! Noninterference: the ECDSA commands and the curve registers (R28), all commands and `RESULT` (R37). -/

namespace Sys2Proof.Machine

variable {s : State}

/-- The state with other values in the curve registers. -/
def State.withCurve (s : State) (cp ca cb : Word) : State := { s with curveP := cp, curveA := ca, curveB := cb }

theorem State.write_withCurve (s : State) (w : RegWrite) (cp ca cb : Word) :
    (s.withCurve cp ca cb).write w = (s.write w).withCurve cp ca cb := by
  cases w with
  | x d r => rfl
  | p d r => rfl
  | point d q => cases q <;> rfl

theorem State.endWith_withCurve (s : State) (en : Ending) (cp ca cb : Word) :
    (s.withCurve cp ca cb).endWith en = (s.endWith en).withCurve cp ca cb := by
  cases en with
  | wait => rfl
  | abort e => rfl
  | commit rest ws =>
    have hws : ((s.withEntropy rest).withCurve cp ca cb).writeAll ws =
        ((s.withEntropy rest).writeAll ws).withCurve cp ca cb :=
      List.foldl_hom (fun u : State => u.withCurve cp ca cb) fun u w => State.write_withCurve u w cp ca cb
    exact congrArg State.commit hws
  | flag b => rfl

/-- Settles O41: the ECDSA commands read no curve register, and no ending writes one. -/
theorem ecdsaIgnoresTheCurveRegisters : Obligations.EcdsaIgnoresTheCurveRegisters := by
  intro s t i cp ca cb hi hexec
  obtain ⟨en, -, hrun⟩ := exec_ends i s
  cases (hrun s (ReadsAlike.refl i s)).symm.trans hexec
  have hreads : ReadsAlike i s (s.withCurve cp ca cb) := ⟨rfl, rfl, rfl, fun hn => absurd hi hn⟩
  calc exec i (s.withCurve cp ca cb)
    _ = .next ((s.withCurve cp ca cb).endWith en) := hrun _ hreads
    _ = .next ((s.endWith en).withCurve cp ca cb) := by rw [State.endWith_withCurve]

/-! ## `RESULT` -/

theorem State.write_setResult (s : State) (w : RegWrite) (b : Bool) :
    (s.setResult b).write w = (s.write w).setResult b := by
  cases w with
  | x d r => rfl
  | p d r => rfl
  | point d q => cases q <;> rfl

theorem State.writeAll_setResult (s : State) (ws : List RegWrite) (b : Bool) :
    (s.setResult b).writeAll ws = (s.writeAll ws).setResult b :=
  List.foldl_hom (fun u : State => u.setResult b) fun u w => State.write_setResult u w b

theorem State.status_writeAll (s : State) (ws : List RegWrite) : (s.writeAll ws).status = s.status := by
  refine List.foldlRecOn (motive := fun u : State => u.status = s.status) ws State.write rfl fun u hu w _ => ?_
  cases w with
  | x d r => exact hu
  | p d r => exact hu
  | point d q => exact (State.setPoint_status _ _ _).trans hu

/-- A command that is no predicate leaves `RESULT` as it was and ends in the same way whatever `RESULT` holds. -/
theorem Ending.Sound.keeps_result {i : Instr} {en : Ending} (hen : en.Sound i s) (hw : ¬ WritesResult i s) (b : Bool) :
    (s.endWith en).status.result = s.status.result ∧ (s.setResult b).endWith en = (s.endWith en).setResult b := by
  cases en with
  | wait => exact ⟨rfl, rfl⟩
  | abort e => exact ⟨rfl, rfl⟩
  | commit rest ws =>
    refine ⟨by rw [State.endWith, State.commit_status, State.status_writeAll]; rfl, ?_⟩
    exact congrArg State.commit (State.writeAll_setResult (s.withEntropy rest) ws b)
  | flag c => exact absurd hen hw

/-- A predicate commits a flag, the same next state whatever `RESULT` held. -/
theorem Ending.Sound.writes_result {i : Instr} {en : Ending} (hen : en.Sound i s) (hw : WritesResult i s) (b : Bool) :
    (s.endWith en).status.err = s.status.err ∧ (s.setResult b).endWith en = s.endWith en := by
  cases en with
  | wait => exact absurd hw hen
  | abort e => exact absurd hw hen
  | commit rest ws => exact absurd hw hen.1
  | flag c => exact ⟨rfl, rfl⟩

/-- Settles O46: a command that is a predicate commits a flag and reads no `RESULT`; any other command keeps `RESULT`. -/
theorem onlyPredicatesWriteResult : Obligations.OnlyPredicatesWriteResult := by
  refine ⟨fun i s t hexec hne => ?_, fun i s t b hexec => ?_, rfl⟩
  · obtain ⟨en, hen, hrun⟩ := exec_ends i s
    cases (hrun s (ReadsAlike.refl i s)).symm.trans hexec
    by_cases hw : WritesResult i s
    · exact ⟨(hen.writes_result hw false).1, hw⟩
    · exact absurd (hen.keeps_result hw false).1 hne
  · obtain ⟨en, hen, hrun⟩ := exec_ends i s
    cases (hrun s (ReadsAlike.refl i s)).symm.trans hexec
    have hreads : ReadsAlike i s (s.setResult b) := ⟨rfl, rfl, rfl, fun _ => ⟨rfl, rfl, rfl⟩⟩
    have hend := hrun _ hreads
    by_cases hw : WritesResult i s
    · rw [(hen.writes_result hw b).2] at hend
      exact ⟨_, hend, rfl, fun _ => rfl, fun hn => absurd hw hn⟩
    · rw [(hen.keeps_result hw b).2] at hend
      exact ⟨_, hend, rfl, fun hy => absurd hy hw, fun _ => rfl⟩

end Sys2Proof.Machine
end

section
/-! Reset and `CTRL` (R32, R38, R230). -/

namespace Sys2Proof.Machine

@[simp] theorem State.getP_reset (j : PNum) : State.reset.getP j = ⟨true, 0#256, 0#256⟩ := by
  simp [State.getP, State.reset, Vector.get_eq_getElem]

theorem State.point_reset (j : PNum) : State.reset.point j = .inf := by
  rw [State.point, State.getP_reset]
  rfl

/-- Settles O48: at reset the engine is idle, every X register is `(0, 0)` and every P register is `INF`. -/
theorem resetHasTheHandshakeAndWellFormedRegisters : Obligations.ResetHasTheHandshakeAndWellFormedRegisters := by
  refine ⟨State.reset.handshake_resetBlock, State.regsWellFormed_reset, romP_prime.two_le, fun j => ?_⟩
  rw [State.point_reset]
  trivial

theorem hostRead_ctrl (s : State) : hostRead 0x004#11 s = .next (s.withReadData s.ctrl.word) := rfl

theorem hostRead_id (s : State) : hostRead 0x000#11 s = .next (s.withReadData Config.idValue) := rfl

/-- The two stored bits of `CTRL` as a number (R32). -/
theorem Ctrl.word_eq (c : Ctrl) :
    c.word = BitVec.ofNat 32 ((if c.ieDone then 1 else 0) + (if c.ieErr then 2 else 0)) := by
  obtain ⟨ieDone, ieErr⟩ := c
  cases ieDone <;> cases ieErr <;> rfl

/-- Settles O54: the location of offset `0x004` is `CTRL`, and bit 31 of the write selects the store or the reset. -/
theorem controlWritesSetTheEnablesOrReset : Obligations.ControlWritesSetTheEnablesOrReset := by
  refine ⟨fun s rest v hs => ?_, fun s rest hs => step_of_rstN hs, fun s rest hs => ?_⟩
  · have hstep : step s = .next ((s.withInputs rest).writeLoc .ctrl v) := step_of_busWrite hs
    exact ⟨fun hv => by rw [hstep, State.writeLoc, hv]; rfl, fun hv => by rw [hstep, State.writeLoc, hv]; rfl⟩
  · rw [step_of_busRead hs, hostRead_ctrl, Ctrl.word_eq]
    rfl

/-- Settles O55: the fields of the reset state, and the read of `ID`. -/
theorem resetLeavesTheListedValues : Obligations.ResetLeavesTheListedValues := by
  refine ⟨State.getX_reset, State.getP_reset, rfl, rfl, rfl, rfl, rfl, rfl, rfl, rfl, fun s rest hs => ?_⟩
  rw [step_of_busRead hs]
  exact hostRead_id _

end Sys2Proof.Machine
end

section
/-! The register window (R50 to R57): which offsets name what, and what a host access does at each location. The words
of the curve and X windows are the eight words of 256-bit registers; `WindowReg` names those registers, so that one read
rule and one write rule serve all five places. -/

namespace Sys2Proof.Machine

variable {s : State} {rest : List Input} {off : Offset} {v : Word32}

/-! ## Aligned accesses -/

theorem aligned_iff (off : Offset) : aligned off = true ↔ off.toNat % 4 = 0 := by
  rw [aligned, beq_iff_eq, ← BitVec.toNat_inj, BitVec.extractLsb'_toNat, Nat.shiftRight_zero]
  rfl

@[simp] theorem State.readLoc_withInputs (s : State) (rest : List Input) (l : Loc) :
    (s.withInputs rest).readLoc l = s.readLoc l := by
  cases l <;> rfl

theorem step_of_aligned_busRead (hs : s.inputs = .busRead off :: rest) (ha : off.toNat % 4 = 0) :
    step s = .next ((s.withInputs rest).withReadData (s.readLoc (locate off))) := by
  rw [step_of_busRead hs, hostRead, if_pos ((aligned_iff off).2 ha), State.readLoc_withInputs]

theorem step_of_aligned_busWrite (hs : s.inputs = .busWrite off v :: rest) (ha : off.toNat % 4 = 0) :
    step s = .next ((s.withInputs rest).writeLoc (locate off) v) := by
  rw [step_of_busWrite hs, hostWrite, if_pos ((aligned_iff off).2 ha)]

/-- Settles O57: the alignment test decides between a bus error and the access. -/
theorem narrowOrMisalignedAccessIsRefused : Obligations.NarrowOrMisalignedAccessIsRefused := by
  intro s rest off v n
  refine ⟨fun hs => by rw [step, hs], fun hmis hs => ?_, fun ha hs => ?_⟩
  · have hal : ¬ aligned off = true := mt (aligned_iff off).1 hmis
    obtain hs | hs := hs
    · rw [step_of_busRead hs, hostRead, if_neg hal]
    · rw [step_of_busWrite hs, hostWrite, if_neg hal]
  · obtain hs | hs := hs
    · exact ⟨_, step_of_aligned_busRead hs ha⟩
    · exact ⟨_, step_of_aligned_busWrite hs ha⟩

/-! ## The 256-bit registers of the window -/

/-- A 256-bit register of the curve window or the X window (R51). -/
inductive WindowReg where
  | curveP
  | curveA
  | curveB
  | xVal (i : XNum)
  | xMod (i : XNum)

/-- The offset of word 0 of the register (R51). -/
def WindowReg.base : WindowReg → Nat
  | .curveP => 0x100
  | .curveA => 0x120
  | .curveB => 0x140
  | .xVal i => 0x400 + 0x40 * i.val
  | .xMod i => 0x400 + 0x40 * i.val + 0x20

/-- Word `w` of the register as a location of the window. -/
def WindowReg.loc : WindowReg → WordNum → Loc
  | .curveP, w => .curveP w
  | .curveA, w => .curveA w
  | .curveB, w => .curveB w
  | .xVal i, w => .xVal i w
  | .xMod i, w => .xMod i w

/-- The value the register holds. -/
def State.windowReg (s : State) : WindowReg → Word
  | .curveP => s.curveP
  | .curveA => s.curveA
  | .curveB => s.curveB
  | .xVal i => (s.x.get i).val
  | .xMod i => (s.x.get i).mod

/-- The state with another value in the register. -/
def State.setWindowReg (s : State) (u : Word) : WindowReg → State
  | .curveP => { s with curveP := u }
  | .curveA => { s with curveA := u }
  | .curveB => { s with curveB := u }
  | .xVal i => { s with x := s.x.set i ⟨u, (s.x.get i).mod⟩ }
  | .xMod i => { s with x := s.x.set i ⟨(s.x.get i).val, u⟩ }

@[simp] theorem State.windowReg_withInputs (s : State) (rest : List Input) (r : WindowReg) :
    (s.withInputs rest).windowReg r = s.windowReg r := by
  cases r <;> rfl

@[simp] theorem State.status_setWindowReg (s : State) (u : Word) (r : WindowReg) :
    (s.setWindowReg u r).status = s.status := by
  cases r <;> rfl

theorem State.readLoc_loc (s : State) (r : WindowReg) (w : WordNum) :
    s.readLoc (r.loc w) = getWord (s.windowReg r) w := by
  cases r <;> rfl

theorem State.writeLoc_loc (s : State) (r : WindowReg) (w : WordNum) (v : Word32) :
    s.writeLoc (r.loc w) v = s.store (s.setWindowReg (setWord (s.windowReg r) w v) r) := by
  cases r <;> rfl

/-! ## The address map (R51) -/

theorem WindowReg.base_le (r : WindowReg) : r.base ≤ 0x7E0 := by
  cases r <;> simp only [WindowReg.base] <;> omega

theorem WindowReg.toNat_offset (r : WindowReg) (w : WordNum) :
    (BitVec.ofNat 11 (r.base + 4 * w.val)).toNat = r.base + 4 * w.val := by
  have := r.base_le
  rw [BitVec.toNat_ofNat, Nat.mod_eq_of_lt (by omega)]

theorem WindowReg.offset_aligned (r : WindowReg) (w : WordNum) :
    (BitVec.ofNat 11 (r.base + 4 * w.val)).toNat % 4 = 0 := by
  rw [r.toNat_offset]
  cases r <;> simp only [WindowReg.base] <;> omega

theorem wordOf_val (off : Offset) : (wordOf off).val = off.toNat / 4 % 8 := by
  rw [wordOf, BitVec.val_toFin, BitVec.extractLsb'_toNat, Nat.shiftRight_eq_div_pow]

theorem xOf_val (off : Offset) : (xOf off).val = off.toNat / 64 % 16 := by
  rw [xOf, BitVec.val_toFin, BitVec.extractLsb'_toNat, Nat.shiftRight_eq_div_pow]

/-- The eight words of a register fill the 32 bytes from its base (R51). -/
theorem WindowReg.locate_eq_loc (r : WindowReg) (hlo : r.base ≤ off.toNat) (hhi : off.toNat < r.base + 0x20) :
    locate off = r.loc (wordOf off) := by
  have hx {i : XNum} (h : off.toNat / 64 % 16 = i.val) : xOf off = i := Fin.ext ((xOf_val off).trans h)
  cases r <;> simp only [WindowReg.base] at hlo hhi <;> unfold locate
  case curveP => rw [if_neg (by omega), if_neg (by omega), if_pos (by omega), WindowReg.loc]
  case curveA => rw [if_neg (by omega), if_neg (by omega), if_neg (by omega), if_pos (by omega), WindowReg.loc]
  case curveB =>
    rw [if_neg (by omega), if_neg (by omega), if_neg (by omega), if_neg (by omega), if_pos (by omega), WindowReg.loc]
  case xVal i =>
    rw [if_neg (by omega), if_neg (by omega), if_neg (by omega), if_neg (by omega), if_neg (by omega),
      if_neg (by omega), if_pos (by omega), hx (i := i) (by omega), WindowReg.loc]
  case xMod i =>
    rw [if_neg (by omega), if_neg (by omega), if_neg (by omega), if_neg (by omega), if_neg (by omega),
      if_neg (by omega), if_neg (by omega), hx (i := i) (by omega), WindowReg.loc]

theorem WindowReg.wordOf_offset (r : WindowReg) (w : WordNum) :
    wordOf (BitVec.ofNat 11 (r.base + 4 * w.val)) = w := by
  rw [Fin.ext_iff, wordOf_val, r.toNat_offset]
  cases r <;> simp only [WindowReg.base] <;> omega

theorem WindowReg.locate_offset (r : WindowReg) (w : WordNum) :
    locate (BitVec.ofNat 11 (r.base + 4 * w.val)) = r.loc w := by
  have hoff := r.toNat_offset w
  rw [r.locate_eq_loc (by omega) (by omega), r.wordOf_offset]

/-- The two ranges of the curve and X windows hold nothing but words of their registers (R51). -/
theorem locate_window (h : (0x100 ≤ off.toNat ∧ off.toNat ≤ 0x15F) ∨ 0x400 ≤ off.toNat) :
    ∃ (r : WindowReg) (w : WordNum), locate off = r.loc w := by
  suffices ∃ r : WindowReg, r.base ≤ off.toNat ∧ off.toNat < r.base + 0x20 from
    let ⟨r, hlo, hhi⟩ := this
    ⟨r, wordOf off, r.locate_eq_loc hlo hhi⟩
  have hx := xOf_val off
  obtain ⟨hlo, hhi⟩ | hlo := h
  · obtain hP | hA | hB : off.toNat < 0x120 ∨ (0x120 ≤ off.toNat ∧ off.toNat < 0x140) ∨ 0x140 ≤ off.toNat := by omega
    · exact ⟨.curveP, hlo, hP⟩
    · exact ⟨.curveA, hA⟩
    · exact ⟨.curveB, hB, Nat.lt_succ_of_le hhi⟩
  · by_cases hval : off.toNat % 0x40 < 0x20
    · exact ⟨.xVal (xOf off), by simp only [WindowReg.base]; omega, by simp only [WindowReg.base]; omega⟩
    · exact ⟨.xMod (xOf off), by simp only [WindowReg.base]; omega, by simp only [WindowReg.base]; omega⟩

theorem locate_reserved
    (h : (0x010 ≤ off.toNat ∧ off.toNat ≤ 0x0FF) ∨ (0x160 ≤ off.toNat ∧ off.toNat ≤ 0x3FF)) :
    locate off = .reserved := by
  unfold locate
  obtain ⟨h1, h2⟩ | ⟨h1, h2⟩ := h
  · rw [if_neg (by omega), if_pos (by omega)]
  · rw [if_neg (by omega), if_neg (by omega), if_neg (by omega), if_neg (by omega), if_neg (by omega),
      if_pos (by omega)]

/-! ## The words of `STATUS` and `CTRL` -/

theorem toNat_append_eq {m n : Nat} (u : BitVec m) (w : BitVec n) :
    (u ++ w).toNat = 2 ^ n * u.toNat + w.toNat := by
  rw [BitVec.toNat_append, ← Nat.shiftLeft_add_eq_or_of_lt w.isLt, Nat.shiftLeft_eq, Nat.mul_comm]

theorem getLsbD_of_div_mod {n i : Nat} {u : BitVec n} {b : Bool} (h : u.toNat / 2 ^ i % 2 = b.toNat) :
    u.getLsbD i = b := by
  rw [← Nat.toNat_testBit] at h
  exact Function.LeftInverse.injective Bool.ofNat_toNat h

/-- The word of `STATUS` as the sum of its fields at their bit places (R33). -/
theorem Status.word_toNat (t : Status) : t.word.toNat =
    2 ^ 8 * t.errCode.toNat + 2 ^ 4 * t.ovr.toNat + 2 ^ 3 * t.result.toNat + 2 ^ 2 * t.err.toNat +
      2 * t.done.toNat + t.busy.toNat := by
  have h : t.word.toNat = (0#16 ++ t.errCode ++ 0#3 ++ BitVec.ofBool t.ovr ++ BitVec.ofBool t.result ++
    BitVec.ofBool t.err ++ BitVec.ofBool t.done ++ BitVec.ofBool t.busy :
      BitVec (16 + 8 + 3 + 1 + 1 + 1 + 1 + 1)).toNat := rfl
  simp only [h, toNat_append_eq, BitVec.toNat_ofBool, BitVec.toNat_ofNat]
  omega

/-- A read of `STATUS` shows every field in its place, and 0 in the reserved bits (R33). -/
theorem Status.word_fields (t : Status) :
    t.word.getLsbD 0 = t.busy ∧ t.word.getLsbD 1 = t.done ∧ t.word.getLsbD 2 = t.err ∧
      t.word.getLsbD 3 = t.result ∧ t.word.getLsbD 4 = t.ovr ∧
      t.word.toNat / 2 ^ 8 % 2 ^ 8 = t.errCode.toNat ∧ t.word.toNat / 2 ^ 5 % 2 ^ 3 = 0 ∧
      t.word.toNat / 2 ^ 16 = 0 := by
  have hword := t.word_toNat
  have hcode := t.errCode.isLt
  have hbusy := t.busy.toNat_le
  have hdone := t.done.toNat_le
  have herr := t.err.toNat_le
  have hresult := t.result.toNat_le
  have hovr := t.ovr.toNat_le
  refine ⟨getLsbD_of_div_mod ?_, getLsbD_of_div_mod ?_, getLsbD_of_div_mod ?_, getLsbD_of_div_mod ?_,
    getLsbD_of_div_mod ?_, ?_, ?_, ?_⟩ <;> omega

/-- Bits 31:2 of `CTRL` read 0 (R32). -/
theorem Ctrl.word_reserved (c : Ctrl) : c.word.toNat / 2 ^ 2 = 0 := by
  rw [Ctrl.word_eq]
  split <;> split <;> rfl

/-! ## Accesses to the words of a register -/

theorem step_read_word (hs : s.inputs = .busRead off :: rest) {r : WindowReg} {w : WordNum}
    (hoff : off = BitVec.ofNat 11 (r.base + 4 * w.val)) :
    step s = .next ((s.withInputs rest).withReadData ((s.windowReg r).extractLsb' (32 * w.val) 32)) := by
  subst hoff
  rw [step_of_aligned_busRead hs (r.offset_aligned w), r.locate_offset, State.readLoc_loc, getWord]

theorem State.store_of_idle {t : State} (h : s.status.busy = false) : s.store t = t := by
  rw [State.store, h]
  rfl

theorem State.store_of_busy {t : State} (h : s.status.busy = true) : s.store t = s.discard := by
  rw [State.store, if_pos h]

theorem step_write_word (hs : s.inputs = .busWrite off v :: rest) (hidle : s.status.busy = false) {r : WindowReg}
    {w : WordNum} (hoff : off = BitVec.ofNat 11 (r.base + 4 * w.val)) :
    ∃ u : Word, (∀ b < 256, u.getLsbD b =
        if 32 * w.val ≤ b ∧ b < 32 * w.val + 32 then v.getLsbD (b - 32 * w.val) else (s.windowReg r).getLsbD b) ∧
      step s = .next ((s.withInputs rest).setWindowReg u r) := by
  subst hoff
  refine ⟨setWord (s.windowReg r) w v, setWord_getLsbD _ w v, ?_⟩
  rw [step_of_aligned_busWrite hs (r.offset_aligned w), r.locate_offset, State.writeLoc_loc,
    State.store_of_idle (s := s.withInputs rest) hidle, State.windowReg_withInputs]

/-- Settles O51: one read rule and one write rule, at each of the five kinds of register. -/
theorem windowAccessReadsAndReplacesOneWord : Obligations.WindowAccessReadsAndReplacesOneWord := by
  refine ⟨fun s rest off hs => ?_, fun s rest off v hs hidle => ?_⟩
  · refine ⟨fun i w hoff => step_read_word hs (r := .xVal i) hoff,
      fun i w hoff => step_read_word hs (r := .xMod i) hoff, fun w hoff => step_read_word hs (r := .curveP) hoff,
      fun w hoff => step_read_word hs (r := .curveA) hoff, fun w hoff => step_read_word hs (r := .curveB) hoff,
      fun hoff => ?_, fun hoff => ?_⟩
    · subst hoff
      exact step_of_aligned_busRead hs rfl
    · subst hoff
      exact ⟨s.status.word, step_of_aligned_busRead hs rfl, s.status.word_fields⟩
  · exact ⟨fun i w hoff => step_write_word hs hidle (r := .xVal i) hoff,
      fun i w hoff => step_write_word hs hidle (r := .xMod i) hoff,
      fun w hoff => step_write_word hs hidle (r := .curveP) hoff,
      fun w hoff => step_write_word hs hidle (r := .curveA) hoff,
      fun w hoff => step_write_word hs hidle (r := .curveB) hoff⟩

/-! ## Discarded writes (R57, R206) -/

theorem State.writeLoc_cmd_accept (s : State) (hbusy : s.status.busy = false) (herr : s.status.err = false)
    (v : Word32) : s.writeLoc .cmd v = s.accept v := by
  rw [State.writeLoc, hbusy, herr]
  rfl

theorem State.writeLoc_cmd_discard (s : State) (h : s.status.busy = true ∨ s.status.err = true) (v : Word32) :
    s.writeLoc .cmd v = s.discard := by
  rw [State.writeLoc, if_pos (Bool.or_eq_true _ _ ▸ h)]

/-- A write to `CTRL` never sets `OVR`: it stores the enables, or resets, which leaves `OVR = 0` (R57, R230). -/
theorem State.ovr_of_writeLoc_ctrl (h : (s.writeLoc .ctrl v).status.ovr = true) : s.status.ovr = true := by
  dsimp only [State.writeLoc] at h
  split at h
  · exact absurd h Bool.false_ne_true
  · exact h

/-- A write to `STATUS` never sets `OVR`: it can only clear it (R33). -/
theorem State.ovr_of_writeLoc_status (h : (s.writeLoc .status v).status.ovr = true) : s.status.ovr = true :=
  Bool.and_elim_left h

/-- Settles O52: each range of offsets is located, and `BUSY` and `ERR` decide what the write does there. -/
theorem busyOrErrorDiscardsTheNamedWrites : Obligations.BusyOrErrorDiscardsTheNamedWrites := by
  intro s rest off v hs ha
  have hstep := step_of_aligned_busWrite hs ha
  refine ⟨fun hoff => ?_, fun hoff => ?_, fun hoff => ?_⟩
  · have hloc : locate off = .cmd := by rw [hoff]; rfl
    rw [hstep, hloc]
    exact ⟨fun hbusy herr => by rw [(s.withInputs rest).writeLoc_cmd_accept hbusy herr]; rfl,
      fun h => by rw [(s.withInputs rest).writeLoc_cmd_discard h]; rfl⟩
  · obtain ⟨r, w, hloc⟩ := locate_window hoff
    rw [hstep, hloc, State.writeLoc_loc]
    refine ⟨fun hbusy => by rw [State.store_of_busy (s := s.withInputs rest) hbusy]; rfl, fun hidle => ⟨_, rfl, ?_⟩⟩
    rw [State.store_of_idle (s := s.withInputs rest) hidle, State.status_setWindowReg, State.withInputs_status]
  · refine ⟨_, hstep, fun h => ?_⟩
    obtain hoff | hoff := hoff <;> subst hoff
    · exact State.ovr_of_writeLoc_ctrl (s := s.withInputs rest) h
    · exact State.ovr_of_writeLoc_status (s := s.withInputs rest) h

/-! ## Reserved offsets and reserved bits (R56) -/

/-- A write to `CTRL` reads bits 0, 1 and 31 of the word and no other (R32). -/
theorem State.writeLoc_ctrl_congr {v v' : Word32} (h0 : v.getLsbD 0 = v'.getLsbD 0) (h1 : v.getLsbD 1 = v'.getLsbD 1)
    (h31 : v.getLsbD 31 = v'.getLsbD 31) : s.writeLoc .ctrl v = s.writeLoc .ctrl v' := by
  simp only [State.writeLoc, Ctrl.ofWord, h0, h1, h31]

/-- A write to `STATUS` reads bits 1, 2 and 4 of the word and no other (R33). -/
theorem State.writeLoc_status_congr {v v' : Word32} (h1 : v.getLsbD 1 = v'.getLsbD 1)
    (h2 : v.getLsbD 2 = v'.getLsbD 2) (h4 : v.getLsbD 4 = v'.getLsbD 4) :
    s.writeLoc .status v = s.writeLoc .status v' := by
  simp only [State.writeLoc, State.clearStatus, h1, h2, h4]

/-- Two writes to one location step alike where the location does not tell their words apart. -/
theorem step_busWrite_congr {v v' : Word32} (ha : off.toNat % 4 = 0)
    (h : (s.withInputs rest).writeLoc (locate off) v = (s.withInputs rest).writeLoc (locate off) v') :
    step (s.withInputs (.busWrite off v :: rest)) = step (s.withInputs (.busWrite off v' :: rest)) := by
  have hstep (u : Word32) : step (s.withInputs (.busWrite off u :: rest)) =
    .next ((s.withInputs rest).writeLoc (locate off) u) := step_of_aligned_busWrite rfl ha
  rw [hstep, hstep, h]

/-- Settles O56: the reserved ranges and `ID` are located, and the writes to `CTRL` and `STATUS` read only the defined
bits. -/
theorem reservedOffsetsAndIdIgnoreWrites : Obligations.ReservedOffsetsAndIdIgnoreWrites := by
  intro s rest off ha
  obtain ⟨-, -, -, -, -, -, hlow, hhigh⟩ := s.status.word_fields
  refine ⟨fun hoff => ⟨fun hs => ?_, fun v hs => ?_⟩, fun v hoff hs => ?_, hlow, hhigh, s.ctrl.word_reserved,
    fun v v' hoff h0 h1 h31 => ?_, fun v v' hoff h1 h2 h4 => ?_⟩
  · rw [step_of_aligned_busRead hs ha, locate_reserved hoff]
    rfl
  · rw [step_of_aligned_busWrite hs ha, locate_reserved hoff]
    rfl
  · subst hoff
    exact step_of_aligned_busWrite hs ha
  · subst hoff
    exact step_busWrite_congr ha (State.writeLoc_ctrl_congr h0 h1 h31)
  · subst hoff
    exact step_busWrite_congr ha (State.writeLoc_status_congr h1 h2 h4)

end Sys2Proof.Machine
end

section
/-! The encoding of the commands (R80 to R90): the decoder and the encoder are inverse to each other, the decoder refuses
exactly the words that R87 calls illegal, and the engine aborts on them. Each check of the decoder has one lemma that says
when it passes, in the terms of the fields that the encoder writes; a branch of the decoder is then a conjunction of field
equations, to be compared with `formatR` or with a row of the opcode map. -/

namespace Sys2Proof.Machine

/-! ## When a check of the decoder passes (R84, R87) -/

theorem xBits_injective : Function.Injective xBits := fun _ _ h => congrArg BitVec.toFin h

theorem xClass_injective : Function.Injective xClass := fun _ _ h => congrArg BitVec.ofFin h

@[simp] theorem pClass_eq_ok_iff {f : BitVec 4} {r : PNum} : pClass f = .ok r ↔ f = pBits r :=
  ⟨fun h => (pBits_of_pClass h).symm, fun h => h ▸ pClass_pBits r⟩

@[simp] theorem kClass_eq_ok_iff {f : BitVec 4} {k : Konst} : kClass f = .ok k ↔ f = kBits k :=
  ⟨fun h => (kBits_of_kClass h).symm, fun h => h ▸ kClass_kBits k⟩

@[simp] theorem needPlain_eq_ok_iff {w : Word32} {u : Unit} :
    needPlain w = .ok u ↔ rsvField w = 0#7 ∧ negField w = 0#1 := by
  simp [needPlain, except_bind_ok]

@[simp] theorem pure_eq_ok_iff {ε α : Type} {a b : α} : (pure a : Except ε α) = .ok b ↔ a = b := by
  simp [pure, Except.pure]

@[simp] theorem throw_eq_error {ε α : Type} (e : ε) : (throw e : Except ε α) = .error e := rfl

/-! ## Decoding an encoded command (R86, R90) -/

theorem needZero_zero : needZero 0#4 = .ok () := rfl

theorem needReservedZero_formatR (op : BitVec 8) (neg : BitVec 1) (fd fc fb fa : BitVec 4) :
    needReservedZero (formatR op neg fd fc fb fa) = .ok () :=
  needReservedZero_ok.2 (rsvField_formatR ..)

theorem needPlain_formatR (op : BitVec 8) (fd fc fb fa : BitVec 4) : needPlain (formatR op 0#1 fd fc fb fa) = .ok () :=
  needPlain_eq_ok_iff.2 ⟨rsvField_formatR .., negField_formatR ..⟩

/-- Settles O1: on the word of a command the decoder takes the command's branch, where every check passes and every field
reads back as its operand. `SIGN` is the one command whose branch needs well-formedness. -/
theorem decodeOfEncodeIsIdentity : Obligations.DecodeOfEncodeIsIdentity := by
  intro i hwf
  cases i with
  | sign r s d z =>
    have hne : xBits r ≠ xBits s := xBits_injective.ne (by simpa [Instr.wf] using hwf)
    simp [decode, encode, opcode, needPlain_formatR, hne]
  | _ => simp [decode, encode, opcode, needPlain_formatR, needReservedZero_formatR, needZero_zero]

/-! ## Encoding a decoded command (R87, R89) -/

theorem formatR_eq_iff {w : Word32} {op : BitVec 8} {neg : BitVec 1} {fd fc fb fa : BitVec 4} :
    formatR op neg fd fc fb fa = w ↔ (opField w).toNat = op.toNat ∧ rsvField w = 0#7 ∧ negField w = neg ∧
      faField w = fa ∧ fbField w = fb ∧ fcField w = fc ∧ fdField w = fd := by
  constructor
  · rintro rfl
    simp
  · rintro ⟨hop, hrsv, rfl, rfl, rfl, rfl, rfl⟩
    obtain rfl := BitVec.eq_of_toNat_eq hop
    exact formatR_fields w hrsv

theorem formatI_eq_iff {w : Word32} {op : BitVec 8} {imm : BitVec 16} {fa : BitVec 4} :
    formatI op imm fa = w ↔
      (opField w).toNat = op.toNat ∧ immField w = imm ∧ faField w = fa ∧ fbField w = 0#4 := by
  constructor
  · rintro rfl
    simp
  · rintro ⟨hop, rfl, rfl, hfb⟩
    obtain rfl := BitVec.eq_of_toNat_eq hop
    exact formatI_fields w hfb

/-- Settles O2: in each branch of the decoder the checks that passed and the opcode fix every field of the word, so the
word is the one that the encoder makes of the same fields. -/
theorem encodeOfDecodeIsIdentity : Obligations.EncodeOfDecodeIsIdentity := by
  intro w i h
  rw [decode] at h
  split at h
  case h_3 hop =>  -- `LDI`, the one command of format I
    split at h
    case isTrue hfb =>
      obtain rfl := Except.ok.inj h
      simp [encode, opcode, Instr.wf, formatI_eq_iff, hop, hfb]
    case isFalse => cases h
  case h_28 hop =>  -- `SIGN`, whose destinations differ
    split at h
    case isTrue => simp [except_bind_ok] at h
    case isFalse hne =>
      simp only [except_bind_ok, needPlain_eq_ok_iff, pure_eq_ok_iff] at h
      obtain ⟨-, ⟨hrsv, hneg⟩, -, -, rfl⟩ := h
      simp [encode, opcode, Instr.wf, formatR_eq_iff, hop, hrsv, hneg, xClass_injective.ne hne]
  case h_30 => cases h  -- no such opcode
  all_goals
    simp [except_bind_ok, -bind_pure_comp] at h
    casesm* _ ∧ _, ∃ _, _  -- each field as the encoder writes it, and the command
    subst_vars
    simp [encode, opcode, Instr.wf, formatR_eq_iff, *]

/-! ## The illegal words (R84, R86, R87) -/

theorem opField_toNat (w : Word32) : (opField w).toNat = w.toNat % 256 := by
  simp [opField]

theorem faField_toNat (w : Word32) : (faField w).toNat = w.toNat / 2 ^ 8 % 16 := by
  simp [faField, Nat.shiftRight_eq_div_pow]

theorem fbField_toNat (w : Word32) : (fbField w).toNat = w.toNat / 2 ^ 12 % 16 := by
  simp [fbField, Nat.shiftRight_eq_div_pow]

theorem fcField_toNat (w : Word32) : (fcField w).toNat = w.toNat / 2 ^ 16 % 16 := by
  simp [fcField, Nat.shiftRight_eq_div_pow]

theorem fdField_toNat (w : Word32) : (fdField w).toNat = w.toNat / 2 ^ 20 % 16 := by
  simp [fdField, Nat.shiftRight_eq_div_pow]

theorem negField_toNat (w : Word32) : (negField w).toNat = w.toNat / 2 ^ 24 % 2 := by
  simp [negField, Nat.shiftRight_eq_div_pow]

theorem rsvField_toNat (w : Word32) : (rsvField w).toNat = w.toNat / 2 ^ 25 := by
  rw [rsvField, BitVec.extractLsb'_toNat, Nat.shiftRight_eq_div_pow]
  exact Nat.mod_eq_of_lt (Nat.div_lt_of_lt_mul w.isLt)

/-- The field values that a class admits, as fields that the encoder writes (R84). -/
def FieldClass.Admits : FieldClass → BitVec 4 → Prop
  | .x, _ => True
  | .p, f => ∃ r, f = pBits r
  | .k, f => ∃ k, f = kBits k
  | .unused, f => f = 0#4

theorem FieldClass.admits_iff {c : FieldClass} {f : BitVec 4} : c.Admits f ↔ c.bad f.toNat = false := by
  cases c with
  | x => simp [bad, Admits]
  | p => revert f; unfold Admits bad; decide
  | k =>
    simp only [bad, Admits, ← kClass_eq_ok_iff]
    unfold kClass
    split <;> simp_all
    omega
  | unused => simp [bad, Admits, BitVec.toNat_eq]

/-- A word with the opcode of the row is legal: none of the conditions 2 to 7 of R87 holds of it. -/
def OpRow.Admits (row : OpRow) (w : Word32) : Prop :=
  rsvField w = 0#7 ∧ row.fa.Admits (faField w) ∧ row.fb.Admits (fbField w) ∧ row.fc.Admits (fcField w) ∧
    row.fd.Admits (fdField w) ∧ (row.neg = false → negField w = 0#1) ∧ (row.op = 0x32 → faField w ≠ fdField w)

theorem illegalWord_eq_false_iff_admits {w : Word32} {row : OpRow}
    (hrow : opRows.find? (fun row => decide (row.op = (opField w).toNat)) = some row) :
    illegalWord w.toNat = false ↔ row.Admits w := by
  have hldi : row.op ≠ 2 := (by decide : ∀ row ∈ opRows, row.op ≠ 2) row (List.mem_of_find?_eq_some hrow)
  have hop : row.op = w.toNat % 256 := by simpa [opField_toNat] using List.find?_some hrow
  rw [opField_toNat, ← hop] at hrow
  simp only [OpRow.Admits, FieldClass.admits_iff, ← BitVec.toNat_inj, ne_eq, faField_toNat, fbField_toNat,
    fcField_toNat, fdField_toNat, rsvField_toNat, negField_toNat]
  cases hneg : row.neg <;> simp [illegalWord, ← hop, hldi, hrow, hneg, and_assoc]

theorem illegalWord_of_ldi {w : Word32} (hop : (opField w).toNat = 2) :
    illegalWord w.toNat = false ↔ fbField w = 0#4 := by
  rw [opField_toNat] at hop
  simp [illegalWord, hop, ← BitVec.toNat_inj, fbField_toNat]

theorem illegalWord_of_unknown_opcode {w : Word32} (hldi : (opField w).toNat ≠ 2)
    (hrow : ∀ row ∈ opRows, (opField w).toNat ≠ row.op) : illegalWord w.toNat = true := by
  rw [opField_toNat] at hldi
  simp only [opField_toNat] at hrow
  have hfind : opRows.find? (fun row => decide (row.op = w.toNat % 256)) = none :=
    List.find?_eq_none.2 fun row hmem => by simpa using (hrow row hmem).symm
  simp [illegalWord, hldi, hfind]

/-- The decoder and the opcode map agree branch by branch: the checks that a branch makes are the conditions of the
opcode's row, in another order (R86, R87). -/
theorem decode_ok_iff (w : Word32) : (∃ i, decode w = .ok i) ↔ illegalWord w.toNat = false := by
  rw [decode]
  split
  case h_3 hop =>  -- `LDI`, the one command of format I
    rw [illegalWord_of_ldi hop]
    split <;> simp [*]
  case h_28 hop =>  -- `SIGN`, whose destinations differ
    rw [illegalWord_eq_false_iff_admits (by rw [hop]; rfl)]
    split <;> simp [OpRow.Admits, FieldClass.Admits, except_bind_ok, -bind_pure_comp, *]
  case h_30 =>  -- no such opcode
    rw [illegalWord_of_unknown_opcode ‹_›]
    · simp
    · intro row hrow
      fin_cases hrow <;> assumption
  all_goals
    rename_i hop
    rw [illegalWord_eq_false_iff_admits (by rw [hop]; rfl)]
    simp [OpRow.Admits, FieldClass.Admits, except_bind_ok, -bind_pure_comp] <;> tauto

/-- Settles O3: an `Except` is an error exactly when it is no value, and the words with a value are the legal ones. -/
theorem illegalWordsAreTheSevenCases : Obligations.IllegalWordsAreTheSevenCases := by
  intro w
  have herror : (∃ e, decode w = .error e) ↔ ¬ ∃ i, decode w = .ok i := by cases decode w <;> simp
  rw [herror, decode_ok_iff, Bool.not_eq_false]

/-- Settles O4: the decoder evaluated on thirteen fixed words. -/
theorem decodeOfWordsOfTheVectorTable : Obligations.DecodeOfWordsOfTheVectorTable :=
  ⟨rfl, rfl, rfl, rfl, rfl, rfl, rfl, rfl, rfl, rfl, rfl, rfl, rfl⟩

/-! ## What the engine does with an illegal word (R87, R18) -/

theorem runWord_of_decode_error {w : Word32} {e : Illegal} (h : decode w = .error e) (s : State) :
    runWord w s = .next (s.aborted 0x01#8) := by
  rw [runWord, h]
  rfl

/-- Settles O6: the `CMD` write does not look at the word, and the engine's turn aborts on what the decoder refuses. -/
theorem illegalWordIsAcceptedThenAborts : Obligations.IllegalWordIsAcceptedThenAborts := by
  intro w
  have hrefused := illegalWordsAreTheSevenCases w
  refine ⟨hrefused, fun hillegal => ⟨fun s rest hs hbusy herr => ?_, fun s rest hturn hpending => ?_⟩⟩
  · calc step s
      _ = .next ((s.withInputs rest).writeLoc .cmd w) := step_of_aligned_busWrite hs rfl
      _ = .next ((s.withInputs rest).accept w) := by rw [State.writeLoc_cmd_accept (s.withInputs rest) hbusy herr]
  · obtain ⟨e, he⟩ := hrefused.2 hillegal
    calc step s
      _ = engineTurn (s.withInputs rest) := step_eq_engineTurn hturn
      _ = runWord w (s.withInputs rest) := engineTurn_of_pending hpending
      _ = .next ((s.withInputs rest).aborted 0x01#8) := runWord_of_decode_error he _

end Sys2Proof.Machine
end

section
/-! The data-movement commands (R100 to R105): the state each leaves, and the words with their opcodes that R87 calls
illegal. -/

namespace Sys2Proof.Machine

variable {s : State} {d : XNum}

/-! ## The meanings of the commands -/

theorem exec_nop (s : State) : exec .nop s = .next s.commit := rfl

theorem exec_mov (s : State) (d r : XNum) : exec (.mov d r) s = .next (s.setX d (s.getX r)).commit := rfl

theorem exec_ldi (s : State) (d : XNum) (imm : BitVec 16) :
    exec (.ldi d imm) s = .next (s.setX d ⟨imm.setWidth 256, 0#256⟩).commit := rfl

theorem exec_ldk (s : State) (d : XNum) (k : Konst) :
    exec (.ldk d k) s = .next (s.setX d ⟨s.konst k, 0#256⟩).commit := rfl

theorem exec_fint (s : State) (d r : XNum) : exec (.fint d r) s = .next (s.setX d (intReg (s.scalar r))).commit := rfl

theorem exec_fred_of_two_le (d a : XNum) {b : XNum} (h : 2 ≤ s.scalar b) :
    exec (.fred d a b) s = .next (s.setX d (fieldReg (s.scalar a % s.scalar b) (s.scalar b))).commit := by
  rw [exec, execFred, if_neg (Nat.not_lt.2 h), finish_ok]

theorem exec_fred_of_lt_two (d a : XNum) {b : XNum} (h : s.scalar b < 2) :
    exec (.fred d a b) s = .next (s.raise .badModulus) := by
  rw [exec, execFred, if_pos h, finish_error]

/-! ## Commits of an integer -/

/-- A commit of a word as an integer register. -/
theorem endsWithX_word (w : Word) : EndsWithX s (s.setX d ⟨w, 0#256⟩).commit d w.toNat 0 :=
  ⟨⟨w, 0#256⟩, rfl, rfl, rfl⟩

/-- A commit of an integer that fits in the register. -/
theorem endsWithX_intReg {v : Nat} (hv : v < 2 ^ 256) : EndsWithX s (s.setX d (intReg v)).commit d v 0 :=
  ⟨intReg v, intReg_val_toNat hv, rfl, rfl⟩

theorem State.scalar_lt (s : State) (i : XNum) : s.scalar i < 2 ^ 256 := (s.getX i).val.isLt

/-! ## The illegal words with the opcodes of `NOP`, `LDI` and `LDK` (R87) -/

theorem decode_error_of_illegalWord {w : Word32} (h : illegalWord w.toNat = true) : ∃ e, decode w = .error e :=
  (illegalWordsAreTheSevenCases w).2 h

/-- The one legal word with opcode `0x00` is 0: the reserved bits, `NEG` and the four unused fields are all the bits
above the opcode. -/
theorem illegalWord_of_nop_opcode {n : Nat} (hop : n % 256 = 0) (hn : n ≠ 0) : illegalWord n = true := by
  simp [illegalWord, hop, opRows, FieldClass.bad]
  omega

theorem illegalWord_of_ldi_opcode {n : Nat} (hop : n % 256 = 0x02) (hfb : n / 2 ^ 12 % 16 ≠ 0) :
    illegalWord n = true := by
  simpa [illegalWord, hop] using hfb

/-- `LDK` has the constant's index in `fb`, and the class of an index ends at 9. -/
theorem illegalWord_of_ldk_opcode {n : Nat} (hop : n % 256 = 0x03) (hfb : 10 ≤ n / 2 ^ 12 % 16) :
    illegalWord n = true := by
  simp [illegalWord, hop, opRows, FieldClass.bad]
  omega

/-! ## The obligations -/

/-- Settles O7: `NOP` commits the state it ran on, and a nonzero word with its opcode has a bit that must be 0. -/
theorem nopEndsWithNoEffect : Obligations.NopEndsWithNoEffect := by
  refine ⟨fun s => by rw [exec_nop, commit_eq_ended], fun w hop hw => ?_⟩
  have hne : w.toNat ≠ 0 := fun h0 => hw (BitVec.eq_of_toNat_eq h0)
  exact decode_error_of_illegalWord (illegalWord_of_nop_opcode hop hne)

/-- Settles O8: the register is read and written whole, with no check between. -/
theorem movCopiesTheRegisterWithItsTag : Obligations.MovCopiesTheRegisterWithItsTag := by
  intro s d r
  rw [exec_mov, commit_eq_ended]
  rfl

/-- Settles O9: the immediate keeps its value when it is extended to the register's width. -/
theorem ldiLoadsTheImmediateAsAnInteger : Obligations.LdiLoadsTheImmediateAsAnInteger := by
  refine ⟨fun s d imm => ⟨_, exec_ldi s d imm, ?_⟩,
    fun w hop hfb => decode_error_of_illegalWord (illegalWord_of_ldi_opcode hop hfb)⟩
  have himm : (imm.setWidth 256).toNat = imm.toNat := BitVec.toNat_setWidth_of_le (by decide)
  exact himm ▸ endsWithX_word (imm.setWidth 256)

/-- Settles O10: each constant has the value that the statement writes out. -/
theorem ldkLoadsTheConstantOfTheIndex : Obligations.LdkLoadsTheConstantOfTheIndex := by
  refine ⟨fun s d k => ⟨_, exec_ldk s d k, ?_⟩,
    fun w hop hfb => decode_error_of_illegalWord (illegalWord_of_ldk_opcode hop hfb)⟩
  cases k <;> exact endsWithX_word _

/-- Settles O11: the operand is read from `val` alone. -/
theorem fintDropsTheTag : Obligations.FintDropsTheTag :=
  fun s d r => ⟨_, exec_fint s d r, endsWithX_intReg (s.scalar_lt r)⟩

/-- Settles O12: a modulus of 2 or more gives a remainder below itself, so both fit in the register. -/
theorem fredReducesOrAbortsOnABadModulus : Obligations.FredReducesOrAbortsOnABadModulus := by
  intro s d a b
  refine ⟨fun hm => ⟨_, exec_fred_of_two_le d a hm, ?_⟩, fun hm => exec_fred_of_lt_two d a hm⟩
  have hrem : s.scalar a % s.scalar b < 2 ^ 256 := (Nat.mod_le _ _).trans_lt (s.scalar_lt a)
  exact endsWithX_fieldReg hrem (s.scalar_lt b)

end Sys2Proof.Machine
end

section
/-! The field-arithmetic commands (R120 to R128): the operand check each begins with, the value it writes, and the Fermat
inverse over a prime modulus. -/

namespace Sys2Proof.Machine

variable {s : State} {d a b e : XNum} {c : BitVec 8}

/-! ## The operand checks at the head of a command (R120) -/

theorem finish_fieldPair_of_none {k : FieldPair → Except Err State} (h : pairError (s.x.get a) (s.x.get b) = none) :
    finish s (s.fieldPair a b >>= k) =
      finish s (k ⟨(s.x.get a).val.toNat, (s.x.get b).val.toNat, (s.x.get a).mod.toNat⟩) := by
  rw [(fieldPair_of_pairError_none h).1, except_ok_bind]

theorem finish_fieldPair_of_some {k : FieldPair → Except Err State} (h : pairError (s.x.get a) (s.x.get b) = some c) :
    finish s (s.fieldPair a b >>= k) = .next (s.aborted c) := by
  obtain ⟨err, hcheck, rfl⟩ := fieldPair_of_pairError_some h
  rw [hcheck, except_error_bind, finish_error, raise_eq_aborted]

theorem finish_fchk_of_none {r : XReg} {k : FieldElem → Except Err State} (h : operandError r = none) :
    finish s (fchk r >>= k) = finish s (k ⟨r.val.toNat, r.mod.toNat⟩) := by
  rw [(fchk_of_operandError_none h).1, except_ok_bind]

theorem finish_fchk_of_some {r : XReg} {k : FieldElem → Except Err State} (h : operandError r = some c) :
    finish s (fchk r >>= k) = .next (s.aborted c) := by
  obtain ⟨err, hcheck, rfl⟩ := fchk_of_operandError_some h
  rw [hcheck, except_error_bind, finish_error, raise_eq_aborted]

/-! ## Commits of a reduced value -/

/-- A value reduced mod a register's tag fits in a register beside that tag. -/
theorem endsWithX_reduced {r : XReg} {v : Nat} (hv : v < r.mod.toNat) :
    EndsWithX s (s.setX d (fieldReg v r.mod.toNat)).commit d v r.mod.toNat :=
  endsWithX_fieldReg (hv.trans r.mod.isLt) r.mod.isLt

/-- A command that checks two operands and writes a value `f` of them, reduced mod the common modulus: `FADD`, `FSUB` and
`FMUL`. -/
theorem fieldOp_spec {i : Instr} {f : FieldPair → Nat} (hf : ∀ o : FieldPair, 2 ≤ o.m → f o < o.m)
    (hexec : exec i s = finish s (s.fieldPair a b >>= fun o => .ok (s.setX d (fieldReg (f o) o.m)))) :
    (pairError (s.x.get a) (s.x.get b) = none →
      ∃ t, exec i s = .next t ∧
        EndsWithX s t d (f ⟨(s.x.get a).val.toNat, (s.x.get b).val.toNat, (s.x.get a).mod.toNat⟩)
          (s.x.get a).mod.toNat) ∧
    (∀ c, pairError (s.x.get a) (s.x.get b) = some c → exec i s = .next (s.aborted c)) := by
  refine ⟨fun hok => ⟨_, by rw [hexec, finish_fieldPair_of_none hok, finish_ok], ?_⟩,
    fun c herr => by rw [hexec, finish_fieldPair_of_some herr]⟩
  obtain ⟨-, htwo, -⟩ := fieldPair_of_pairError_none hok
  exact endsWithX_reduced (hf _ htwo)

/-! ## The meanings of the commands -/

theorem exec_fdiv (s : State) (d a b : XNum) :
    exec (.fdiv d a b) s = finish s (s.fieldPair a b >>= fun o =>
      if o.vb = 0 then .error .zeroInverse
      else .ok (s.setX d (fieldReg (o.va * fermatInv o.vb o.m % o.m) o.m))) := rfl

theorem exec_finv (s : State) (d a : XNum) :
    exec (.finv d a) s = finish s (fchk (s.x.get a) >>= fun o =>
      if o.v = 0 then .error .zeroInverse
      else .ok (s.setX d (fieldReg (powmod o.v (o.m - 2) o.m) o.m))) := rfl

theorem exec_fpow (s : State) (neg : Bool) (d a e : XNum) :
    exec (.fpow neg d a e) s = finish s (fchk (s.x.get a) >>= fun o =>
      .ok (s.setX d (fieldReg (powmod o.v (floorMod (signed neg (s.scalar e)) (o.m - 1)) o.m) o.m))) := rfl

theorem exec_feq (s : State) (a b : XNum) :
    exec (.feq a b) s = .next (s.endedWith (xEqual (s.x.get a) (s.x.get b))) := rfl

theorem xEqual_eq_decide (r1 r2 : XReg) : xEqual r1 r2 = decide (r1.val = r2.val ∧ r1.mod = r2.mod) :=
  (Bool.decide_and _ _).symm

/-! ## The exponent of `FPOW` (R127) -/

theorem floorMod_pred {x : Int} {m : Nat} (hm : 2 ≤ m) : floorMod x (m - 1) = (x % ((m : Int) - 1)).toNat := by
  rw [floorMod, Nat.cast_sub (by omega), Nat.cast_one]

/-- The sign does not matter to whether the reduced exponent is 0. -/
theorem floorMod_signed_eq_zero {n v : Nat} (neg : Bool) (hn : 0 < n) (hv : v % n = 0) :
    floorMod (signed neg v) n = 0 := by
  have hdvd : (n : Int) ∣ v := Int.natCast_dvd_natCast.2 (Nat.dvd_of_mod_eq_zero hv)
  rw [floorMod_eq_zero_iff _ hn, signed]
  split
  · exact (Int.dvd_neg).2 hdvd
  · exact hdvd

/-- `FPOW` with a checked base commits the power to the reduced exponent. -/
theorem exec_fpow_ends (neg : Bool) (d e : XNum) (hok : operandError (s.x.get a) = none) :
    ∃ t, exec (.fpow neg d a e) s = .next t ∧
      EndsWithX s t d
        ((s.x.get a).val.toNat ^ floorMod (signed neg (s.scalar e)) ((s.x.get a).mod.toNat - 1)
          % (s.x.get a).mod.toNat)
        (s.x.get a).mod.toNat := by
  obtain ⟨-, htwo, -⟩ := fchk_of_operandError_none hok
  refine ⟨_, by rw [exec_fpow, finish_fchk_of_none hok, finish_ok], ?_⟩
  rw [← powmod_eq]
  exact endsWithX_reduced (powmod_lt _ _ htwo)

/-! ## The inverse over a prime modulus (R126) -/

/-- Fermat's little theorem as a product of remainders. -/
theorem mul_pow_sub_two_mod_prime {m v : Nat} (hm : m.Prime) (h0 : v ≠ 0) (hlt : v < m) :
    v * (v ^ (m - 2) % m) % m = 1 := by
  have := Fact.mk hm
  have hv : (v : ZMod m) ≠ 0 := by
    rw [Ne, ZMod.natCast_eq_zero_iff]
    exact Nat.not_dvd_of_pos_of_lt (Nat.pos_of_ne_zero h0) hlt
  rw [← cast_inj_of_lt (Nat.mod_lt _ hm.pos) hm.one_lt, ZMod.natCast_mod, Nat.cast_mul, ← fermatInv_eq,
    fermatInv_cast hv, mul_inv_cancel₀ hv, Nat.cast_one]

/-- Below a prime modulus an inverse is unique. -/
theorem inverse_unique_of_prime {m v w w' : Nat} (hm : m.Prime) (h0 : v ≠ 0) (hlt : v < m) (hw : w < m) (hw' : w' < m)
    (h : v * w % m = 1) (h' : v * w' % m = 1) : w = w' := by
  have hcoprime : Nat.gcd m v = 1 := Nat.coprime_of_lt_prime h0 hlt hm
  exact (Nat.ModEq.cancel_left_of_coprime hcoprime (h.trans h'.symm)).eq_of_lt_of_lt hw hw'

/-! ## The obligations -/

/-- Settles O13: the operand check, then the exact sum reduced. -/
theorem faddAddsModuloTheCommonModulus : Obligations.FaddAddsModuloTheCommonModulus := fun _ _ _ _ =>
  fieldOp_spec (f := fun o => (o.va + o.vb) % o.m) (fun _ htwo => Nat.mod_lt _ (by omega)) rfl

/-- Settles O14: the operand check, then the floor remainder of the difference. -/
theorem fsubSubtractsWithTheFloorRemainder : Obligations.FsubSubtractsWithTheFloorRemainder := fun _ _ _ _ =>
  fieldOp_spec (f := fun o => floorMod ((o.va : Int) - o.vb) o.m) (fun _ htwo => floorMod_lt _ (by omega)) rfl

/-- Settles O15: the operand check, then the exact product reduced. -/
theorem fmulMultipliesModuloTheCommonModulus : Obligations.FmulMultipliesModuloTheCommonModulus := fun _ _ _ _ =>
  fieldOp_spec (f := fun o => o.va * o.vb % o.m) (fun _ htwo => Nat.mod_lt _ (by omega)) rfl

/-- Settles O16: after the operand check a zero divisor raises its error, and any other is inverted as a power. -/
theorem fdivMultipliesByTheFermatInverse : Obligations.FdivMultipliesByTheFermatInverse := by
  intro s d a b
  refine ⟨fun hok hvb => ⟨_, by rw [exec_fdiv, finish_fieldPair_of_none hok, if_neg hvb, finish_ok], ?_⟩,
    fun hok hvb => ?_, fun c herr => ?_⟩
  · obtain ⟨-, htwo, -⟩ := fieldPair_of_pairError_none hok
    rw [← fermatInv_eq]
    exact endsWithX_reduced (Nat.mod_lt _ (two_pos.trans_le htwo))
  · rw [exec_fdiv, finish_fieldPair_of_none hok, if_pos hvb, finish_error, raise_eq_aborted, Err.code]
  · rw [exec_fdiv, finish_fieldPair_of_some herr]

/-- Settles O17: after the operand check 0 raises its error, and any other value is raised to the power. -/
theorem finvRaisesToTheModulusMinusTwo : Obligations.FinvRaisesToTheModulusMinusTwo := by
  intro s d a
  refine ⟨fun hok hva => ⟨_, by rw [exec_finv, finish_fchk_of_none hok, if_neg hva, finish_ok], ?_⟩,
    fun hok hva => ?_, fun c herr => ?_⟩
  · obtain ⟨-, htwo, -⟩ := fchk_of_operandError_none hok
    rw [← powmod_eq]
    exact endsWithX_reduced (powmod_lt _ _ htwo)
  · rw [exec_finv, finish_fchk_of_none hok, if_pos hva, finish_error, raise_eq_aborted, Err.code]
  · rw [exec_finv, finish_fchk_of_some herr]

/-- Settles O18: the reduced exponent is the statement's remainder, and is 0 where the exponent's magnitude is a multiple
of `m - 1`. -/
theorem fpowReducesTheExponentThenRaises : Obligations.FpowReducesTheExponentThenRaises := by
  intro s neg d a e
  refine ⟨fun hok => ?_, fun c herr => by rw [exec_fpow, finish_fchk_of_some herr]⟩
  obtain ⟨-, htwo, -⟩ := fchk_of_operandError_none hok
  obtain ⟨t, ht, hends⟩ := exec_fpow_ends neg d e hok
  refine ⟨⟨t, ht, ?_⟩, fun hzero => ⟨t, ht, ?_⟩⟩
  · rw [floorMod_pred htwo] at hends
    exact hends
  · have hexp : floorMod (signed neg (s.scalar e)) ((s.x.get a).mod.toNat - 1) = 0 :=
      floorMod_signed_eq_zero neg (by omega) hzero
    rwa [hexp, pow_zero, Nat.mod_eq_of_lt htwo] at hends

/-- Settles O20: the power that `FINV` writes is an inverse by Fermat, and a prime modulus has no other. -/
theorem finvOfAPrimeModulusIsTheUniqueInverse : Obligations.FinvOfAPrimeModulusIsTheUniqueInverse := by
  intro s d a hok hprime hva
  obtain ⟨-, -, hlt⟩ := fchk_of_operandError_none hok
  obtain ⟨hcommits, -⟩ := finvRaisesToTheModulusMinusTwo s d a
  obtain ⟨t, ht, hends⟩ := hcommits hok hva
  have hinv := mul_pow_sub_two_mod_prime hprime hva hlt
  have hw := Nat.mod_lt ((s.x.get a).val.toNat ^ ((s.x.get a).mod.toNat - 2)) hprime.pos
  exact ⟨t, _, ht, hends, hw, hinv, fun v hv hv1 => inverse_unique_of_prime hprime hva hlt hv hw hv1 hinv⟩

/-- Settles O19: the flag of `FEQ` is the conjunction of the two comparisons. -/
theorem feqComparesBothFields : Obligations.FeqComparesBothFields := by
  intro s a b
  rw [exec_feq, xEqual_eq_decide]

end Sys2Proof.Machine
end

section
/-! The group law by its cases (R145): one equation per case, the denominators of chord and tangent (R147), and the laws of
R160 over a prime modulus. -/

namespace Sys2Proof.Machine

open WeierstrassCurve

variable {a b p x y x1 y1 x2 y2 : Nat} {q r : Point}

/-! ## The four cases of `ecAdd` -/

theorem ecAdd_inf_left (q : Point) (a p : Nat) : ecAdd .inf q a p = .ok q := rfl

theorem ecAdd_inf_right (q : Point) (a p : Nat) : ecAdd q .inf a p = .ok q := by
  cases q <;> rfl

theorem ecAdd_of_opposite (hsum : (y1 + y2) % p = 0) : ecAdd (.aff x y1) (.aff x y2) a p = .ok .inf := by
  rw [ecAdd, if_pos ⟨rfl, hsum⟩]

theorem ecAdd_of_tangent (hsum : (y + y) % p ≠ 0) :
    ecAdd (.aff x y) (.aff x y) a p = chord x y x ((3 * x * x + a) % p) (2 * y % p) p := by
  rw [ecAdd, if_neg fun h => hsum h.2, if_pos ⟨rfl, rfl⟩]

theorem ecAdd_of_chord (hopp : ¬ (x1 = x2 ∧ (y1 + y2) % p = 0)) (hne : ¬ (x1 = x2 ∧ y1 = y2)) :
    ecAdd (.aff x1 y1) (.aff x2 y2) a p =
      chord x1 y1 x2 (floorMod ((y2 : Int) - y1) p) (floorMod ((x2 : Int) - x1) p) p := by
  rw [ecAdd, if_neg hopp, if_neg hne]

/-- The cases 3 and 4 reduce their result, whether the operands are reduced or not. -/
theorem ecAdd_aff_lt {x3 y3 : Nat} (hp : 2 ≤ p) (h : ecAdd (.aff x1 y1) (.aff x2 y2) a p = .ok (.aff x3 y3)) :
    x3 < p ∧ y3 < p := by
  rw [ecAdd] at h
  split_ifs at h
  · cases h
  · exact chord_lt hp h
  · exact chord_lt hp h

/-! ## The denominators (R147) -/

theorem floorMod_sub_eq_zero_iff (hx1 : x1 < p) (hx2 : x2 < p) : floorMod ((x2 : Int) - x1) p = 0 ↔ x1 = x2 := by
  rw [floorMod_eq_zero_iff _ (by omega)]
  constructor
  · intro hdvd
    have := Int.eq_zero_of_abs_lt_dvd hdvd (abs_lt.2 (by omega))
    omega
  · rintro rfl
    simp

/-- A doubling has a result for every modulus: where its denominator is 0, case 2 has answered before. -/
theorem ecAdd_self_ok (q : Point) (a p : Nat) : ∃ t, ecAdd q q a p = .ok t := by
  cases q with
  | inf => exact ⟨.inf, rfl⟩
  | aff x y =>
    by_cases hsum : (y + y) % p = 0
    · exact ⟨.inf, ecAdd_of_opposite hsum⟩
    · rw [ecAdd_of_tangent hsum, chord_eq, if_neg (by rwa [two_mul])]
      exact ⟨_, rfl⟩

theorem ecAdd_eq_zeroInverse_iff (hx1 : x1 < p) (hx2 : x2 < p) :
    ecAdd (.aff x1 y1) (.aff x2 y2) a p = .error .zeroInverse ↔ x1 = x2 ∧ y1 ≠ y2 ∧ (y1 + y2) % p ≠ 0 := by
  by_cases hopp : x1 = x2 ∧ (y1 + y2) % p = 0
  · obtain ⟨rfl, hsum⟩ := hopp
    simp [ecAdd_of_opposite hsum, hsum]
  by_cases heq : x1 = x2 ∧ y1 = y2
  · obtain ⟨rfl, rfl⟩ := heq
    obtain ⟨t, ht⟩ := ecAdd_self_ok (.aff x1 y1) a p
    simp [ht]
  · rw [ecAdd_of_chord hopp heq, chord_eq]
    simp only [floorMod_sub_eq_zero_iff hx1 hx2]
    by_cases hx : x1 = x2
    · have hsum : (y1 + y2) % p ≠ 0 := fun h => hopp ⟨hx, h⟩
      have hy : y1 ≠ y2 := fun h => heq ⟨hx, h⟩
      simp [hx, hy, hsum]
    · simp [hx]

/-! ## The laws over a prime modulus (R160) -/

theorem ecAdd_negPoint (hq : OnEquation q a b p) : ecAdd q (negPoint q p) a p = .ok .inf := by
  cases q with
  | inf => rfl
  | aff x y =>
    obtain ⟨-, hy, -⟩ := hq
    exact ecAdd_of_opposite (by rw [Nat.add_mod_mod, Nat.add_sub_cancel' hy.le, Nat.mod_self])

/-- Points of a prime curve with the same `x` are equal or opposite. -/
theorem eq_or_opposite_of_eq_x [Fact p.Prime] (h1 : OnEquation (.aff x y1) a b p) (h2 : OnEquation (.aff x y2) a b p) :
    y1 = y2 ∨ (y1 + y2) % p = 0 := by
  obtain ⟨-, hy1, e1⟩ := onEquation_iff.1 h1
  obtain ⟨-, hy2, e2⟩ := onEquation_iff.1 h2
  rw [← cast_inj_of_lt hy1 hy2, case2_iff (a := a) (b := b) (x : ZMod p)]
  exact Affine.Y_eq_of_X_eq e1 e2 rfl

/-- The chord through two points does not depend on their order. -/
theorem add_formulas_comm [Fact p.Prime] {X1 X2 Y1 Y2 : ZMod p} (h : X1 ≠ X2) :
    (shortCurve a b p).addX X1 X2 ((shortCurve a b p).slope X1 X2 Y1 Y2) =
        (shortCurve a b p).addX X2 X1 ((shortCurve a b p).slope X2 X1 Y2 Y1) ∧
      (shortCurve a b p).addY X1 X2 Y1 ((shortCurve a b p).slope X1 X2 Y1 Y2) =
        (shortCurve a b p).addY X2 X1 Y2 ((shortCurve a b p).slope X2 X1 Y2 Y1) := by
  have hslope : (shortCurve a b p).slope X2 X1 Y2 Y1 = (shortCurve a b p).slope X1 X2 Y1 Y2 := by
    rw [Affine.slope_of_X_ne h, Affine.slope_of_X_ne h.symm, ← neg_sub Y1, ← neg_sub X1, neg_div_neg_eq]
  have hline : (shortCurve a b p).slope X1 X2 Y1 Y2 * (X1 - X2) = Y1 - Y2 := by
    rw [Affine.slope_of_X_ne h, div_mul_cancel₀ _ (sub_ne_zero.2 h)]
  rw [hslope]
  simp only [Affine.addX, Affine.addY, Affine.negAddY, negY_short]
  exact ⟨by ring, by linear_combination hline⟩

theorem ecAdd_comm (hp : p.Prime) (h1 : OnEquation q a b p) (h2 : OnEquation r a b p) :
    ecAdd q r a p = ecAdd r q a p := by
  have := Fact.mk hp
  cases q with
  | inf => rw [ecAdd_inf_left, ecAdd_inf_right]
  | aff x1 y1 =>
    cases r with
    | inf => rw [ecAdd_inf_left, ecAdd_inf_right]
    | aff x2 y2 =>
      by_cases hx : x1 = x2
      · subst hx
        obtain rfl | hsum := eq_or_opposite_of_eq_x h1 h2
        · rfl
        · rw [ecAdd_of_opposite hsum, ecAdd_of_opposite (by rwa [Nat.add_comm])]
      · obtain ⟨x3, y3, e3, hx3, hy3, cx3, cy3⟩ := ecAdd_cast h1 h2 fun h => hx h.1
        obtain ⟨x4, y4, e4, hx4, hy4, cx4, cy4⟩ := ecAdd_cast h2 h1 fun h => hx h.1.symm
        have hX : (x1 : ZMod p) ≠ x2 := fun h => hx ((cast_inj_of_lt h1.1 h2.1).1 h)
        obtain ⟨hcommX, hcommY⟩ := add_formulas_comm (a := a) (b := b) (Y1 := y1) (Y2 := y2) hX
        rw [e3, e4, (cast_inj_of_lt hx3 hx4).1 (by rw [cx3, cx4, hcommX]),
          (cast_inj_of_lt hy3 hy4).1 (by rw [cy3, cy4, hcommY])]

/-! ## Multiples of a point whose double is `INF` -/

theorem ecMul_zero (q : Point) (a p : Nat) : ecMul 0 q a p = .ok .inf := rfl

theorem ecMulLoop_dbl_inf (a p : Nat) (acc : Point) : ∀ n j, ecMulLoop a p n acc .inf j = .ok acc
  | 0, _ => rfl
  | n + 1, j => by
    have ih := ecMulLoop_dbl_inf a p acc n (j / 2)
    rw [ecMulLoop, ecAdd_inf_right, ecAdd_inf_right, ite_self]
    exact ih

theorem ecMul_of_double_eq_inf (hdbl : ecAdd q q a p = .ok .inf) (k : Nat) :
    ecMul k q a p = .ok (if k % 2 = 1 then q else .inf) := by
  by_cases hk : k = 0
  · subst hk
    rfl
  · rw [ecMul, bitlen_succ hk, ecMulLoop, hdbl, ecAdd_inf_left]
    split <;> exact ecMulLoop_dbl_inf a p _ _ _

/-- Modulo 2 every doubling falls under case 2. -/
theorem ecAdd_self_two (q : Point) (a : Nat) : ecAdd q q a 2 = .ok .inf := by
  cases q with
  | inf => rfl
  | aff x y => exact ecAdd_of_opposite (by omega)

/-- Scalars add: in Mathlib's group of points for an odd modulus, and modulo 2, where the short curve is singular in
Mathlib's sense, because every point doubles to `INF`. -/
theorem ecMul_add (hp : p.Prime) (hq : OnEquation q a b p) (hΔ : (4 * a ^ 3 + 27 * b ^ 2) % p ≠ 0) (k1 k2 : Nat) :
    ∃ q1 q2 q3, ecMul k1 q a p = .ok q1 ∧ ecMul k2 q a p = .ok q2 ∧ ecMul (k1 + k2) q a p = .ok q3 ∧
      ecAdd q1 q2 a p = .ok q3 := by
  have := Fact.mk hp
  obtain rfl | hp2 := eq_or_ne p 2
  · have hmul := ecMul_of_double_eq_inf (ecAdd_self_two q a)
    refine ⟨_, _, _, hmul k1, hmul k2, hmul (k1 + k2), ?_⟩
    obtain h1 | h1 := Nat.mod_two_eq_zero_or_one k1 <;> obtain h2 | h2 := Nat.mod_two_eq_zero_or_one k2 <;>
      simp [Nat.add_mod, h1, h2, ecAdd_inf_left, ecAdd_inf_right, ecAdd_self_two]
  · obtain ⟨P, hP⟩ := exists_rep (shortCurve_Δ_ne_zero hp2 hΔ) hq
    obtain ⟨q1, e1, rep1⟩ := hP.mul k1
    obtain ⟨q2, e2, rep2⟩ := hP.mul k2
    obtain ⟨q3, e3, rep3⟩ := hP.mul (k1 + k2)
    obtain ⟨t, et, rept⟩ := rep1.add rep2
    rw [← add_nsmul] at rept
    exact ⟨q1, q2, q3, e1, e2, e3, by rw [et, rept.injective rep3]⟩

/-! ## The obligations about the pure functions -/

/-- Settles O29: an equation for each case, with the chord written as the third point. -/
theorem ecAddFollowsItsFourCasesInOrder : Obligations.EcAddFollowsItsFourCasesInOrder := by
  intro a p
  refine ⟨fun q => ecAdd_inf_left q a p, fun q => ecAdd_inf_right q a p, fun x1 y1 x2 y2 => ⟨?_, ?_, ?_, ?_⟩⟩
  · rintro rfl hsum
    exact ecAdd_of_opposite hsum
  · rintro rfl rfl hsum
    rw [ecAdd_of_tangent hsum, chord_eq, sq, mul_assoc]
  · intro hopp hne
    rw [ecAdd_of_chord hopp hne, chord_eq]
    rfl
  · intro hp x3 y3
    exact ecAdd_aff_lt hp

/-- Settles O33: reduced `x` coordinates make the chord's denominator 0 only when they are equal, the tangent's is 0 only in
case 2, and a prime curve is closed under addition. -/
theorem zeroInverseArisesOnlyInOneChordCase : Obligations.ZeroInverseArisesOnlyInOneChordCase := by
  intro a p _
  refine ⟨fun x1 y1 x2 y2 hx1 _ hx2 _ => ecAdd_eq_zeroInverse_iff hx1 hx2, fun q e herr => ?_,
    fun b q1 q2 hp h1 h2 => ?_⟩
  · obtain ⟨t, ht⟩ := ecAdd_self_ok q a p
    cases ht.symm.trans herr
  · have := Fact.mk hp
    exact ecAdd_onEquation h1 h2

/-- Settles O35: the laws of `ecAdd`, and that of scalar sums for the machine's form of double-and-add. -/
theorem groupLawsHoldOnAPrimeCurve : Obligations.GroupLawsHoldOnAPrimeCurve := by
  intro a b p q r hp hq hr
  refine ⟨ecAdd_inf_right q a p, ecAdd_negPoint hq, ecAdd_comm hp hq hr, fun hΔ k1 k2 => ?_⟩
  simp only [doubleAndAdd_eq_ecMul]
  exact ecMul_add hp hq hΔ k1 k2

end Sys2Proof.Machine
end

section
/-! The point commands (R148 to R159): the checks each begins with, the point or coordinate it writes, and the errors of the
group law. -/

namespace Sys2Proof.Machine

variable {s : State} {i : Instr} {d r : PNum} {q : Point}

/-! ## The checks at the head of a command (R141, R143) -/

theorem finish_curve_of_lt {k : Curve → Except Err State} (h : s.curveP.toNat < 2) :
    finish s (s.curve >>= k) = .next (s.aborted 0x0A#8) := by
  rw [State.curve_of_lt h, except_error_bind, finish_error, raise_eq_aborted, Err.code]

theorem finish_curve_of_le {k : Curve → Except Err State} (h2 : 2 ≤ s.curveP.toNat) :
    finish s (s.curve >>= k) = finish s (k s.currentCurve) := by
  rw [State.curve_of_le h2, except_ok_bind]

theorem finish_check_of_off {k : Point → Except Err State} (h2 : 2 ≤ s.curveP.toNat) (hoff : ¬ s.OnCurrent q) :
    finish s (s.currentCurve.check q >>= k) = .next (s.aborted 0x07#8) := by
  rw [check_of_off h2 hoff, except_error_bind, finish_error, raise_eq_aborted, Err.code]

theorem finish_check_of_on {k : Point → Except Err State} (h2 : 2 ≤ s.curveP.toNat) (hon : s.OnCurrent q) :
    finish s (s.currentCurve.check q >>= k) = finish s (k q) := by
  rw [check_of_on h2 hon, except_ok_bind]

/-- A command that checks the curve and then one point, before anything else. -/
def ChecksPoint (i : Instr) (s : State) (q : Point) (k : Curve → Point → Except Err State) : Prop :=
  exec i s = finish s (s.curve >>= fun c => c.check q >>= k c)

variable {k : Curve → Point → Except Err State}

theorem ChecksPoint.of_lt (hi : ChecksPoint i s q k) (h : s.curveP.toNat < 2) : exec i s = .next (s.aborted 0x0A#8) :=
  hi.trans (finish_curve_of_lt h)

theorem ChecksPoint.of_off (hi : ChecksPoint i s q k) (h2 : 2 ≤ s.curveP.toNat) (hoff : ¬ s.OnCurrent q) :
    exec i s = .next (s.aborted 0x07#8) := by
  rw [hi, finish_curve_of_le h2, finish_check_of_off h2 hoff]

theorem ChecksPoint.of_on (hi : ChecksPoint i s q k) (h2 : 2 ≤ s.curveP.toNat) (hon : s.OnCurrent q) :
    exec i s = finish s (k s.currentCurve q) := by
  rw [hi, finish_curve_of_le h2, finish_check_of_on h2 hon]

/-! ## The end of a command that writes a point -/

theorem ends_of_setPoint (hexec : exec i s = finish s (.ok (s.setPoint d q)))
    (hq : ∀ x y, q = .aff x y → x < s.curveP.toNat ∧ y < s.curveP.toNat) :
    ∃ t, exec i s = .next t ∧ EndsWithPoint s t d q :=
  ⟨_, hexec, endsWithPoint_setPoint (State.lt_two_pow_of_lt_curveP hq)⟩

/-- A command whose last step is to compute a point and write it. -/
theorem ends_of_ok {f : Except Err Point} (hexec : exec i s = finish s (f >>= fun q => .ok (s.setPoint d q)))
    (hf : f = .ok q) (hq : ∀ x y, q = .aff x y → x < s.curveP.toNat ∧ y < s.curveP.toNat) :
    ∃ t, exec i s = .next t ∧ EndsWithPoint s t d q :=
  ends_of_setPoint (by rw [hexec, hf, except_ok_bind]) hq

theorem aborted_of_zeroInverse {f : Except Err Point}
    (hexec : exec i s = finish s (f >>= fun q => .ok (s.setPoint d q))) (hf : f = .error .zeroInverse) :
    exec i s = .next (s.aborted 0x03#8) := by
  rw [hexec, hf, except_error_bind, finish_error, raise_eq_aborted, Err.code]

/-! ## The meanings of the commands -/

theorem exec_pinf (s : State) (d : PNum) : exec (.pinf d) s = finish s (.ok (s.setPoint d .inf)) := rfl

theorem exec_pmov (s : State) (d r : PNum) : exec (.pmov d r) s = .next (s.setP d (s.getP r)).commit := rfl

theorem checksPoint_pgen (s : State) (d : PNum) :
    ChecksPoint (.pgen d) s romG fun _ g => .ok (s.setPoint d g) := rfl

theorem exec_pset (s : State) (d : PNum) (x y : XNum) :
    exec (.pset d x y) s = finish s (s.curve >>= fun c => fchk (s.x.get x) >>= fun ex => fchk (s.x.get y) >>= fun ey =>
      if ex.m ≠ c.p ∨ ey.m ≠ c.p then .error .crossField
      else c.check (.aff ex.v ey.v) >>= fun q => .ok (s.setPoint d q)) := rfl

theorem checksPoint_pgx (s : State) (d : XNum) (r : PNum) :
    ChecksPoint (.pgx d r) s (s.point r) fun c q =>
      match q with
      | .inf => .error .infinity
      | .aff x _ => .ok (s.setX d (fieldReg x c.p)) := rfl

theorem checksPoint_pgy (s : State) (d : XNum) (r : PNum) :
    ChecksPoint (.pgy d r) s (s.point r) fun c q =>
      match q with
      | .inf => .error .infinity
      | .aff _ y => .ok (s.setX d (fieldReg y c.p)) := rfl

theorem exec_pchk (s : State) (r : PNum) :
    exec (.pchk r) s = finish s (s.curve >>= fun c => .ok (s.setResult (onCurve (s.point r) c.a c.b c.p))) := rfl

theorem exec_peq (s : State) (a b : PNum) :
    exec (.peq a b) s = .next (s.endedWith (pointEqual (s.p.get a).point (s.p.get b).point)) := rfl

theorem checksPoint_pneg (s : State) (d r : PNum) :
    ChecksPoint (.pneg d r) s (s.point r) fun c q => .ok (s.setPoint d (ecNeg q c.p)) := rfl

theorem checksPoint_padd (s : State) (d a b : PNum) :
    ChecksPoint (.padd d a b) s (s.point a) fun c qa =>
      c.check (s.point b) >>= fun qb => ecAdd qa qb c.a c.p >>= fun q => .ok (s.setPoint d q) := rfl

theorem checksPoint_pdbl (s : State) (d r : PNum) :
    ChecksPoint (.pdbl d r) s (s.point r) fun c q => ecAdd q q c.a c.p >>= fun q' => .ok (s.setPoint d q') := rfl

theorem checksPoint_pmul (s : State) (neg : Bool) (d r : PNum) (k : XNum) :
    ChecksPoint (.pmul neg d r k) s (s.point r) fun c q =>
      ecMul (s.scalar k) (if neg then ecNeg q c.p else q) c.a c.p >>= fun q' => .ok (s.setPoint d q') := rfl

/-- `PADD` on two points of the current curve (R157). -/
theorem exec_padd_of_onCurrent {a b : PNum} (d : PNum) (h2 : 2 ≤ s.curveP.toNat) (ha : s.OnCurrent (s.point a))
    (hb : s.OnCurrent (s.point b)) :
    exec (.padd d a b) s = finish s
      (ecAdd (s.point a) (s.point b) s.currentCurve.a s.currentCurve.p >>= fun q => .ok (s.setPoint d q)) := by
  rw [(checksPoint_padd s d a b).of_on h2 ha, finish_check_of_on h2 hb]

/-- The check of the second operand finds what the check of the first has found (R158). -/
theorem exec_pdbl_eq_padd (s : State) (d r : PNum) : exec (.pdbl d r) s = exec (.padd d r r) s := by
  by_cases h2 : 2 ≤ s.curveP.toNat
  · by_cases hon : s.OnCurrent (s.point r)
    · rw [(checksPoint_pdbl s d r).of_on h2 hon, exec_padd_of_onCurrent d h2 hon hon]
    · rw [(checksPoint_pdbl s d r).of_off h2 hon, (checksPoint_padd s d r r).of_off h2 hon]
  · rw [(checksPoint_pdbl s d r).of_lt (by omega), (checksPoint_padd s d r r).of_lt (by omega)]

/-! ## Values -/

theorem State.OnCurrent.negPoint (h2 : 2 ≤ s.curveP.toNat) (hon : s.OnCurrent q) :
    s.OnCurrent (Machine.negPoint q s.curveP.toNat) :=
  negPoint_onEquation (by omega) hon

theorem pmul_base_onCurrent (neg : Bool) (h2 : 2 ≤ s.curveP.toNat) (hon : s.OnCurrent q) :
    s.OnCurrent (if neg then negPoint q s.curveP.toNat else q) := by
  cases neg
  · exact hon
  · exact hon.negPoint h2

theorem pointEqual_point (r1 r2 : PReg) :
    pointEqual r1.point r2.point = decide ((r1.inf = true ∧ r2.inf = true) ∨
      (r1.inf = false ∧ r2.inf = false ∧ r1.x = r2.x ∧ r1.y = r2.y)) := by
  obtain ⟨inf1, x1, y1⟩ := r1
  obtain ⟨inf2, x2, y2⟩ := r2
  cases inf1 <;> cases inf2 <;> simp [PReg.point, pointEqual, BitVec.toNat_inj]

/-- The reset curve is the ROM curve, and holds the generator (R38, R149). -/
theorem onCurrent_romG_of_reset (hp : s.curveP = State.reset.curveP) (ha : s.curveA = State.reset.curveA)
    (hb : s.curveB = State.reset.curveB) : s.OnCurrent romG := by
  rw [State.OnCurrent, hp, ha, hb]
  exact romG_onRom

/-! ## The obligations -/

/-- Settles O21: no check comes before the write. -/
theorem pinfWritesTheIdentity : Obligations.PinfWritesTheIdentity :=
  ⟨fun s d => ends_of_setPoint (exec_pinf s d) fun _ _ h => (by cases h), fun _ _ _ => ⟨trivial, rfl⟩⟩

/-- Settles O22: the checks of the curve and of the generator, which the reset curve passes. -/
theorem pgenLoadsTheGeneratorIfOnTheCurve : Obligations.PgenLoadsTheGeneratorIfOnTheCurve := by
  intro s d
  have hcommits (h2 : 2 ≤ s.curveP.toNat) (hon : s.OnCurrent romG) :
      ∃ t, exec (.pgen d) s = .next t ∧ EndsWithPoint s t d romG :=
    ends_of_setPoint ((checksPoint_pgen s d).of_on h2 hon) (OnEquation.lt hon)
  refine ⟨(checksPoint_pgen s d).of_lt, (checksPoint_pgen s d).of_off, hcommits, fun hp ha hb => hcommits ?_ ?_⟩
  · rw [hp]
    decide
  · exact onCurrent_romG_of_reset hp ha hb

/-- Settles O23: the checks in their order, each passed by the hypotheses of the next clause. -/
theorem psetBuildsACheckedPoint : Obligations.PsetBuildsACheckedPoint := by
  intro s d x y
  rw [exec_pset]
  refine ⟨finish_curve_of_lt, fun h2 => ?_⟩
  rw [finish_curve_of_le h2]
  refine ⟨fun c herr => finish_fchk_of_some herr, fun hx => ?_⟩
  rw [finish_fchk_of_none hx]
  refine ⟨fun c herr => finish_fchk_of_some herr, fun hy => ?_⟩
  rw [finish_fchk_of_none hy]
  refine ⟨fun hne => ?_, fun hmx hmy => ?_⟩
  · rw [if_pos (by simpa [State.currentCurve, BitVec.toNat_inj] using hne), finish_error, raise_eq_aborted, Err.code]
  · rw [if_neg (by simp [hmx, hmy, State.currentCurve])]
    exact ⟨fun hoff => finish_check_of_off h2 hoff,
      fun hon => ⟨_, finish_check_of_on h2 hon, endsWithPoint_setPoint hon.lt_two_pow⟩⟩

/-- Settles O24: the stored bits are read and written whole. -/
theorem pmovCopiesThePointRegister : Obligations.PmovCopiesThePointRegister := by
  intro s d r
  rw [exec_pmov, commit_eq_ended]
  rfl

/-- Settles O25: after the checks of the curve and the point, `INF` raises its error and an affine point gives its
coordinate. -/
theorem pgxAndPgyReadTheCoordinates : Obligations.PgxAndPgyReadTheCoordinates := by
  intro s d r
  have hx := checksPoint_pgx s d r
  have hy := checksPoint_pgy s d r
  refine ⟨fun h => ⟨hx.of_lt h, hy.of_lt h⟩, fun h2 => ⟨fun hoff => ⟨hx.of_off h2 hoff, hy.of_off h2 hoff⟩,
    fun hinf => ?_, fun x y hq hon => ?_⟩⟩
  · rw [hinf] at hx hy
    exact ⟨hx.of_on h2 trivial, hy.of_on h2 trivial⟩
  · rw [hq] at hx hy
    obtain ⟨hx256, hy256⟩ := hon.lt_two_pow x y rfl
    exact ⟨⟨_, hx.of_on h2 hon, endsWithX_fieldReg hx256 s.curveP.isLt⟩,
      ⟨_, hy.of_on h2 hon, endsWithX_fieldReg hy256 s.curveP.isLt⟩⟩

/-- Settles O26: after the check of the curve the flag is `onCurve`, which is the claims' equation. -/
theorem pchkReportsWhetherThePointIsOnTheCurve : Obligations.PchkReportsWhetherThePointIsOnTheCurve := by
  intro s r
  rw [exec_pchk]
  refine ⟨finish_curve_of_lt, fun h2 => ?_⟩
  rw [finish_curve_of_le h2, ← onCurve_current_iff h2]
  exact ⟨fun hon => by rw [hon]; rfl, fun hoff => by rw [Bool.eq_false_iff.2 hoff]; rfl⟩

/-- Settles O27: equality of points is equality of the tags and, for two affine points, of the stored coordinates. -/
theorem peqComparesTagAndCoordinates : Obligations.PeqComparesTagAndCoordinates := by
  intro s a b
  rw [exec_peq, pointEqual_point]

/-- Settles O28: on the curve the machine's negation is the claims' one, which stays on the curve for every modulus. -/
theorem pnegNegatesTheYCoordinate : Obligations.PnegNegatesTheYCoordinate := by
  intro s d r
  refine ⟨(checksPoint_pneg s d r).of_lt, fun h2 => ⟨(checksPoint_pneg s d r).of_off h2, fun hon => ?_⟩⟩
  have hneg := hon.negPoint h2
  refine ⟨hneg, ends_of_setPoint ?_ (OnEquation.lt hneg)⟩
  rw [negPoint_eq_ecNeg hon]
  exact (checksPoint_pneg s d r).of_on h2 hon

/-- Settles O30: after the three checks the only outcomes are the sum and the one error of `ecAdd`, which a prime modulus
excludes. -/
theorem paddWritesTheSum : Obligations.PaddWritesTheSum := by
  intro s d a b
  have hadd := checksPoint_padd s d a b
  refine ⟨hadd.of_lt, fun h2 => ⟨fun hoff => ?_, fun ha hb => ⟨fun q hq => ?_, fun e he => ?_, fun hp => ?_⟩⟩⟩
  · by_cases ha : s.OnCurrent (s.point a)
    · rw [hadd.of_on h2 ha, finish_check_of_off h2 fun hb => hoff ⟨ha, hb⟩]
    · exact hadd.of_off h2 ha
  · exact ends_of_ok (exec_padd_of_onCurrent d h2 ha hb) hq (ecAdd_lt h2 (OnEquation.lt ha) (OnEquation.lt hb) hq)
  · rw [ecAdd_error he] at he
    exact aborted_of_zeroInverse (exec_padd_of_onCurrent d h2 ha hb) he
  · obtain ⟨q, hq, -⟩ := ha.add hp hb
    exact ⟨q, hq⟩

/-- Settles O31: a doubling always has a result, and for `INF` and for `y = 0` case 1 or case 2 gives it. -/
theorem pdblAlwaysCompletesAndEqualsPaddOfAPoint : Obligations.PdblAlwaysCompletesAndEqualsPaddOfAPoint := by
  intro s d r
  have hdbl := checksPoint_pdbl s d r
  refine ⟨exec_pdbl_eq_padd s d r, hdbl.of_lt, fun h2 => ⟨hdbl.of_off h2, fun hon => ?_⟩⟩
  have hcommits {q : Point} (hq : ecAdd (s.point r) (s.point r) s.currentCurve.a s.currentCurve.p = .ok q) :
      ∃ t, exec (.pdbl d r) s = .next t ∧ EndsWithPoint s t d q :=
    ends_of_ok (hdbl.of_on h2 hon) hq (ecAdd_lt h2 (OnEquation.lt hon) (OnEquation.lt hon) hq)
  refine ⟨?_, fun hinf => hcommits (by rw [hinf, ecAdd_inf_left]), fun x hx => hcommits ?_⟩
  · obtain ⟨q, hq⟩ := ecAdd_self_ok (s.point r) s.currentCurve.a s.currentCurve.p
    obtain ⟨t, ht, hends⟩ := hcommits hq
    exact ⟨q, t, hq, ht, hends⟩
  · rw [hx, ecAdd_of_opposite (Nat.zero_mod _)]

/-- Settles O32: `PMUL` runs the claims' double-and-add on the claims' base; a scalar of 0 runs no iteration, and every
multiple of `INF` is `INF`. -/
theorem pmulRunsDoubleAndAdd : Obligations.PmulRunsDoubleAndAdd := by
  intro s neg d r k
  have hmul := checksPoint_pmul s neg d r k
  refine ⟨hmul.of_lt, fun h2 => ⟨hmul.of_off h2, fun hon => ?_⟩⟩
  have hbase := pmul_base_onCurrent neg h2 hon
  have hexec := exec_pmul_of_onCurrent neg d k h2 hon
  rw [← negPoint_eq_ecNeg hon] at hexec
  simp only [doubleAndAdd_eq_ecMul]
  have hcommits {q : Point} (hq : ecMul (s.scalar k) (if neg then negPoint (s.point r) s.curveP.toNat else s.point r)
      s.currentCurve.a s.currentCurve.p = .ok q) : ∃ t, exec (.pmul neg d r k) s = .next t ∧ EndsWithPoint s t d q :=
    ends_of_ok hexec hq (ecMul_lt h2 (OnEquation.lt hbase) hq)
  refine ⟨fun q => hcommits, fun e he => ⟨?_, fun hp => ?_⟩, ?_⟩
  · rw [ecMul_error he] at he
    exact aborted_of_zeroInverse hexec he
  · obtain ⟨q, hq, -⟩ := hbase.mul (s.scalar k) hp
    cases hq.symm.trans he
  · rintro (hzero | hinf)
    · exact hcommits (by rw [State.scalar, State.getX, hzero, ecMul_zero])
    · refine hcommits ?_
      rw [hinf, show (if neg then negPoint .inf s.curveP.toNat else Point.inf) = .inf from ite_self _, ecMul_inf]

end Sys2Proof.Machine
end

section
/-! The ECDSA commands (R170 to R178): what each answers, once; verification as a sum of multiples in the group of the
ROM curve, from which its symmetry in `s` and the round trip with signing follow. -/

namespace Sys2Proof.Machine

open WeierstrassCurve

variable {s t : State} {d z r u : XNum}

/-! ## The draws (R171) -/

theorem drawScalar_of_accepted {rej rest : List Word} {w : Word} (hrej : ∀ v ∈ rej, ¬ Accepted v) (hw : Accepted w) :
    drawScalar (rej ++ w :: rest) = .got w.toNat rest := by
  rw [drawScalar_skip _ hrej, drawScalar, if_pos ((drawOk_iff w).2 hw)]

theorem drawScalar_of_none_accepted {l : List Word} (h : ∀ v ∈ l, ¬ Accepted v) : drawScalar l = .starved := by
  simpa [drawScalar] using drawScalar_skip [] h

theorem signLoop_of_none_accepted (dk zv : Nat) {l : List Word} (h : ∀ v ∈ l, ¬ Accepted v) :
    signLoop dk zv l = .starved := by
  simpa [signLoop] using signLoop_skip dk zv [] h

/-- The pass with the first accepted nonce asks for another one. -/
theorem signLoop_of_retry {dk zv : Nat} {rej rest : List Word} {w : Word} (hrej : ∀ v ∈ rej, ¬ Accepted v)
    (hw : Accepted w) (hpass : signWith w.toNat dk zv = .ok none) :
    signLoop dk zv (rej ++ w :: rest) = signLoop dk zv rest := by
  rw [signLoop_skip _ _ _ hrej, signLoop, if_pos ((drawOk_iff w).2 hw), hpass]

/-- The pass with the first accepted nonce gives a signature. -/
theorem signLoop_of_signature {dk zv : Nat} {rej rest : List Word} {w : Word} {sig : Nat × Nat}
    (hrej : ∀ v ∈ rej, ¬ Accepted v) (hw : Accepted w) (hpass : signWith w.toNat dk zv = .ok (some sig)) :
    signLoop dk zv (rej ++ w :: rest) = .got (.ok sig) rest := by
  rw [signLoop_skip _ _ _ hrej, signLoop, if_pos ((drawOk_iff w).2 hw), hpass]

/-! ## `KGEN` (R172) -/

theorem exec_kgen_of_got {v : Nat} {rest : List Word} (h : drawScalar s.entropy = .got v rest) :
    exec (.kgen d) s = .next ((s.withEntropy rest).setX d (intReg v)).commit := by
  rw [exec, execKgen, h]
  rfl

theorem exec_kgen_of_starved (h : drawScalar s.entropy = .starved) : exec (.kgen d) s = .next s.awaitEntropy := by
  rw [exec, execKgen, h]

/-- Settles O36: the rejected draws are skipped, and the wait takes every answer that was ready. -/
theorem kgenStoresTheFirstAcceptedDraw : Obligations.KgenStoresTheFirstAcceptedDraw := by
  intro s d
  refine ⟨fun rej w rest hent hrej hw => ⟨_, exec_kgen_of_got ?_, endsWithX_intReg w.isLt⟩,
    fun hnone => exec_kgen_of_starved (drawScalar_of_none_accepted hnone)⟩
  rw [hent, drawScalar_of_accepted hrej hw]

/-! ## Multiples of the generator (R173) -/

/-- Double-and-add gives the point that stands for the multiple. -/
theorem romRep_of_romMul [Fact Config.romP.toNat.Prime] {q t : Point} {Q : romCurve.Point} {k : Nat} (h : RomRep q Q)
    (ht : romMul k q = .ok t) : RomRep t (k • Q) := by
  obtain ⟨t', ht', rep⟩ := h.romMul k
  cases ht.symm.trans ht'
  exact rep

theorem romMul_of_rep [Fact Config.romP.toNat.Prime] {q t : Point} {Q : romCurve.Point} {k : Nat} (h : RomRep q Q)
    (ht : RomRep t (k • Q)) : romMul k q = .ok t := by
  obtain ⟨t', ht', rep⟩ := h.romMul k
  rw [ht', rep.injective ht]

theorem onRom_of_romMul_gen {k : Nat} {q : Point} (h : romMul k romG = .ok q) : OnRom q := by
  have := romP_fact
  obtain ⟨G, hG, -, -⟩ := romG_rep
  exact (romRep_of_romMul hG h).onEquation

theorem romMul_one_gen : romMul 1 romG = .ok romG := by
  have := romP_fact
  obtain ⟨G, hG, -, -⟩ := romG_rep
  exact romMul_of_rep hG (by rwa [one_nsmul])

theorem ecNeg_gen : ecNeg romG Config.romP.toNat =
    .aff Config.romGx.toNat (Config.romP.toNat - Config.romGy.toNat) := by decide +kernel

/-- `(n - 1)*G = -G`, because `n*G = INF`. -/
theorem romMul_pred_order_gen : romMul (romOrder - 1) romG =
    .ok (.aff Config.romGx.toNat (Config.romP.toNat - Config.romGy.toNat)) := by
  have := romP_fact
  obtain ⟨G, hG, -, hn⟩ := romG_rep
  have hneg : (romOrder - 1) • G = -G := by
    rw [eq_neg_iff_add_eq_zero, ← succ_nsmul, Nat.sub_add_cancel romOrder_pos, hn]
  rw [← ecNeg_gen]
  exact romMul_of_rep hG (hneg ▸ hG.neg)

/-! ## `PUBK` (R173) -/

theorem exec_pubk (s : State) (d : PNum) (k : XNum) :
    exec (.pubk d k) s = finish s (if s.scalar k < 1 ∨ s.scalar k > orderN - 1 then .error .outOfRange
      else romMul (s.scalar k) romG >>= fun q => .ok (s.setPoint d q)) := by
  rw [romMul_eq_ecMulR]
  rfl

theorem exec_pubk_of_ok {k : XNum} {q : Point} (d : PNum) (h1 : 1 ≤ s.scalar k) (h2 : s.scalar k ≤ romOrder - 1)
    (hq : romMul (s.scalar k) romG = .ok q) : exec (.pubk d k) s = .next (s.setPoint d q).commit := by
  have hrange : ¬ (s.scalar k < 1 ∨ s.scalar k > orderN - 1) := by
    rw [show orderN = romOrder from rfl]
    omega
  rw [exec_pubk, if_neg hrange, hq, except_ok_bind, finish_ok]

/-- Settles O37: in range no multiple of `G` is `INF`, and the group of the ROM curve gives the two multiples named. -/
theorem pubkMultipliesTheGenerator : Obligations.PubkMultipliesTheGenerator := by
  intro s d k
  refine ⟨fun hout => ?_, fun h1 h2 => ?_⟩
  · have hrange : s.scalar k < 1 ∨ s.scalar k > orderN - 1 := hout
    rw [exec_pubk, if_pos hrange]
    rfl
  · obtain ⟨x, y, hq⟩ := romMul_gen_aff h1 h2
    have hon := onRom_of_romMul_gen hq
    refine ⟨.aff x y, _, hq, Point.noConfusion, hon, exec_pubk_of_ok d h1 h2 hq,
      endsWithPoint_setPoint hon.lt_two_pow, fun hk => ?_, fun hk => ?_⟩
    · rw [hk, romMul_one_gen] at hq
      exact (Except.ok.inj hq).symm
    · rw [hk, romMul_pred_order_gen] at hq
      exact (Except.ok.inj hq).symm

/-! ## `SIGN` (R174, R175) -/

/-- What `SIGN` answers depends on the answers of the entropy source through its loop alone. -/
theorem exec_sign_congr {rest : List Word}
    (h : signLoop (s.scalar d) (s.scalar z) s.entropy = signLoop (s.scalar d) (s.scalar z) rest) :
    exec (.sign r u d z) s = exec (.sign r u d z) (s.withEntropy rest) := by
  rw [exec, execSign, h]
  rfl

theorem exec_sign_of_starved (h : signLoop (s.scalar d) (s.scalar z) s.entropy = .starved) :
    exec (.sign r u d z) s = .next s.awaitEntropy := by
  rw [exec, execSign, h]

theorem exec_sign_of_got {sig : Nat × Nat} {rest : List Word}
    (h : signLoop (s.scalar d) (s.scalar z) s.entropy = .got (.ok sig) rest) :
    exec (.sign r u d z) s =
      .next (((s.withEntropy rest).setX r (intReg sig.1)).setX u (intReg sig.2)).commit := by
  rw [exec, execSign, h]
  rfl

/-- Settles O38: the loop takes one pass with the first accepted nonce, which `signWith_eq` writes out. -/
theorem signFollowsItsLoop : Obligations.SignFollowsItsLoop := by
  intro s r u d z
  refine ⟨fun rej w rest hent hrej hw => ?_,
    fun hnone => exec_sign_of_starved (signLoop_of_none_accepted _ _ hnone)⟩
  obtain ⟨x, y, hR⟩ := romMul_gen_aff hw.1 hw.2
  have hpass := signWith_eq (s.x.get d).val.toNat (s.x.get z).val.toNat hR
  refine ⟨x, y, hR, fun hretry => exec_sign_congr ?_, fun raw hraw hr hs => ?_⟩
  · rw [hent]
    refine signLoop_of_retry hrej hw (hpass.trans (congrArg Except.ok ?_))
    obtain hr | hs := hretry
    · exact if_pos hr
    · exact ite_eq_left_iff.2 fun _ => if_pos hs
  · subst hraw
    rw [if_neg hr, if_neg hs] at hpass
    have hgot := signLoop_of_signature (rest := rest) hrej hw hpass
    rw [← hent] at hgot
    exact exec_sign_of_got hgot

/-- A signature is what the pass with some accepted nonce computes. -/
theorem signWith_signature {w : Word} {dk zv rv sv : Nat} (hw : Accepted w)
    (h : signWith w.toNat dk zv = .ok (some (rv, sv))) :
    ∃ x y, romMul w.toNat romG = .ok (.aff x y) ∧ rv = x % romOrder ∧ rv ≠ 0 ∧ rawS w.toNat rv dk zv ≠ 0 ∧
      sv = lowS (rawS w.toNat rv dk zv) := by
  obtain ⟨x, y, hR⟩ := romMul_gen_aff hw.1 hw.2
  rw [signWith_eq dk zv hR] at h
  split_ifs at h with hr hs
  · cases h
  · cases h
  · cases h
    exact ⟨x, y, hR, rfl, hr, hs, rfl⟩

/-- A `SIGN` that has ended its command has stored the signature of a pass with some accepted nonce. -/
theorem signature_of_exec_sign (hru : r ≠ u) (hexec : exec (.sign r u d z) s = .next t) (hs : s.pending ≠ none)
    (ht : t.pending = none) : ∃ w rv sv, Accepted w ∧ signWith w.toNat (s.scalar d) (s.scalar z) = .ok (some (rv, sv)) ∧
      t.getX r = intReg rv ∧ t.getX u = intReg sv := by
  obtain hwait | ⟨w, rv, sv, rest, hw, hpass, hgot⟩ := signLoop_cases (s.scalar d) (s.scalar z) s.entropy
  · cases (exec_sign_of_starved hwait).symm.trans hexec
    exact absurd ht hs
  · cases (exec_sign_of_got hgot).symm.trans hexec
    refine ⟨w, rv, sv, hw, hpass, ?_, State.getX_setX_self _ u _⟩
    exact (State.getX_setX_ne _ _ hru).trans (State.getX_setX_self _ r _)

theorem scalar_of_getX_intReg {i : XNum} {n : Nat} (h : t.getX i = intReg n) (hn : n < 2 ^ 256) : t.scalar i = n := by
  rw [State.scalar, h, intReg_val_toNat hn]

theorem rawS_lt (k rv dk zv : Nat) : rawS k rv dk zv < romOrder := Nat.mod_lt _ romOrder_pos

/-- The two parts of a signature lie in their ranges (R174, R175). -/
theorem signature_range {w : Word} {dk zv rv sv : Nat} (hw : Accepted w)
    (h : signWith w.toNat dk zv = .ok (some (rv, sv))) :
    1 ≤ rv ∧ rv ≤ romOrder - 1 ∧ 1 ≤ sv ∧ sv ≤ romOrder / 2 := by
  obtain ⟨x, y, -, hrv, hr0, hraw, hsv⟩ := signWith_signature hw h
  obtain ⟨h1, h2⟩ := lowS_range hraw (rawS_lt _ _ _ _)
  have hlt : rv < romOrder := hrv ▸ Nat.mod_lt _ romOrder_pos
  rw [hsv]
  exact ⟨Nat.pos_of_ne_zero hr0, Nat.le_sub_one_of_lt hlt, h1, h2⟩

/-- Settles O39: the registers hold the signature of a pass, whose parts are in range and so fit in a register. -/
theorem signResultsLieInRange : Obligations.SignResultsLieInRange := by
  intro s t r u d z hru hexec ht hs _
  obtain ⟨w, rv, sv, hw, hpass, hr, hu⟩ := signature_of_exec_sign hru hexec hs ht
  obtain ⟨hr1, hr2, hs1, hs2⟩ := signature_range hw hpass
  have hn := romOrder_lt_two_pow
  have hrval : (t.x.get r).val.toNat = rv := scalar_of_getX_intReg hr (by omega)
  have huval : (t.x.get u).val.toNat = sv := scalar_of_getX_intReg hu (by omega)
  rw [hrval, huval]
  exact ⟨congrArg (·.mod.toNat) hr, hr1, hr2, congrArg (·.mod.toNat) hu, hs1, hs2⟩

/-! ## `VRFY` (R176) -/

theorem exec_vrfy_of_flag {q : PNum} {b : Bool}
    (h : verifyFlag (s.point q) (s.scalar z) (s.scalar r) (s.scalar u) = .ok b) :
    exec (.vrfy q z r u) s = .next (s.endedWith b) := by
  rw [exec, execVrfy, h]
  rfl

/-- Settles O40: the flag of `verifyFlag` in its two cases. -/
theorem vrfyIsTotalAndFollowsItsSteps : Obligations.VrfyIsTotalAndFollowsItsSteps := by
  intro s q z r u
  refine ⟨fun hout => exec_vrfy_of_flag (verifyFlag_of_out hout), ?_⟩
  rintro hon hr1 hr2 hu1 hu2 _ rfl
  obtain ⟨q1, q2, pt, h1, h2, hsum, hflag⟩ := verifyFlag_of_in (z := s.scalar z) hon hr1 hr2 hu1 hu2
  exact ⟨q1, q2, pt, h1, h2, hsum, exec_vrfy_of_flag hflag⟩

/-! ## Verification in the group of the ROM curve (R177, R178) -/

/-- The last step of verification: the sum is not `INF` and its `x` is `r` mod `n` (R176). -/
def acceptsSum (rv : Nat) : Point → Bool
  | .inf => false
  | .aff x _ => decide (x % romOrder = rv)

theorem acceptsSum_ecNeg (rv : Nat) (q : Point) (p : Nat) : acceptsSum rv (ecNeg q p) = acceptsSum rv q := by
  cases q <;> rfl

/-- The sum `u1*G + u2*Q` of verification, from the inverse `si` of `s` (R176). -/
noncomputable def verifySum [Fact Config.romP.toNat.Prime] (G Q : romCurve.Point) (zv rv : Nat)
    (si : ZMod romOrder) : romCurve.Point := (zv * si).val • G + (rv * si).val • Q

/-- In range, verification decides on the point that stands for the sum. -/
theorem verifyFlag_eq_acceptsSum [Fact Config.romP.toNat.Prime] {q pt : Point} {G Q : romCurve.Point} {zv rv sv : Nat}
    (hG : RomRep romG G) (hQ : RomRep q Q) (hr1 : 1 ≤ rv) (hr2 : rv ≤ romOrder - 1) (hs1 : 1 ≤ sv)
    (hs2 : sv ≤ romOrder - 1) (hpt : RomRep pt (verifySum G Q zv rv (sv : ZMod romOrder)⁻¹)) :
    verifyFlag q zv rv sv = .ok (acceptsSum rv pt) := by
  have : Fact romOrder.Prime := romN_fact
  obtain ⟨q1, q2, pt', h1, h2, hsum, hflag⟩ := verifyFlag_of_in (z := zv) hQ.onEquation hr1 hr2 hs1 hs2
  have hscalar (v : Nat) : ((v * (sv ^ (romOrder - 2) % romOrder) % romOrder : Nat) : ZMod romOrder) =
      ((v * (sv : ZMod romOrder)⁻¹).val : Nat) := by
    rw [ZMod.natCast_mod, Nat.cast_mul, (inv_romOrder_cast hs1 hs2).2, ZMod.natCast_zmod_val]
  have rep1 := romRep_of_romMul hG h1
  have rep2 := romRep_of_romMul hQ h2
  rw [nsmul_eq_of_cast _ (hscalar _)] at rep1 rep2
  obtain ⟨t, ht, rept⟩ := rep1.add rep2
  obtain rfl : pt' = t := Except.ok.inj (hsum.symm.trans ht)
  rw [hflag, rept.injective hpt]
  cases pt <;> rfl

theorem verifySum_neg [Fact Config.romP.toNat.Prime] (G Q : romCurve.Point) (zv rv : Nat) (si : ZMod romOrder) :
    verifySum G Q zv rv (-si) = -verifySum G Q zv rv si := by
  have : Fact romOrder.Prime := romN_fact
  have hneg (v : Nat) (P : romCurve.Point) : (v * -si).val • P = -((v * si).val • P) :=
    nsmul_eq_neg_of_cast P (by simp only [ZMod.natCast_zmod_val, mul_neg])
  rw [verifySum, hneg, hneg, ← neg_add, verifySum]

/-- `n - s` in place of `s` negates the sum, whose `x` stays the same. -/
theorem verifyFlag_sub_order (q : Point) (zv rv : Nat) {sv : Nat} (hs1 : 1 ≤ sv) (hs2 : sv ≤ romOrder - 1) :
    verifyFlag q zv rv (romOrder - sv) = verifyFlag q zv rv sv := by
  have := romP_fact
  by_cases hout : ¬ OnRom q ∨ rv < 1 ∨ romOrder - 1 < rv
  · have hout' (sv' : Nat) := hout.imp_right (Or.imp_right (Or.inl (b := sv' < 1 ∨ romOrder - 1 < sv')))
    rw [verifyFlag_of_out (hout' _), verifyFlag_of_out (hout' _)]
  · push Not at hout
    obtain ⟨hon, hr1, hr2⟩ := hout
    obtain ⟨G, hG, -, -⟩ := romG_rep
    obtain ⟨Q, hQ⟩ := exists_rep romCurve_Δ hon
    obtain ⟨pt, hpt⟩ := exists_point (verifySum G Q zv rv (sv : ZMod romOrder)⁻¹)
    have hinv : ((romOrder - sv : Nat) : ZMod romOrder)⁻¹ = -(sv : ZMod romOrder)⁻¹ := by
      have : Fact romOrder.Prime := romN_fact
      rw [cast_sub_of_lt (by omega), inv_neg]
    have hneg := hpt.neg
    rw [← verifySum_neg, ← hinv] at hneg
    rw [verifyFlag_eq_acceptsSum hG hQ hr1 hr2 hs1 hs2 hpt,
      verifyFlag_eq_acceptsSum hG hQ hr1 hr2 (by omega) (by omega) hneg, acceptsSum_ecNeg]

/-- Settles O43: the two flags are equal, and verification always has one. -/
theorem verificationIsMalleableInS : Obligations.VerificationIsMalleableInS := by
  intro s q z r u u' h1 h2 hu'
  obtain ⟨b, hb⟩ := verifyFlag_total (s.point q) (s.scalar z) (s.scalar r) (s.scalar u)
  have hscalar : s.scalar u' = romOrder - s.scalar u := hu'
  refine ⟨b, exec_vrfy_of_flag hb, exec_vrfy_of_flag ?_⟩
  rw [hscalar]
  exact (verifyFlag_sub_order _ _ _ h1 h2).trans hb

theorem rawS_cast {k : Nat} [Fact romOrder.Prime] (rv dk zv : Nat) (h1 : 1 ≤ k) (h2 : k ≤ romOrder - 1) :
    (rawS k rv dk zv : ZMod romOrder) = (k : ZMod romOrder)⁻¹ * (zv + rv * dk) := by
  rw [rawS, ZMod.natCast_mod, Nat.cast_mul, (inv_romOrder_cast h1 h2).2, Nat.cast_add, Nat.cast_mul]

/-- For the key `dk*G` and the `s` of a pass with the nonce `k`, the sum of verification is `k*G`. -/
theorem verifySum_rawS [Fact Config.romP.toNat.Prime] {k rv dk zv : Nat} (G : romCurve.Point) (h1 : 1 ≤ k)
    (h2 : k ≤ romOrder - 1) (hs : rawS k rv dk zv ≠ 0) :
    verifySum G (dk • G) zv rv (rawS k rv dk zv : ZMod romOrder)⁻¹ = k • G := by
  have : Fact romOrder.Prime := romN_fact
  have hk0 := (inv_romOrder_cast h1 h2).1
  have hs0 := (inv_romOrder_cast (Nat.pos_of_ne_zero hs) (Nat.le_sub_one_of_lt (rawS_lt k rv dk zv))).1
  have hraw := (eq_inv_mul_iff_mul_eq₀ hk0).1 (rawS_cast rv dk zv h1 h2)
  generalize (rawS k rv dk zv : ZMod romOrder) = raw at *
  rw [verifySum, ← mul_nsmul', ← add_nsmul]
  refine nsmul_eq_of_cast G ?_
  rw [Nat.cast_add, Nat.cast_mul, ZMod.natCast_zmod_val, ZMod.natCast_zmod_val]
  calc zv * raw⁻¹ + rv * raw⁻¹ * dk
    _ = (zv + rv * dk) * raw⁻¹ := by ring
    _ = k := by rw [← hraw, mul_inv_cancel_right₀ hs0]

/-- Before Low-S the signature verifies: the sum is the point that `r` is the `x` of. -/
theorem verifyFlag_rawS {k x y dk zv : Nat} {q : Point} (hk1 : 1 ≤ k) (hk2 : k ≤ romOrder - 1)
    (hR : romMul k romG = .ok (.aff x y)) (hq : romMul dk romG = .ok q) (hr : x % romOrder ≠ 0)
    (hs : rawS k (x % romOrder) dk zv ≠ 0) :
    verifyFlag q zv (x % romOrder) (rawS k (x % romOrder) dk zv) = .ok true := by
  have := romP_fact
  obtain ⟨G, hG, -, -⟩ := romG_rep
  have repR := romRep_of_romMul hG hR
  rw [← verifySum_rawS G hk1 hk2 hs] at repR
  rw [verifyFlag_eq_acceptsSum hG (romRep_of_romMul hG hq) (Nat.pos_of_ne_zero hr)
    (Nat.le_sub_one_of_lt (Nat.mod_lt _ romOrder_pos)) (Nat.pos_of_ne_zero hs)
    (Nat.le_sub_one_of_lt (rawS_lt _ _ _ _)) repR, acceptsSum, decide_eq_true rfl]

theorem lowS_eq_or (sv : Nat) : lowS sv = sv ∨ lowS sv = romOrder - sv := by
  unfold lowS
  split
  · exact .inr rfl
  · exact .inl rfl

/-- What a signing pass gives verifies under the key's point, with `s` and with `n - s` (R177). -/
theorem verifyFlag_of_signature {w : Word} {dk zv rv sv sv' : Nat} {q : Point} (hw : Accepted w)
    (h : signWith w.toNat dk zv = .ok (some (rv, sv))) (hq : romMul dk romG = .ok q)
    (hsv' : sv' = sv ∨ sv' = romOrder - sv) : verifyFlag q zv rv sv' = .ok true := by
  obtain ⟨x, y, hR, rfl, hr, hraw, rfl⟩ := signWith_signature hw h
  have hflag := verifyFlag_rawS hw.1 hw.2 hR hq hr hraw
  have hlt := rawS_lt w.toNat (x % romOrder) dk zv
  have hlow := lowS_eq_or (rawS w.toNat (x % romOrder) dk zv)
  generalize rawS w.toNat (x % romOrder) dk zv = raw at *
  have heq : sv' = raw ∨ sv' = romOrder - raw := by omega
  obtain rfl | rfl := heq
  · exact hflag
  · rw [verifyFlag_sub_order _ _ _ (by omega) (by omega), hflag]

/-- Settles O42: the registers of the verifying state hold the signature of a pass, or its mirror in `s`. -/
theorem signedSignaturesVerify : Obligations.SignedSignaturesVerify := by
  intro s t v r u d z zr rr sr qr q hru _ _ hexec hs ht _ hq hvq hvz hvr hvs
  obtain ⟨w, rv, sv, hw, hpass, hr, hu⟩ := signature_of_exec_sign hru hexec hs ht
  obtain ⟨hr1, hr2, hs1, hs2⟩ := signature_range hw hpass
  have hn := romOrder_lt_two_pow
  have hz : v.scalar zr = s.scalar z := congrArg BitVec.toNat hvz
  have hrval : v.scalar rr = rv := (congrArg BitVec.toNat hvr).trans (scalar_of_getX_intReg hr (by omega))
  have hsval : v.scalar sr = sv ∨ v.scalar sr = romOrder - sv := by
    rw [← scalar_of_getX_intReg hu (by omega)]
    exact hvs.imp_left (congrArg BitVec.toNat)
  refine exec_vrfy_of_flag ?_
  rw [hvq, hz, hrval]
  exact verifyFlag_of_signature hw hpass hq hsval

end Sys2Proof.Machine
end

section
/-! How every command ends, with the codes it may abort with (R200, R201, R205): `exec_endsListed` is the one walk through
the commands that also follows their errors, with a rule for each form their bodies are built from. The obligations are
case analyses of it. -/

namespace Sys2Proof.Machine

variable {i : Instr} {s t : State}

/-! ## The vocabulary -/

/-- The commands whose `E_ZERO_INVERSE` needs a composite `CURVE_P` (R147). -/
def Instr.IsAddOrMul (i : Instr) : Prop := (∃ d a b, i = .padd d a b) ∨ ∃ n d r k, i = .pmul n d r k

/-- The command may abort with the code when it runs on `s` (R147, R201). -/
def MayRaise (i : Instr) (s : State) (c : BitVec 8) : Prop :=
  c ∈ raisable i ∧ (Instr.IsAddOrMul i → c = 0x03#8 → ¬ Nat.Prime s.curveP.toNat)

/-- The three answers of a command that runs on `s`. -/
inductive EndsListed (i : Instr) (s : State) : Out → Prop where
  | commit {t : State} (hframe : CommitFrame s t) (hentropy : Draws i ∨ t.entropy = s.entropy) :
    EndsListed i s (.next t)
  | abort {c : BitVec 8} (hc : MayRaise i s c) : EndsListed i s (.next (s.aborted c))
  | wait (hdraws : Draws i) : EndsListed i s (.next s.awaitEntropy)

theorem mayRaise_of_ne {c : BitVec 8} (hc : c ∈ raisable i) (h3 : c ≠ 0x03#8) : MayRaise i s c :=
  ⟨hc, fun _ h => absurd h h3⟩

/-! ## What the writes of a command keep -/

theorem State.entropy_write (s : State) (w : RegWrite) : (s.write w).entropy = s.entropy := by
  cases w with
  | x d r => rfl
  | p d r => rfl
  | point d q => exact State.setPoint_entropy s d q

/-- The frame of a commit leaves the registers free. -/
theorem CommitFrame.write (h : CommitFrame s t.commit) (w : RegWrite) : CommitFrame s (t.write w).commit := by
  cases w with
  | x d r => exact h
  | p d r => exact h
  | point d q => cases q <;> exact h

theorem commitFrame_withEntropy (s : State) (rest : List Word) : CommitFrame s (s.withEntropy rest).commit :=
  ⟨rfl, rfl, rfl, rfl, rfl, rfl, rfl, rfl, rfl⟩

theorem commitFrame_endedWith (s : State) (b : Bool) : CommitFrame s (s.endedWith b) :=
  ⟨rfl, rfl, rfl, rfl, rfl, rfl, rfl, rfl, rfl⟩

/-! ## Rules for the body of a command, one for each form the bodies are built from -/

namespace EndsListed

theorem nothing : EndsListed i s (finish s (.ok s)) := .commit (commitFrame_withEntropy s s.entropy) (.inr rfl)

theorem write (w : RegWrite) : EndsListed i s (finish s (.ok (s.write w))) :=
  .commit ((commitFrame_withEntropy s s.entropy).write w) (.inr (s.entropy_write w))

theorem flag (b : Bool) : EndsListed i s (.next (s.endedWith b)) := .commit (commitFrame_endedWith s b) (.inr rfl)

theorem error {e : Err} (he : MayRaise i s e.code) : EndsListed i s (finish s (.error e)) := .abort he

/-- A check or a computation, then the rest of the body. -/
theorem bind {α : Type} {c : Except Err α} {k : α → Except Err State}
    (hc : ∀ e, c = .error e → MayRaise i s e.code) (hk : ∀ a, c = .ok a → EndsListed i s (finish s (k a))) :
    EndsListed i s (finish s (c >>= k)) := by
  cases c with
  | error e => exact error (hc e rfl)
  | ok a => exact hk a rfl

/-- A condition that raises an error, or else the rest of the body. -/
theorem guard {c : Prop} [Decidable c] {e : Err} {r : Except Err State} (he : MayRaise i s e.code)
    (hr : ¬ c → EndsListed i s (finish s r)) : EndsListed i s (finish s (if c then .error e else r)) := by
  by_cases hc : c
  · rw [if_pos hc]
    exact error he
  · rw [if_neg hc]
    exact hr hc

/-- The operand check of a field element (R120). -/
theorem fchk {r : XReg} {k : FieldElem → Except Err State} (hk : ∀ o, EndsListed i s (finish s (k o)))
    (h5 : 5#8 ∈ raisable i := by simp [raisable]) (h6 : 6#8 ∈ raisable i := by simp [raisable]) :
    EndsListed i s (finish s (Machine.fchk r >>= k)) := by
  refine bind (fun e he => ?_) fun o _ => hk o
  obtain rfl | rfl := fchk_error he
  · exact mayRaise_of_ne h6 (by decide)
  · exact mayRaise_of_ne h5 (by decide)

/-- The operand check of a field command on two operands (R120). -/
theorem fieldPair {a b : XNum} {k : FieldPair → Except Err State} (hk : ∀ o, EndsListed i s (finish s (k o)))
    (h2 : 2#8 ∈ raisable i := by simp [raisable]) (h5 : 5#8 ∈ raisable i := by simp [raisable])
    (h6 : 6#8 ∈ raisable i := by simp [raisable]) : EndsListed i s (finish s (s.fieldPair a b >>= k)) := by
  refine bind (fun e he => ?_) fun o _ => hk o
  obtain rfl | rfl | rfl := State.fieldPair_error he
  · exact mayRaise_of_ne h6 (by decide)
  · exact mayRaise_of_ne h5 (by decide)
  · exact mayRaise_of_ne h2 (by decide)

/-- The check of the current curve (R141). -/
theorem curve {k : Curve → Except Err State}
    (hk : 2 ≤ s.curveP.toNat → EndsListed i s (finish s (k s.currentCurve)))
    (h10 : 10#8 ∈ raisable i := by simp [raisable]) : EndsListed i s (finish s (s.curve >>= k)) := by
  refine bind (fun e he => ?_) fun c hc => ?_
  · obtain ⟨rfl, -⟩ := State.curve_error he
    exact mayRaise_of_ne h10 (by decide)
  · obtain ⟨h2, rfl⟩ := State.curve_ok_iff.1 hc
    exact hk h2

/-- The check of a point against the current curve (R143). -/
theorem check {q : Point} {k : Point → Except Err State} (h2 : 2 ≤ s.curveP.toNat)
    (hk : s.OnCurrent q → EndsListed i s (finish s (k q))) (h7 : 7#8 ∈ raisable i := by simp [raisable]) :
    EndsListed i s (finish s (s.currentCurve.check q >>= k)) := by
  refine bind (fun e he => ?_) fun pt hpt => ?_
  · cases Curve.check_error he
    exact mayRaise_of_ne h7 (by decide)
  · obtain ⟨hon, rfl⟩ := Curve.check_ok_iff.1 hpt
    exact hk ((onCurve_current_iff h2 _).1 hon)

/-- A computation that always has a result, then the rest of the body. -/
theorem total {α : Type} {c : Except Err α} {k : α → Except Err State} (hc : ∃ a, c = .ok a)
    (hk : ∀ a, EndsListed i s (finish s (k a))) : EndsListed i s (finish s (c >>= k)) := by
  obtain ⟨a, rfl⟩ := hc
  exact hk a

/-- A point computed by the group law, whose one error a prime modulus excludes (R147), then the write of it. -/
theorem groupLaw {f : Except Err Point} (d : PNum) (hf : ∀ e, f = .error e → e = .zeroInverse)
    (hprime : Nat.Prime s.curveP.toNat → ∃ q, f = .ok q ∧ s.OnCurrent q)
    (h3 : 3#8 ∈ raisable i := by simp [raisable]) :
    EndsListed i s (finish s (f >>= fun q => .ok (s.setPoint d q))) := by
  refine bind (fun e he => ?_) fun q _ => write (.point d q)
  obtain rfl := hf e he
  refine ⟨h3, fun _ _ hp => ?_⟩
  obtain ⟨q, hq, -⟩ := hprime hp
  cases hq.symm.trans he

/-- A coordinate of a point, or the abort on `INF` (R152, R153). -/
theorem coordinate {q : Point} {f : Nat → Nat → XReg} (d : XNum) (h8 : 8#8 ∈ raisable i := by simp [raisable]) :
    EndsListed i s (finish s (match q with
      | .inf => .error .infinity
      | .aff x y => .ok (s.setX d (f x y)))) := by
  cases q with
  | inf => exact error (mayRaise_of_ne h8 (by decide))
  | aff x y => exact write (.x d (f x y))

/-! ## The commands -/

theorem pubk (d : PNum) (k : XNum) : EndsListed (.pubk d k) s (exec (.pubk d k) s) := by
  rw [exec_pubk]
  refine guard (mayRaise_of_ne (by simp [raisable, Err.code]) (by decide)) fun hin => ?_
  obtain ⟨hlo, hhi⟩ := not_or.1 hin
  obtain ⟨x, y, hq⟩ := romMul_gen_aff (Nat.le_of_not_lt hlo) (Nat.le_of_not_lt hhi)
  exact total ⟨_, hq⟩ fun q => write (.point d q)

theorem kgen (d : XNum) : EndsListed (.kgen d) s (exec (.kgen d) s) := by
  have hdraws : Draws (.kgen d) := .inl ⟨d, rfl⟩
  rcases hd : drawScalar s.entropy with ⟨v, rest⟩ | _
  · rw [exec_kgen_of_got hd]
    exact .commit ((commitFrame_withEntropy s rest).write (.x d (intReg v))) (.inl hdraws)
  · rw [exec_kgen_of_starved hd]
    exact .wait hdraws

theorem sign (r u d z : XNum) : EndsListed (.sign r u d z) s (exec (.sign r u d z) s) := by
  have hdraws : Draws (.sign r u d z) := .inr ⟨r, u, d, z, rfl⟩
  obtain hl | ⟨_, rv, sv, rest, -, -, hl⟩ := signLoop_cases (s.scalar d) (s.scalar z) s.entropy
  · rw [exec_sign_of_starved hl]
    exact .wait hdraws
  · rw [exec_sign_of_got hl]
    exact .commit (((commitFrame_withEntropy s rest).write (.x r (intReg rv))).write (.x u (intReg sv))) (.inl hdraws)

theorem vrfy (q : PNum) (z r u : XNum) : EndsListed (.vrfy q z r u) s (exec (.vrfy q z r u) s) := by
  obtain ⟨b, hb⟩ := verifyFlag_total (s.point q) (s.scalar z) (s.scalar r) (s.scalar u)
  rw [exec_vrfy_of_flag hb]
  exact flag b

theorem padd (d a b : PNum) : EndsListed (.padd d a b) s (exec (.padd d a b) s) :=
  curve fun h2 => check h2 fun ha => check h2 fun hb =>
    groupLaw d (fun _ => ecAdd_error) fun hp => ha.add hp hb

theorem pdbl (d r : PNum) : EndsListed (.pdbl d r) s (exec (.pdbl d r) s) :=
  curve fun h2 => check h2 fun _ => total (ecAdd_self_ok _ _ _) fun q => write (.point d q)

theorem pmul (neg : Bool) (d r : PNum) (k : XNum) : EndsListed (.pmul neg d r k) s (exec (.pmul neg d r k) s) := by
  refine curve fun h2 => check h2 fun hon => groupLaw d (fun _ => ecMul_error) fun hp => State.OnCurrent.mul _ hp ?_
  cases neg
  · exact hon
  · exact hon.neg hp

theorem pset (d : PNum) (x y : XNum) : EndsListed (.pset d x y) s (exec (.pset d x y) s) :=
  curve fun h2 => fchk fun _ => fchk fun _ =>
    guard (e := .crossField) (mayRaise_of_ne (by simp [raisable, Err.code]) (by decide)) fun _ =>
      check h2 fun _ => write (.point d _)

theorem fdiv (d a b : XNum) : EndsListed (.fdiv d a b) s (exec (.fdiv d a b) s) :=
  fieldPair fun _ => guard (e := .zeroInverse) ⟨by simp [raisable, Err.code], by simp [Instr.IsAddOrMul]⟩ fun _ =>
    write (.x d _)

theorem finv (d a : XNum) : EndsListed (.finv d a) s (exec (.finv d a) s) :=
  fchk fun _ => guard (e := .zeroInverse) ⟨by simp [raisable, Err.code], by simp [Instr.IsAddOrMul]⟩ fun _ =>
    write (.x d _)

theorem fred (d v m : XNum) : EndsListed (.fred d v m) s (exec (.fred d v m) s) :=
  guard (mayRaise_of_ne (by simp [raisable, Err.code]) (by decide)) fun _ => write (.x d _)

end EndsListed

open EndsListed in
/-- Every command ends in one of the three ways. -/
theorem exec_endsListed (i : Instr) (s : State) : EndsListed i s (exec i s) := by
  cases i with
  | nop => exact nothing
  | mov d r => exact write (.x d _)
  | ldi d imm => exact write (.x d _)
  | ldk d k => exact write (.x d _)
  | fint d r => exact write (.x d _)
  | fred d v m => exact fred d v m
  | fadd d a b => exact fieldPair fun _ => write (.x d _)
  | fsub d a b => exact fieldPair fun _ => write (.x d _)
  | fmul d a b => exact fieldPair fun _ => write (.x d _)
  | fdiv d a b => exact fdiv d a b
  | finv d a => exact finv d a
  | fpow neg d a e => exact EndsListed.fchk fun _ => write (.x d _)
  | feq a b => exact flag _
  | pinf d => exact write (.point d .inf)
  | pgen d => exact curve fun h2 => check h2 fun _ => write (.point d _)
  | pset d x y => exact pset d x y
  | pmov d r => exact write (.p d _)
  | pgx d r => exact curve fun h2 => check h2 fun _ => coordinate d
  | pgy d r => exact curve fun h2 => check h2 fun _ => coordinate d
  | pchk r => exact curve fun _ => flag _
  | peq a b => exact flag _
  | pneg d r => exact curve fun h2 => check h2 fun _ => write (.point d _)
  | padd d a b => exact padd d a b
  | pdbl d r => exact pdbl d r
  | pmul neg d r k => exact pmul neg d r k
  | kgen d => exact kgen d
  | pubk d k => exact pubk d k
  | sign r u d z => exact sign r u d z
  | vrfy q z r u => exact vrfy q z r u

/-! ## From the ending to the obligations -/

theorem endsListed_of_exec (hexec : exec i s = .next t) : EndsListed i s (.next t) := hexec ▸ exec_endsListed i s

theorem raisable_subset_errorCodes (i : Instr) : raisable i ⊆ errorCodes := by
  cases i <;> simp [raisable, errorCodes]

theorem CommitFrame.status_done (h : CommitFrame s t) : t.status.done = true := by
  obtain ⟨hstatus, -⟩ := h
  rw [hstatus]

theorem CommitFrame.status_err (h : CommitFrame s t) : t.status.err = s.status.err := by
  obtain ⟨hstatus, -⟩ := h
  rw [hstatus]

theorem CommitFrame.ctrl (h : CommitFrame s t) : t.ctrl = s.ctrl := by
  obtain ⟨-, -, -, -, -, -, hctrl, -, -⟩ := h
  exact hctrl

/-- Settles O44: the three endings, and the codes of one command are codes of R201. -/
theorem everyCommandCommitsAbortsOrWaits : Obligations.EveryCommandCommitsAbortsOrWaits := by
  intro i s
  have h := exec_endsListed i s
  generalize exec i s = out at h
  cases h with
  | commit hframe hentropy => exact ⟨_, rfl, .inl ⟨hframe, hentropy⟩⟩
  | abort hc => exact ⟨_, rfl, .inr (.inl ⟨_, raisable_subset_errorCodes i hc.1, rfl⟩)⟩
  | wait hdraws => exact ⟨_, rfl, .inr (.inr ⟨hdraws, rfl⟩)⟩

/-- Settles O45: of the three endings only an abort sets `ERR`, and an illegal word never reaches a command. -/
theorem commandsRaiseOnlyTheirListedErrors : Obligations.CommandsRaiseOnlyTheirListedErrors := by
  refine ⟨fun i s t hexec hs ht => ?_, fun s rest w hturn hpending hillegal => ?_⟩
  · cases endsListed_of_exec hexec with
    | commit hframe _ => exact absurd (hframe.status_err.symm.trans ht) (by simp [hs])
    | abort hc => exact hc
    | wait _ => exact absurd ht (by simp [hs])
  · obtain ⟨_, haborts⟩ := illegalWordIsAcceptedThenAborts w
    exact (haborts hillegal).2 s rest hturn hpending

theorem irq_iff (s : State) : s.irq = true ↔
    (s.status.done = true ∧ s.ctrl.ieDone = true) ∨ (s.status.err = true ∧ s.ctrl.ieErr = true) := by
  simp [State.irq]

/-- Settles O58: a commit and an abort set `DONE` and keep the enables, and a wait leaves the command pending. -/
theorem interruptFollowsDoneAndErr : Obligations.InterruptFollowsDoneAndErr := by
  refine ⟨irq_iff, rfl, fun i s t henable hs hexec ht => (irq_iff t).2 (.inl ?_)⟩
  cases endsListed_of_exec hexec with
  | commit hframe _ => exact ⟨hframe.status_done, hframe.ctrl ▸ henable⟩
  | abort _ => exact ⟨rfl, henable⟩
  | wait _ => exact absurd ht hs

end Sys2Proof.Machine
end

section
/-! Writes to `STATUS` (R33, R207). -/

namespace Sys2Proof.Machine

variable {s : State} {rest : List Input}

theorem step_of_status_write {v : Word32} (hs : s.inputs = .busWrite 0x008#11 v :: rest) :
    step s = .next ((s.withInputs rest).clearStatus v) := step_of_aligned_busWrite hs rfl

theorem step_of_accepted_cmd_write {c : Word32} (hs : s.inputs = .busWrite 0x00C#11 c :: rest)
    (hbusy : s.status.busy = false) (herr : s.status.err = false) :
    step s = .next ((s.withInputs rest).accept c) := by
  rw [← State.writeLoc_cmd_accept (s.withInputs rest) hbusy herr]
  exact step_of_aligned_busWrite hs rfl

/-- A status bit that is cleared by writing 1, after a write of 1 and after a write of 0. -/
theorem and_not_of_one {b w : Bool} (h : w = true) : (b && !w) = false := by
  rw [h, Bool.not_true, Bool.and_false]

theorem and_not_of_zero {b w : Bool} (h : w = false) : (b && !w) = b := by
  rw [h, Bool.not_false, Bool.and_true]

/-- Settles O53: each bit of the write decides on its own field, and a cleared `ERR` lets the next `CMD` write in. -/
theorem statusWritesClearByWritingOne : Obligations.StatusWritesClearByWritingOne := by
  intro s rest v hs
  refine ⟨(s.withInputs rest).clearStatus v, step_of_status_write hs, rfl, rfl, rfl, and_not_of_one, and_not_of_zero,
    fun h2 => ⟨and_not_of_one h2, if_pos h2⟩, fun h2 => ⟨and_not_of_zero h2, if_neg (ne_true_of_eq_false h2)⟩,
    and_not_of_one, and_not_of_zero, fun h2 hbusy c more hrest => ?_⟩
  have herr : ((s.withInputs rest).clearStatus v).status.err = false := and_not_of_one h2
  exact step_of_accepted_cmd_write (s := (s.withInputs rest).clearStatus v) hrest hbusy herr

end Sys2Proof.Machine
end

section
/-! A reset during a command (R231): both reset events lead to `State.resetBlock`, which has no answer of the entropy
source left, so a command that draws waits there. -/

namespace Sys2Proof.Machine

variable {s : State} {rest : List Input}

theorem step_of_ctrl_reset {v : Word32} (hv : v.getLsbD 31 = true) (hs : s.inputs = .busWrite 0x004#11 v :: rest) :
    step s = .next (s.withInputs rest).resetBlock := by
  obtain ⟨hwrite, -, -⟩ := controlWritesSetTheEnablesOrReset
  exact (hwrite s rest v hs).2 hv

@[simp] theorem State.awaitEntropy_resetBlock (s : State) : s.resetBlock.awaitEntropy = s.resetBlock := rfl

theorem exec_kgen_resetBlock (d : XNum) (s : State) : exec (.kgen d) s.resetBlock = .next s.resetBlock := by
  have hdraw : drawScalar s.resetBlock.entropy = .starved := rfl
  rw [exec_kgen_of_starved hdraw, State.awaitEntropy_resetBlock]

theorem exec_sign_resetBlock (r u d z : XNum) (s : State) :
    exec (.sign r u d z) s.resetBlock = .next s.resetBlock := by
  have hloop : signLoop (s.resetBlock.scalar d) (s.resetBlock.scalar z) s.resetBlock.entropy = .starved := rfl
  rw [exec_sign_of_starved hloop, State.awaitEntropy_resetBlock]

/-- Settles O59: either event is one step to the block's reset state, where both drawing commands starve. -/
theorem resetAbandonsThePendingCommandAndItsDraw : Obligations.ResetAbandonsThePendingCommandAndItsDraw := by
  intro s rest hreset
  have hstep : step s = .next (s.withInputs rest).resetBlock := by
    obtain hs | ⟨v, hv, hs⟩ := hreset
    · exact step_of_rstN hs
    · exact step_of_ctrl_reset hv hs
  exact ⟨_, hstep, rfl, rfl, rfl, rfl, rfl, rfl, rfl, rfl, rfl, rfl,
    fun d => exec_kgen_resetBlock d _, fun r u d z => exec_sign_resetBlock r u d z _⟩

end Sys2Proof.Machine
end
